-- ==== Sys2Proof/Word.lean ====
section
/-! DEFINITION. The bit-vector types of the host port: the 32-bit word every transaction moves (20_memory.md R40) and the
index of an aligned word of the 1 MiB window, so that a misaligned or out-of-window access cannot be written down (R49). -/

namespace Sys2Proof

/-- One 32-bit word of the host port (R40); a command is one such word (R60). -/
abbrev Word := BitVec 32

/-- The index of an aligned word of the window: the byte offset is four times it, 0x100000 = 4·2^18 (R40; DEDUCED, log entry 10). -/
abbrev WordIndex := BitVec 18

end Sys2Proof
end

