-- ==== Sys2Proof/Syntax.lean ====
section
/-! DEFINITION. The commands of the unit, one constructor per row of spec/opcode_table.json (30_encoding.md R68), and the
assembler's names for them (R72) and for some of their words (the pseudo-commands of R77). -/

namespace Sys2Proof

/-- The number of an element register `e0` to `e15` (R62: "every 4-bit value is a valid register"). -/
abbrev EReg := Fin 16

/-- One command. Operands carry every value their encoding fields carry, in or out of range for the instance (R71). -/
inductive Instr where
  /-- `FLI ed, imm` (format I, R88) -/
  | fli (d : EReg) (imm : BitVec 16)
  /-- `FADD ed, ea, eb` (format R, R89) -/
  | fadd (d a b : EReg)
  /-- `FMUL ed, ea, eb` (format R, R90) -/
  | fmul (d a b : EReg)
  /-- `FPOW ed, ea, eb` (format R, R91) -/
  | fpow (d a b : EReg)
  /-- `FINV ed, ea` (format R with b must-be-zero, R92) -/
  | finv (d a : EReg)
  /-- `MVEX ed, i` (format X, R141) -/
  | mvex (e : EReg) (i : BitVec 8)
  /-- `MVXE i, ea` (format X, R142) -/
  | mvxe (e : EReg) (i : BitVec 8)
  /-- `MIX m` (format M, R102) -/
  | mix (msel : BitVec 4)
  /-- `ARC r` (format V, R122) -/
  | arc (r : BitVec 8)
  /-- `SBOX.F` (format Z, R111) -/
  | sboxF
  /-- `SBOX.P` (format Z, R112) -/
  | sboxP
  /-- `SBOXI.F` (format Z, R113) -/
  | sboxiF
  /-- `SBOXI.P` (format Z, R114) -/
  | sboxiP
  /-- `RND r` (format V, R125) -/
  | rnd (r : BitVec 8)
  /-- `RNDI r` (format V, R127) -/
  | rndi (r : BitVec 8)
  /-- `EVAL rs, re` (format G with TR = 0, R128) -/
  | eval (rs re : BitVec 8)
  /-- `EVAL.T rs, re` (format G with TR = 1, R128) -/
  | evalT (rs re : BitVec 8)
  /-- `EVALI rs, re` (format G with TR = 0, R129) -/
  | evali (rs re : BitVec 8)
  /-- `EVALI.T rs, re` (format G with TR = 1, R129) -/
  | evaliT (rs re : BitVec 8)
  /-- `COMMIT` (format Z, R145) -/
  | commit
  /-- `CLRF` (format Z, R149) -/
  | clrf
  /-- `SRST` (format Z, R150) -/
  | srst
  deriving DecidableEq, Repr

namespace Instr

/-- The pseudo-command `FSUB ed, ea, eb` (R77): subtraction is addition. -/
def fsub (d a b : EReg) : Instr := .fadd d a b

/-- The pseudo-command `FSQR ed, ea` (R77). -/
def fsqr (d a : EReg) : Instr := .fmul d a a

/-- The pseudo-command `FZERO ed` (R77). -/
def fzero (d : EReg) : Instr := .fli d 0

/-- The pseudo-command `FONE ed` (R77). -/
def fone (d : EReg) : Instr := .fli d 1

/-- The pseudo-command `FGEN ed` (R77): the element X. -/
def fgen (d : EReg) : Instr := .fli d 2

/-- The pseudo-commands `MIXI`, `MIXII`, `MIXF`, `MIXFI`, `MIXP`, `MIXPI` (R77). -/
def mixI : Instr := .mix 0
def mixII : Instr := .mix 1
def mixF : Instr := .mix 2
def mixFI : Instr := .mix 3
def mixP : Instr := .mix 4
def mixPI : Instr := .mix 5

/-- An element register as the assembler writes it (R72). -/
def regText (r : EReg) : String := "e" ++ toString r.val

/-- `MIX`'s operand as the assembler writes it: a name for 0 to 5, a decimal number otherwise (R72). -/
def mselText (m : BitVec 4) : String :=
  match ["MINIT", "MINIT_INV", "MF", "MF_INV", "MP", "MP_INV"][m.toNat]? with
  | some name => name
  | none => toString m.toNat

/-- The command in the assembler's syntax of R72, destination first. -/
def text : Instr → String
  | fli d imm => "FLI " ++ regText d ++ ", " ++ toString imm.toNat
  | fadd d a b => "FADD " ++ regText d ++ ", " ++ regText a ++ ", " ++ regText b
  | fmul d a b => "FMUL " ++ regText d ++ ", " ++ regText a ++ ", " ++ regText b
  | fpow d a b => "FPOW " ++ regText d ++ ", " ++ regText a ++ ", " ++ regText b
  | finv d a => "FINV " ++ regText d ++ ", " ++ regText a
  | mvex e i => "MVEX " ++ regText e ++ ", " ++ toString i.toNat
  | mvxe e i => "MVXE " ++ toString i.toNat ++ ", " ++ regText e
  | mix m => "MIX " ++ mselText m
  | arc r => "ARC " ++ toString r.toNat
  | sboxF => "SBOX.F"
  | sboxP => "SBOX.P"
  | sboxiF => "SBOXI.F"
  | sboxiP => "SBOXI.P"
  | rnd r => "RND " ++ toString r.toNat
  | rndi r => "RNDI " ++ toString r.toNat
  | eval rs re => "EVAL " ++ toString rs.toNat ++ ", " ++ toString re.toNat
  | evalT rs re => "EVAL.T " ++ toString rs.toNat ++ ", " ++ toString re.toNat
  | evali rs re => "EVALI " ++ toString rs.toNat ++ ", " ++ toString re.toNat
  | evaliT rs re => "EVALI.T " ++ toString rs.toNat ++ ", " ++ toString re.toNat
  | commit => "COMMIT"
  | clrf => "CLRF"
  | srst => "SRST"

end Instr

end Sys2Proof
end

