-- ==== Sys2Proof/WellFormed.lean ====
section
/-! DEFINITION. Which commands hold no reserved operand value. The operand types already carry the field widths of R62 to R67;
the one reserved value left is `MIX`'s (30_encoding.md R65). An ill-formed command still decodes, and has the meaning the spec
gives it: a fault (R71; DESIGN CHOICE, log entry 15). -/

namespace Sys2Proof

/-- The command holds no operand value the spec reserves: `MIX`'s `msel` is 0 to 5 ("values 6 to 15 are reserved", R65).
Operands that are out of range for an instance (`i ≥ T`, `r ≥ R`) "are not encoding errors" (R71). -/
def Instr.wellFormed : Instr → Bool
  | .mix msel => decide (msel.toNat < 6)
  | .fli _ _ => true
  | .fadd _ _ _ => true
  | .fmul _ _ _ => true
  | .fpow _ _ _ => true
  | .finv _ _ => true
  | .mvex _ _ => true
  | .mvxe _ _ => true
  | .arc _ => true
  | .sboxF => true
  | .sboxP => true
  | .sboxiF => true
  | .sboxiP => true
  | .rnd _ => true
  | .rndi _ => true
  | .eval _ _ => true
  | .evalT _ _ => true
  | .evali _ _ => true
  | .evaliT _ _ => true
  | .commit => true
  | .clrf => true
  | .srst => true

/-- `Instr.wellFormed` as a proposition. -/
abbrev WellFormed (i : Instr) : Prop := i.wellFormed = true

end Sys2Proof
end

