-- ==== Sys2Proof/Decode.lean ====
section
/-! DEFINITION. The command word: the opcode table of 30_encoding.md R68, the decoder, and the encoder written from the
formats of R62 to R67. -/

namespace Sys2Proof

/-- Why a word is no command (R61). -/
inductive DecodeError where
  /-- the opcode byte is in no row of R68 (R70) -/
  | illOpcode
  /-- a must-be-zero field of the opcode's format is not zero (R71) -/
  | illField
  deriving DecidableEq, Repr

/-- The opcode byte, bits [31:24] of the word (R60). -/
def opcodeOf (w : Word) : BitVec 8 := w.extractLsb' 24 8

/-- The register field `d` (or `e`), bits [23:20] (R62, R64). -/
def fieldD (w : Word) : EReg := (w.extractLsb' 20 4).toFin

/-- The register field `a`, bits [19:16] (R62). -/
def fieldA (w : Word) : EReg := (w.extractLsb' 16 4).toFin

/-- The register field `b`, bits [15:12] (R62). -/
def fieldB (w : Word) : EReg := (w.extractLsb' 12 4).toFin

/-- The immediate `imm16`, bits [15:0] (R63). -/
def fieldImm (w : Word) : BitVec 16 := w.extractLsb' 0 16

/-- The low byte: `i` (R64), `r` (R66) or `rend` (R67), bits [7:0]. -/
def fieldLow (w : Word) : BitVec 8 := w.extractLsb' 0 8

/-- The range start `rstart`, bits [15:8] (R67). -/
def fieldStart (w : Word) : BitVec 8 := w.extractLsb' 8 8

/-- The matrix select `msel`, bits [23:20] (R65). -/
def fieldMsel (w : Word) : BitVec 4 := w.extractLsb' 20 4

/-- The trace bit `TR`, bit 16 (R67). -/
def fieldTR (w : Word) : Bool := w.getLsbD 16

/-- A row of R68: "a word `w` is this command when `w & mask = match`". -/
structure OpcodeRow where
  mask : Word
  pattern : Word
  make : Word → Instr

/-- The row's opcode byte: the top byte of its pattern. -/
def opcodeRowByte (row : OpcodeRow) : BitVec 8 := opcodeOf row.pattern

/-- The field commands and the moves (R68, formats I, R, X). -/
def fieldRows : List OpcodeRow := [
  ⟨0xFF0F0000, 0x01000000, fun w => .fli (fieldD w) (fieldImm w)⟩,
  ⟨0xFF000FFF, 0x02000000, fun w => .fadd (fieldD w) (fieldA w) (fieldB w)⟩,
  ⟨0xFF000FFF, 0x03000000, fun w => .fmul (fieldD w) (fieldA w) (fieldB w)⟩,
  ⟨0xFF000FFF, 0x04000000, fun w => .fpow (fieldD w) (fieldA w) (fieldB w)⟩,
  ⟨0xFF00FFFF, 0x05000000, fun w => .finv (fieldD w) (fieldA w)⟩,
  ⟨0xFF0FFF00, 0x10000000, fun w => .mvex (fieldD w) (fieldLow w)⟩,
  ⟨0xFF0FFF00, 0x11000000, fun w => .mvxe (fieldD w) (fieldLow w)⟩]

/-- The engine's commands (R68, formats M, V, Z, G); bit 16 of format G selects the traced form. -/
def engineRows : List OpcodeRow := [
  ⟨0xFF0FFFFF, 0x20000000, fun w => .mix (fieldMsel w)⟩,
  ⟨0xFFFFFF00, 0x28000000, fun w => .arc (fieldLow w)⟩,
  ⟨0xFFFFFFFF, 0x30000000, fun _ => .sboxF⟩,
  ⟨0xFFFFFFFF, 0x31000000, fun _ => .sboxP⟩,
  ⟨0xFFFFFFFF, 0x32000000, fun _ => .sboxiF⟩,
  ⟨0xFFFFFFFF, 0x33000000, fun _ => .sboxiP⟩,
  ⟨0xFFFFFF00, 0x40000000, fun w => .rnd (fieldLow w)⟩,
  ⟨0xFFFFFF00, 0x41000000, fun w => .rndi (fieldLow w)⟩,
  ⟨0xFFFE0000, 0x48000000, fun w =>
    if fieldTR w then .evalT (fieldStart w) (fieldLow w) else .eval (fieldStart w) (fieldLow w)⟩,
  ⟨0xFFFE0000, 0x49000000, fun w =>
    if fieldTR w then .evaliT (fieldStart w) (fieldLow w) else .evali (fieldStart w) (fieldLow w)⟩]

/-- The system commands (R68, format Z). -/
def systemRows : List OpcodeRow := [
  ⟨0xFFFFFFFF, 0xF0000000, fun _ => .commit⟩,
  ⟨0xFFFFFFFF, 0xF1000000, fun _ => .clrf⟩,
  ⟨0xFFFFFFFF, 0xFF000000, fun _ => .srst⟩]

/-- The opcode map of R68: twenty commands on twenty opcode bytes. -/
def opcodeTable : List OpcodeRow := fieldRows ++ engineRows ++ systemRows

/-- The row of a word's opcode byte, if the table has one. -/
def rowOf (w : Word) : Option OpcodeRow :=
  opcodeTable.find? fun row => opcodeRowByte row == opcodeOf w

/-- The command a word carries: first the opcode, then the must-be-zero fields (R61, R193). -/
def decode (w : Word) : Except DecodeError Instr :=
  match rowOf w with
  | none => .error .illOpcode
  | some row => if w &&& row.mask = row.pattern then .ok (row.make w) else .error .illField

/-- A register field's four bits. -/
def regBits (r : EReg) : BitVec 4 := BitVec.ofFin r

/-- Format R (R62): opcode, d, a, b, twelve zero bits. -/
def formatR (op : BitVec 8) (d a b : EReg) : Word := op ++ regBits d ++ regBits a ++ regBits b ++ 0#12

/-- Format I (R63): opcode, d, four zero bits, imm16. -/
def formatI (op : BitVec 8) (d : EReg) (imm : BitVec 16) : Word := op ++ regBits d ++ 0#4 ++ imm

/-- Format X (R64): opcode, e, twelve zero bits, i. -/
def formatX (op : BitVec 8) (e : EReg) (i : BitVec 8) : Word := op ++ regBits e ++ 0#12 ++ i

/-- Format M (R65): opcode, msel, twenty zero bits. -/
def formatM (op : BitVec 8) (msel : BitVec 4) : Word := op ++ msel ++ 0#20

/-- Format V (R66): opcode, sixteen zero bits, r. -/
def formatV (op : BitVec 8) (r : BitVec 8) : Word := op ++ 0#16 ++ r

/-- Format Z (R66): opcode, twenty-four zero bits. -/
def formatZ (op : BitVec 8) : Word := op ++ 0#24

/-- Format G (R67): opcode, seven zero bits, TR, rstart, rend. -/
def formatG (op : BitVec 8) (tr : BitVec 1) (rs re : BitVec 8) : Word := op ++ 0#7 ++ tr ++ rs ++ re

/-- The command word of a command (R62 to R68, R72). -/
def encode : Instr → Word
  | .fli d imm => formatI 0x01 d imm
  | .fadd d a b => formatR 0x02 d a b
  | .fmul d a b => formatR 0x03 d a b
  | .fpow d a b => formatR 0x04 d a b
  | .finv d a => formatR 0x05 d a 0
  | .mvex e i => formatX 0x10 e i
  | .mvxe e i => formatX 0x11 e i
  | .mix msel => formatM 0x20 msel
  | .arc r => formatV 0x28 r
  | .sboxF => formatZ 0x30
  | .sboxP => formatZ 0x31
  | .sboxiF => formatZ 0x32
  | .sboxiP => formatZ 0x33
  | .rnd r => formatV 0x40 r
  | .rndi r => formatV 0x41 r
  | .eval rs re => formatG 0x48 0 rs re
  | .evalT rs re => formatG 0x48 1 rs re
  | .evali rs re => formatG 0x49 0 rs re
  | .evaliT rs re => formatG 0x49 1 rs re
  | .commit => formatZ 0xF0
  | .clrf => formatZ 0xF1
  | .srst => formatZ 0xFF

/-- The command word whose bits are `w`, numbered as spec/opcode_table.json numbers them: one 32-bit word, the bits above
`nbits` zero. -/
def tableWord (nbits w : Nat) : Word := BitVec.ofNat 32 (w % 2 ^ nbits)

/-- The command the decoder reads from the word whose bits are `w`. -/
def decodeTableWord (nbits w : Nat) : Option Instr := (decode (tableWord nbits w)).toOption

end Sys2Proof
end

