-- ==== Sys2Proof/Config.lean ====
section
/-! DEFINITION. The build-time parameters of a P2B-CORE (00_scope.md R6) and what is derived from them. The spec leaves no
value free ("none is `any value`", 93_implementation_defined.md), so there is no opaque constant here. -/

namespace Sys2Proof

/-- The four build parameters with the ranges of R6. They are no state: no command or host access changes them.
Irreducibility of the polynomial is not part of a build (R8): see `PolyIrreducible` in Safety.lean. -/
structure Build where
  /-- `N`, the field degree -/
  n : Nat
  /-- `T`, the number of words of the state vector -/
  t : Nat
  /-- `RMAX`, the capacity of the round-constant memory in rounds -/
  rmax : Nat
  /-- `POLY`: f(X) = X^N + Σ poly[i]·X^i -/
  poly : BitVec n
  three_le_n : 3 ≤ n
  n_le : n ≤ 256
  two_le_t : 2 ≤ t
  t_le : t ≤ 32
  one_le_rmax : 1 ≤ rmax
  rmax_le : rmax ≤ 255
  deriving DecidableEq, Repr

namespace Build

/-- A field element: an N-bit value, bit i the coefficient of X^i (R12; PRESUMED by the spec itself, log entry 14). -/
abbrev Elem (b : Build) := BitVec b.n

/-- A vector of T elements, index 0 first (R15). -/
abbrev Vec (b : Build) := Vector b.Elem b.t

/-- A T×T matrix, row by row: `M[i][j]` is row i, column j (R13, R32). -/
abbrev Mat (b : Build) := Vector b.Vec b.t

/-- `EW = ceil(N/32)`: 32-bit words per element (R6). -/
def ew (b : Build) : Nat := (b.n + 31) / 32

/-- `ES = 4·EW`: the stride of an element in the window, in bytes (R44). -/
def es (b : Build) : Nat := 4 * b.ew

/-- `ORD1 = 2^N − 1`: the order of the multiplicative group (R6). -/
def ord1 (b : Build) : Nat := 2 ^ b.n - 1

/-- The build of the spec's toy instance A (95_test_vectors.md section 3): N = 4, T = 3, POLY = 0x3, RMAX = 8.
DESIGN CHOICE (log entry 1): `State.reset` is the reset state of this build, statements quantify over every build. -/
def toyA : Build where
  n := 4
  t := 3
  rmax := 8
  poly := 0x3#4
  three_le_n := by decide
  n_le := by decide
  two_le_t := by decide
  t_le := by decide
  one_le_rmax := by decide
  rmax_le := by decide

end Build

end Sys2Proof
end

