-- ==== Sys2Proof/Machine/Field.lean ====
section
/-! DEFINITION. Field arithmetic on N-bit values (40_field_arithmetic.md section 1, R80 to R85), total for every `POLY` (R8),
and the integer arithmetic of `COMMIT` on exponents (R98). -/

namespace Sys2Proof.Machine

/-- `add(a, b) = a ⊕ b` (R80). -/
def gfAdd (b : Build) (x y : b.Elem) : b.Elem := x ^^^ y

/-- The part of the carry-less product contributed by bits 0 to k−1 of the second operand (R81). -/
def clmulUpTo {n : Nat} (x y : BitVec n) : Nat → BitVec (2 * n - 1)
  | 0 => 0
  | k + 1 => clmulUpTo x y k ^^^ (if y.getLsbD k then x.setWidth (2 * n - 1) <<< k else 0)

/-- `clmul(a, b)`: the (2N−1)-bit carry-less product (R81). -/
def clmul {n : Nat} (x y : BitVec n) : BitVec (2 * n - 1) := clmulUpTo x y n

/-- `F = {1, POLY}`, the (N+1)-bit value of f(X), in the width of a product (R82). -/
def modulus (b : Build) : BitVec (2 * b.n - 1) := (1#1 ++ b.poly).setWidth (2 * b.n - 1)

/-- The steps of `reduce` for bits N+k−1 down to N (R82): a set bit i is cleared by adding F shifted left by i − N. -/
def reduceFrom (b : Build) : Nat → BitVec (2 * b.n - 1) → BitVec (2 * b.n - 1)
  | 0, c => c
  | k + 1, c => reduceFrom b k (if c.getLsbD (b.n + k) then c ^^^ (modulus b <<< k) else c)

/-- `reduce(c)`: bits 2N−2 down to N, then the low N bits (R82). -/
def reduce (b : Build) (c : BitVec (2 * b.n - 1)) : b.Elem := (reduceFrom b (b.n - 1) c).setWidth b.n

/-- `mul(a, b) = reduce(clmul(a, b))` (R83). -/
def gfMul (b : Build) (x y : b.Elem) : b.Elem := reduce b (clmul x y)

/-- The element 1 (R95). -/
def gfOne (b : Build) : b.Elem := 1#b.n

/-- The square-and-multiply steps of `pow` for the exponent's bits k−1 down to 0 (R84). -/
def powFrom (b : Build) (x k : b.Elem) : Nat → b.Elem → b.Elem
  | 0, r => r
  | i + 1, r =>
    powFrom b x k i (if k.getLsbD i then gfMul b (gfMul b r r) x else gfMul b r r)

/-- `pow(a, k)`, the exponent an N-bit unsigned value, `pow(a, 0) = 1` for every a (R84). -/
def gfPow (b : Build) (x k : b.Elem) : b.Elem := powFrom b x k b.n (gfOne b)

/-- `inv(a) = pow(a, 2^N − 2)`; whoever calls it has checked `a ≠ 0` (R85). -/
def gfInv (b : Build) (x : b.Elem) : b.Elem := gfPow b x (BitVec.ofNat b.n (2 ^ b.n - 2))

/-- `f(0) ⊕ f(1) ⊕ … ⊕ f(k−1)`. -/
def xorSum {n k : Nat} (f : Fin k → BitVec n) : BitVec n := Fin.foldr k (fun i acc => f i ^^^ acc) 0

/-- Euclid's remainders `r0`, `r1` with coefficients `s0`, `s1` such that `a·s ≡ r` modulo `m`; the coefficient of the last
non-zero remainder. The first argument bounds the number of divisions. -/
def modInvLoop (m : Nat) : Nat → Nat → Nat → Nat → Nat → Nat
  | 0, _, _, s0, _ => s0
  | fuel + 1, r0, r1, s0, s1 =>
    if r1 = 0 then s0
    else modInvLoop m fuel r1 (r0 % r1) s1 ((s0 + (m - r0 / r1 * s1 % m)) % m)

/-- The k in [1, m−1] with `a·k mod m = 1`, for `a` coprime to `m` (44_system_and_moves.md R145; DEDUCED, log entry 16). -/
def modInv (a m : Nat) : Nat := modInvLoop m (m + 1) a m 1 0

end Sys2Proof.Machine
end

