-- ==== Sys2Proof/Machine/State.lean ====
section
/-! DEFINITION. The machine's state: the unit's registers and memories (10_state.md R20 to R34), the build they belong to, the
host's transactions not yet performed, and the model's record of the run. Plain data throughout; the spec's memories are arrays
of N-bit elements (DESIGN CHOICE, log entry 13). -/

namespace Sys2Proof.Machine

/-- `PHASE` (R24): 0 is `CONFIG`, 1 is `READY`. -/
inductive Phase where
  | config
  | ready
  deriving DecidableEq, Repr

/-- `CAUSE` (R25): the codes of 60_exceptions.md R186, "All other 8-bit values are never written" (DESIGN CHOICE, log entry 11). -/
inductive Cause where
  | none
  | cfgRounds
  | cfgAlpha
  | cfgMinit
  | cfgMf
  | cfgMp
  | domInvZero
  | inpRange
  | inpIndex
  | illOpcode
  | illField
  | phaseNotReady
  | phaseLocked
  deriving DecidableEq, Repr

/-- What the host may do to the unit, one at a time (R16, R40, R205). -/
inductive HostAction where
  /-- `HostRead(off)` (R41) -/
  | read (i : WordIndex)
  /-- `HostWrite(off, w)` (R42); at `CMD` it is `Command(w)` (R14, R60) -/
  | write (i : WordIndex) (w : Word)
  /-- the reset input, between two transactions (R205; DEDUCED, log entry 9) -/
  | reset
  deriving DecidableEq, Repr

/-- The architectural state of P2B-CORE: "exactly the items of rules R22 to R34" (R20). -/
@[ext]
structure UnitState (b : Build) where
  /-- `E[0..15]` (R22) -/
  e : Vector b.Elem 16
  /-- `X[0..T−1]` (R23) -/
  x : b.Vec
  /-- `PHASE` (R24) -/
  phase : Phase
  /-- `FAULT` (R25) -/
  fault : Bool
  /-- `CAUSE` (R25) -/
  cause : Cause
  /-- `ERRINFO` (R25) -/
  errinfo : Word
  /-- `RF` (R26) -/
  rf : BitVec 8
  /-- `RFB` (R26) -/
  rfb : BitVec 8
  /-- `RP` (R26) -/
  rp : BitVec 8
  /-- `OPT` (R27) -/
  opt : Bool
  /-- `ALPHA` (R28) -/
  alpha : b.Elem
  /-- `ALPHA_INV` (R29) -/
  alphaInv : b.Elem
  /-- `M[0..5]`: MINIT, MINIT_INV, MF, MF_INV, MP, MP_INV (R32) -/
  m : Vector b.Mat 6
  /-- `RC[0..RMAX−1]` (R33) -/
  rc : Vector b.Vec b.rmax
  /-- `TRACE[0..RMAX+1]` (R34) -/
  trace : Vector b.Vec (b.rmax + 2)
  /-- `TRACE_LEN` (R34) -/
  traceLen : BitVec 9
  deriving DecidableEq, Repr

/-- The all-zero vector of T elements. -/
def zeroVec (b : Build) : b.Vec := Vector.replicate b.t 0#b.n

/-- The all-zero T×T matrix. -/
def zeroMat (b : Build) : b.Mat := Vector.replicate b.t (zeroVec b)

/-- The unit right after reset, and after `SRST`: every item zero, `PHASE = CONFIG` (R36). -/
def UnitState.reset (b : Build) : UnitState b where
  e := Vector.replicate 16 0#b.n
  x := zeroVec b
  phase := .config
  fault := false
  cause := .none
  errinfo := 0
  rf := 0
  rfb := 0
  rp := 0
  opt := false
  alpha := 0#b.n
  alphaInv := 0#b.n
  m := Vector.replicate 6 (zeroMat b)
  rc := Vector.replicate b.rmax (zeroVec b)
  trace := Vector.replicate (b.rmax + 2) (zeroVec b)
  traceLen := 0

/-- A P2B-CORE and its host: the build (parameters, no state: R20), the unit, the host's transactions still to come, and what
the run has shown so far. -/
@[ext]
structure State where
  /-- `N`, `T`, `POLY`, `RMAX` (R6); no step changes them -/
  build : Build
  /-- the unit's architectural state (R20) -/
  unit : UnitState build
  /-- the host actions not yet performed, the next one first (R17; DESIGN CHOICE, log entry 2) -/
  pending : List HostAction
  /-- the words the reads so far have returned, the oldest first (R208; DEDUCED, log entry 3) -/
  replies : List Word
  /-- whether `FAULT` was 1 at any point of the run (R17; DEDUCED, log entry 3) -/
  wentWrong : Bool
  deriving DecidableEq, Repr

/-- The reset state of a given build (R36, R205): nothing pending, nothing answered, nothing gone wrong. -/
def State.resetOf (b : Build) : State where
  build := b
  unit := .reset b
  pending := []
  replies := []
  wentWrong := false

/-- The machine right after reset, for the spec's toy build (DESIGN CHOICE, log entry 1). -/
def State.reset : State := .resetOf .toyA

/-- Why the model stops. The spec's own faults are next states with `FAULT = 1` (R16), never this. -/
inductive Fault where
  /-- Raised by `ARC`, `RND`, `RNDI`, `EVAL`, `EVAL.T`, `EVALI` and `EVALI.T` when a round they would run, though below
  `R`, lies beyond the round-constant memory: a `READY` state with `RF + RP > RMAX`, which `COMMIT` excludes (R145) and
  no run reaches. The spec gives such a state no meaning; stopping is safe (DESIGN CHOICE, log entry 7). -/
  | roundBeyondCapacity
  deriving DecidableEq, Repr

/-- Why the model gives an instruction no meaning. -/
inductive Refusal where
  /-- Raised only by an arm of `exec` whose instruction has no meaning yet (none is left): safe. -/
  | notModelled (mnemonic : String)
  deriving DecidableEq, Repr

/-- The outcome of a step or of a meaning. -/
abbrev Outcome := Host.Outcome State Fault Refusal

/-- The outcome of what the unit alone does. -/
abbrev UnitOutcome (b : Build) := Host.Outcome (UnitState b) Fault Refusal

end Sys2Proof.Machine
end

