-- ==== Sys2Proof/Machine/Ops.lean ====
section
/-! DEFINITION. The named operations over the unit's registers and memories: register reads and writes, taking a fault and
returning from it (60_exceptions.md R190, R194), reset, and the admission of a command (30_encoding.md R61, R69). -/

namespace Sys2Proof.Machine

variable {b : Build}

/-- `E[r]` (R22). -/
def UnitState.readE (u : UnitState b) (r : EReg) : b.Elem := u.e[r]

/-- `E[r] <- v`: every element register is an ordinary register (R22). -/
def UnitState.writeE (u : UnitState b) (r : EReg) (v : b.Elem) : UnitState b :=
  { u with e := u.e.set r.val v r.isLt }

/-- `X <- v`, the whole state vector (R23). -/
def UnitState.setX (u : UnitState b) (v : b.Vec) : UnitState b := { u with x := v }

/-- `X[i] <- v`, one word (R23). -/
def UnitState.writeX (u : UnitState b) (i : Fin b.t) (v : b.Elem) : UnitState b :=
  u.setX (u.x.set i.val v i.isLt)

/-- `R = uint(RF) + uint(RP)`, an integer sum (R13, R26). -/
def UnitState.rounds (u : UnitState b) : Nat := u.rf.toNat + u.rp.toNat

/-- Taking a fault (R190): the three registers of the latch, and nothing else. -/
def UnitState.raise (u : UnitState b) (c : Cause) (info : Word) : UnitState b :=
  { u with fault := true, cause := c, errinfo := info }

/-- The return from a fault (R149, R194): the latch is cleared, and nothing else. -/
def UnitState.clearFault (u : UnitState b) : UnitState b :=
  { u with fault := false, cause := .none, errinfo := 0 }

/-- `TRACE[k] <- trace[k]` for k below the list's length, `TRACE_LEN <- length`; later entries are kept (R34, R130). -/
def UnitState.storeTrace (u : UnitState b) (tr : List b.Vec) : UnitState b :=
  { u with
    trace := Vector.ofFn fun k => (tr[k.val]?).getD u.trace[k]
    traceLen := BitVec.ofNat 9 tr.length }

/-- The three writes of a successful `COMMIT` (R145). -/
def UnitState.enterReady (u : UnitState b) (alphaInv : b.Elem) (rc : Vector b.Vec b.rmax) : UnitState b :=
  { u with alphaInv := alphaInv, rc := rc, phase := .ready }

/-- The constants of round r. Rows the memory does not have are never asked for: every caller is guarded by
`withinCapacity` (DESIGN CHOICE, log entry 7). -/
def UnitState.rcRow (u : UnitState b) (r : Nat) : b.Vec := if h : r < b.rmax then u.rc[r] else zeroVec b

/-- Which phase admits a command (the column of R68, R69). -/
inductive Admission where
  /-- both phases -/
  | any
  /-- `READY` only: "the commands that read the instance" -/
  | ready
  /-- `CONFIG` only: `COMMIT` -/
  | config
  deriving DecidableEq, Repr

/-- The phase fault of a command that is not admitted (R69). -/
def phaseFault : Admission → Phase → Option Cause
  | .any, _ => none
  | .ready, .ready => none
  | .ready, .config => some .phaseNotReady
  | .config, .config => none
  | .config, .ready => some .phaseLocked

/-- A failed check of a command: the fault is taken, with the command word as ERRINFO (R190, R191;
DEDUCED, log entry 4: the word is the command's own encoding). -/
def refuseWith (u : UnitState b) (c : Cause) (w : Word) : UnitOutcome b := .next (u.raise c w)

/-- The part of R61 that a decoded command goes through before its own rule: ignored while a fault is latched (R192), then
the phase check (R69), then the command's own effect. -/
def whenAdmitted (adm : Admission) (w : Word) (u : UnitState b) (body : UnitOutcome b) : UnitOutcome b :=
  if u.fault then .next u
  else
    match phaseFault adm u.phase with
    | some c => refuseWith u c w
    | none => body

/-- A round number the instance has also lies within the round-constant memory; where it does not, the state is one no run
reaches and the model stops (R26, R33, R145; DESIGN CHOICE, log entry 7). -/
def withinCapacity (roundsNeeded : Nat) (body : UnitOutcome b) : UnitOutcome b :=
  if roundsNeeded ≤ b.rmax then body else .fault .roundBeyondCapacity

/-- A meaning acts on the unit; the build and the host's side of the state stay as they are. -/
def onUnit (s : State) (f : UnitState s.build → UnitOutcome s.build) : Outcome :=
  match f s.unit with
  | .next u => .next { s with unit := u }
  | .fault r => .fault r
  | .refused r => .refused r

end Sys2Proof.Machine
end

