-- ==== Sys2Proof/Machine/Operands.lean ====
section
/-! DEFINITION. The operand forms of the commands (30_encoding.md R62 to R67): the immediate, the state index, the matrix
select, the round index and the round range, each with the check its rule makes at execution (R71). -/

namespace Sys2Proof.Machine

variable {b : Build}

/-- The immediate of format I (R63): `trunc_N(zext(imm16))`, never sign-extended. -/
def immediate (b : Build) (imm : BitVec 16) : b.Elem := imm.setWidth b.n

/-- The state index of format X (R64): `INP_INDEX` when `i ≥ T`. -/
def withStateIndex (i : BitVec 8) (w : Word) (u : UnitState b) (body : Fin b.t → UnitOutcome b) : UnitOutcome b :=
  if h : i.toNat < b.t then body ⟨i.toNat, h⟩ else refuseWith u .inpIndex w

/-- The matrix select of format M (R65): `ILL_FIELD` when `msel ≥ 6`. -/
def withMatrix (msel : BitVec 4) (w : Word) (u : UnitState b) (body : Fin 6 → UnitOutcome b) : UnitOutcome b :=
  if h : msel.toNat < 6 then body ⟨msel.toNat, h⟩ else refuseWith u .illField w

/-- The round index of format V (R66): `INP_RANGE` when `r ≥ R`. -/
def withRound (r : BitVec 8) (w : Word) (u : UnitState b) (body : Nat → UnitOutcome b) : UnitOutcome b :=
  if r.toNat < u.rounds then withinCapacity (r.toNat + 1) (body r.toNat) else refuseWith u .inpRange w

/-- The round range of format G (R67): `INP_RANGE` when `rs > re` or `re > R`. -/
def withRange (rs re : BitVec 8) (w : Word) (u : UnitState b) (body : Nat → Nat → UnitOutcome b) : UnitOutcome b :=
  if rs.toNat ≤ re.toNat ∧ re.toNat ≤ u.rounds then withinCapacity re.toNat (body rs.toNat re.toNat)
  else refuseWith u .inpRange w

end Sys2Proof.Machine
end

