-- ==== Sys2Proof/Machine/FieldUnit.lean ====
section
/-! DEFINITION. The field commands (40_field_arithmetic.md section 2): `FLI`, `FADD`, `FMUL`, `FPOW`, `FINV`. All are admitted in
both phases, read and write `E` only, and read their sources before the destination is written (70_reset_and_hazards.md R212). -/

namespace Sys2Proof.Machine

/-- `FLI ed, imm` (R88): `E[d] <- trunc_N(zext(imm16))`. -/
def execFli (d : EReg) (imm : BitVec 16) (s : State) : Outcome :=
  onUnit s fun u => whenAdmitted .any (encode (.fli d imm)) u
    (.next (u.writeE d (immediate s.build imm)))

/-- `FADD ed, ea, eb` (R89): `E[d] <- add(E[a], E[b])`. -/
def execFadd (d a b : EReg) (s : State) : Outcome :=
  onUnit s fun u => whenAdmitted .any (encode (.fadd d a b)) u
    (.next (u.writeE d (gfAdd s.build (u.readE a) (u.readE b))))

/-- `FMUL ed, ea, eb` (R90): `E[d] <- mul(E[a], E[b])`. -/
def execFmul (d a b : EReg) (s : State) : Outcome :=
  onUnit s fun u => whenAdmitted .any (encode (.fmul d a b)) u
    (.next (u.writeE d (gfMul s.build (u.readE a) (u.readE b))))

/-- `FPOW ed, ea, eb` (R91): `E[d] <- pow(E[a], uint(E[b]))`. -/
def execFpow (d a b : EReg) (s : State) : Outcome :=
  onUnit s fun u => whenAdmitted .any (encode (.fpow d a b)) u
    (.next (u.writeE d (gfPow s.build (u.readE a) (u.readE b))))

/-- `FINV ed, ea` (R92): `DOM_INV_ZERO` at the zero element, else `E[d] <- inv(E[a])`. -/
def execFinv (d a : EReg) (s : State) : Outcome :=
  onUnit s fun u => whenAdmitted .any (encode (.finv d a)) u
    (if u.readE a = 0 then refuseWith u .domInvZero (encode (.finv d a))
     else .next (u.writeE d (gfInv s.build (u.readE a))))

end Sys2Proof.Machine
end

