-- ==== Sys2Proof/Machine/Matrix.lean ====
section
/-! DEFINITION. The matrix-vector multiplier and `MIX` (41_matrix_vector.md), and the pair check of `COMMIT`
(44_system_and_moves.md R146). -/

namespace Sys2Proof.Machine

variable {b : Build}

/-- Row i of a product: `mul(row[0], x[0]) ⊕ … ⊕ mul(row[T−1], x[T−1])` (R100). -/
def dot (row x : b.Vec) : b.Elem := xorSum fun j : Fin b.t => gfMul b row[j] x[j]

/-- M·x, the vector taken as a column: row i of the matrix gives word i (R100). -/
def mulVec (mat : b.Mat) (x : b.Vec) : b.Vec := Vector.ofFn fun i => dot mat[i] x

/-- `matvec(m, x)`: the product of stored matrix m by x (R100). -/
def UnitState.matvec (u : UnitState b) (k : Fin 6) (x : b.Vec) : b.Vec := mulVec u.m[k] x

/-- Entry (i, j) of the product of two matrices (R146). -/
def mulEntry (p q : b.Mat) (i j : Fin b.t) : b.Elem := xorSum fun k : Fin b.t => gfMul b p[i][k] q[k][j]

/-- Entry (i, j) of the identity (R146). -/
def identityEntry (b : Build) (i j : Fin b.t) : b.Elem := if i = j then gfOne b else 0

/-- `isInversePair(p, q)`: the product of the two stored matrices is the identity (R146). -/
def UnitState.isInversePair (u : UnitState b) (p q : Fin 6) : Bool :=
  decide (∀ i j : Fin b.t, mulEntry u.m[p] u.m[q] i j = identityEntry b i j)

/-- `MIX m` (R102): `ILL_FIELD` when `msel ≥ 6`, else `X <- matvec(msel, X)`. -/
def execMix (msel : BitVec 4) (s : State) : Outcome :=
  onUnit s fun u => whenAdmitted .ready (encode (.mix msel)) u
    (withMatrix msel (encode (.mix msel)) u fun k => .next (u.setX (u.matvec k u.x)))

end Sys2Proof.Machine
end

