-- ==== Sys2Proof/Machine/Sbox.lean ====
section
/-! DEFINITION. The S-box unit (42_sbox.md): the power map on all words of the state vector or on word 0 only. -/

namespace Sys2Proof.Machine

variable {b : Build}

/-- `sbox(x, k, full)` (R110): every word to the k-th power, or word 0 only. -/
def sbox (x : b.Vec) (k : b.Elem) (full : Bool) : b.Vec :=
  Vector.ofFn fun i => if full || i.val == 0 then gfPow b x[i] k else x[i]

/-- `SBOX.F` (R111): `X <- sbox(X, uint(ALPHA), true)`. -/
def execSboxF (s : State) : Outcome :=
  onUnit s fun u => whenAdmitted .ready (encode .sboxF) u (.next (u.setX (sbox u.x u.alpha true)))

/-- `SBOX.P` (R112): `X <- sbox(X, uint(ALPHA), false)`. -/
def execSboxP (s : State) : Outcome :=
  onUnit s fun u => whenAdmitted .ready (encode .sboxP) u (.next (u.setX (sbox u.x u.alpha false)))

/-- `SBOXI.F` (R113): `X <- sbox(X, uint(ALPHA_INV), true)`. -/
def execSboxiF (s : State) : Outcome :=
  onUnit s fun u => whenAdmitted .ready (encode .sboxiF) u (.next (u.setX (sbox u.x u.alphaInv true)))

/-- `SBOXI.P` (R114): `X <- sbox(X, uint(ALPHA_INV), false)`. -/
def execSboxiP (s : State) : Outcome :=
  onUnit s fun u => whenAdmitted .ready (encode .sboxiP) u (.next (u.setX (sbox u.x u.alphaInv false)))

end Sys2Proof.Machine
end

