-- ==== Sys2Proof/Machine/Hades.lean ====
section
/-! DEFINITION. The HadesEngine (43_hades_engine.md): round typing, the round-constant adder, one round forward and inverse,
evaluation over a round range with the Minit step, and the diagnostic trace. -/

namespace Sys2Proof.Machine

variable {b : Build}

/-- `isFull(r)` (R120): `r < RFB` or `r ≥ RFB + RP`, an integer sum. -/
def UnitState.isFull (u : UnitState b) (r : Nat) : Bool :=
  decide (r < u.rfb.toNat) || decide (u.rfb.toNat + u.rp.toNat ≤ r)

/-- The sum of two vectors, word by word. -/
def addVec (x y : b.Vec) : b.Vec := Vector.ofFn fun i => gfAdd b x[i] y[i]

/-- `addrc(r, x)` (R121): `y[i] = x[i] ⊕ RC[r][i]`, in full and partial rounds alike. -/
def UnitState.addrc (u : UnitState b) (r : Nat) (x : b.Vec) : b.Vec := addVec x (u.rcRow r)

/-- `roundF(r, x)` (R124): constants, S-box, matrix; MF = `M[2]` in a full round, MP = `M[4]` in a partial one. -/
def UnitState.roundF (u : UnitState b) (r : Nat) (x : b.Vec) : b.Vec :=
  if u.isFull r then u.matvec 2 (sbox (u.addrc r x) u.alpha true)
  else u.matvec 4 (sbox (u.addrc r x) u.alpha false)

/-- `roundI(r, y)` (R126): inverse matrix, inverse S-box, constants; MF⁻¹ = `M[3]`, MP⁻¹ = `M[5]`. -/
def UnitState.roundI (u : UnitState b) (r : Nat) (y : b.Vec) : b.Vec :=
  if u.isFull r then u.addrc r (sbox (u.matvec 3 y) u.alphaInv true)
  else u.addrc r (sbox (u.matvec 5 y) u.alphaInv false)

/-- The states after each of the rounds r, r+1, …, r+k−1, forward from `x` (R128). -/
def UnitState.forwardRounds (u : UnitState b) : Nat → Nat → b.Vec → List b.Vec
  | _, 0, _ => []
  | r, k + 1, x => u.roundF r x :: u.forwardRounds (r + 1) k (u.roundF r x)

/-- The states after undoing each of the rounds rs+k−1, …, rs+1, rs, from `x` (R129). -/
def UnitState.inverseRounds (u : UnitState b) (rs : Nat) : Nat → b.Vec → List b.Vec
  | 0, _ => []
  | k + 1, x => u.roundI (rs + k) x :: u.inverseRounds rs k (u.roundI (rs + k) x)

/-- The last of a state and the states that follow it: the new `X` is "the last entry" of the trace (R130). -/
def lastState (x : b.Vec) (tail : List b.Vec) : b.Vec := tail.getLastD x

/-- The entries that follow the input in the trace of a forward evaluation (R128): after Minit when the range is non-empty and
starts at round 0, then after each round. -/
def UnitState.forwardTail (u : UnitState b) (rs re : Nat) (x : b.Vec) : List b.Vec :=
  if rs < re then
    if rs = 0 then u.matvec 0 x :: u.forwardRounds 0 re (u.matvec 0 x)
    else u.forwardRounds rs (re - rs) x
  else []

/-- The entries that follow the input in the trace of an inverse evaluation (R129): after undoing each round, then after Minit⁻¹
when the range is non-empty and starts at round 0. -/
def UnitState.inverseTail (u : UnitState b) (rs re : Nat) (x : b.Vec) : List b.Vec :=
  if rs < re then
    if rs = 0 then
      u.inverseRounds 0 re x ++ [u.matvec 1 (lastState x (u.inverseRounds 0 re x))]
    else u.inverseRounds rs (re - rs) x
  else []

/-- The state vector after `EVAL rs, re` from `x` (R128). -/
def UnitState.evalForward (u : UnitState b) (rs re : Nat) (x : b.Vec) : b.Vec :=
  lastState x (u.forwardTail rs re x)

/-- The state vector after `EVALI rs, re` from `x` (R129). -/
def UnitState.evalInverse (u : UnitState b) (rs re : Nat) (x : b.Vec) : b.Vec :=
  lastState x (u.inverseTail rs re x)

/-- `ARC r` (R122): `INP_RANGE` when `r ≥ R`, else `X <- addrc(r, X)`. -/
def execArc (r : BitVec 8) (s : State) : Outcome :=
  onUnit s fun u => whenAdmitted .ready (encode (.arc r)) u
    (withRound r (encode (.arc r)) u fun k => .next (u.setX (u.addrc k u.x)))

/-- `RND r` (R125): `INP_RANGE` when `r ≥ R`, else `X <- roundF(r, X)`. -/
def execRnd (r : BitVec 8) (s : State) : Outcome :=
  onUnit s fun u => whenAdmitted .ready (encode (.rnd r)) u
    (withRound r (encode (.rnd r)) u fun k => .next (u.setX (u.roundF k u.x)))

/-- `RNDI r` (R127): `INP_RANGE` when `r ≥ R`, else `X <- roundI(r, X)`. -/
def execRndi (r : BitVec 8) (s : State) : Outcome :=
  onUnit s fun u => whenAdmitted .ready (encode (.rndi r)) u
    (withRound r (encode (.rndi r)) u fun k => .next (u.setX (u.roundI k u.x)))

/-- `EVAL rs, re` (R128), untraced: `TRACE` and `TRACE_LEN` are left unchanged (R130). -/
def execEval (rs re : BitVec 8) (s : State) : Outcome :=
  onUnit s fun u => whenAdmitted .ready (encode (.eval rs re)) u
    (withRange rs re (encode (.eval rs re)) u fun p q => .next (u.setX (u.evalForward p q u.x)))

/-- `EVAL.T rs, re` (R128) with the trace of R130: the input, then the states that follow it. -/
def execEvalT (rs re : BitVec 8) (s : State) : Outcome :=
  onUnit s fun u => whenAdmitted .ready (encode (.evalT rs re)) u
    (withRange rs re (encode (.evalT rs re)) u fun p q =>
      .next ((u.setX (u.evalForward p q u.x)).storeTrace (u.x :: u.forwardTail p q u.x)))

/-- `EVALI rs, re` (R129), untraced. -/
def execEvali (rs re : BitVec 8) (s : State) : Outcome :=
  onUnit s fun u => whenAdmitted .ready (encode (.evali rs re)) u
    (withRange rs re (encode (.evali rs re)) u fun p q => .next (u.setX (u.evalInverse p q u.x)))

/-- `EVALI.T rs, re` (R129) with the trace of R130. -/
def execEvaliT (rs re : BitVec 8) (s : State) : Outcome :=
  onUnit s fun u => whenAdmitted .ready (encode (.evaliT rs re)) u
    (withRange rs re (encode (.evaliT rs re)) u fun p q =>
      .next ((u.setX (u.evalInverse p q u.x)).storeTrace (u.x :: u.inverseTail p q u.x)))

end Sys2Proof.Machine
end

