-- ==== Sys2Proof/Machine/System.lean ====
section
/-! DEFINITION. The moves and the system commands (44_system_and_moves.md): `MVEX`, `MVXE`, `COMMIT`, `CLRF`, `SRST`. -/

namespace Sys2Proof.Machine

variable {b : Build}

/-- `MVEX ed, i` (R141): `INP_INDEX` when `i ≥ T`, else `E[e] <- X[i]`. -/
def execMvex (e : EReg) (i : BitVec 8) (s : State) : Outcome :=
  onUnit s fun u => whenAdmitted .any (encode (.mvex e i)) u
    (withStateIndex i (encode (.mvex e i)) u fun k => .next (u.writeE e u.x[k]))

/-- `MVXE i, ea` (R142): `INP_INDEX` when `i ≥ T`, else `X[i] <- E[e]`. -/
def execMvxe (e : EReg) (i : BitVec 8) (s : State) : Outcome :=
  onUnit s fun u => whenAdmitted .any (encode (.mvxe e i)) u
    (withStateIndex i (encode (.mvxe e i)) u fun k => .next (u.writeX k (u.readE e)))

/-- The first check of `COMMIT` that fails, in the order R145 writes them (R193). -/
def UnitState.commitFault (u : UnitState b) : Option Cause :=
  if u.rf.toNat < u.rfb.toNat ∨ b.rmax < u.rounds then some .cfgRounds
  else if Nat.gcd u.alpha.toNat b.ord1 ≠ 1 then some .cfgAlpha
  else if u.isInversePair 0 1 = false then some .cfgMinit
  else if u.isInversePair 2 3 = false then some .cfgMf
  else if u.isInversePair 4 5 = false then some .cfgMp
  else none

/-- A position that the optimisation step zeroes: a partial round's, other than position 0 (R147). -/
def UnitState.isOptimizedAway (u : UnitState b) (r i : Nat) : Bool :=
  decide (u.rfb.toNat ≤ r) && decide (r < u.rfb.toNat + u.rp.toNat) && decide (1 ≤ i)

/-- `RC` with the optimisation step done: zero at positions 1 to T−1 of the partial rounds (R147). -/
def UnitState.optimizedRc (u : UnitState b) : Vector b.Vec b.rmax :=
  Vector.ofFn fun r => Vector.ofFn fun i => if u.isOptimizedAway r.val i.val then 0 else u.rc[r][i]

/-- `ALPHA_INV` of a committed instance: the k in [1, 2^N − 2] with `ALPHA·k mod (2^N − 1) = 1` (R145). -/
def UnitState.computedAlphaInv (u : UnitState b) : b.Elem :=
  BitVec.ofNat b.n (modInv u.alpha.toNat b.ord1)

/-- `COMMIT` (R145): the five checks, then `ALPHA_INV`, the optimisation step when `OPT = 1`, and `PHASE <- READY`. -/
def execCommit (s : State) : Outcome :=
  onUnit s fun u => whenAdmitted .config (encode .commit) u
    (match u.commitFault with
     | some c => refuseWith u c (encode .commit)
     | none => .next (u.enterReady u.computedAlphaInv (if u.opt then u.optimizedRc else u.rc)))

/-- `CLRF` (R149): the fault latch is cleared, whatever the phase and whatever `FAULT` is. -/
def execClrf (s : State) : Outcome := onUnit s fun u => .next u.clearFault

/-- `SRST` (R150): every item of state takes its reset value, whatever the phase and whatever `FAULT` is. -/
def execSrst (s : State) : Outcome := onUnit s fun _ => .next (.reset s.build)

end Sys2Proof.Machine
end

