-- ==== Sys2Proof/Machine/Dispatch.lean ====
section
/-! DEFINITION. One arm per command: each calls its own meaning. -/

namespace Sys2Proof.Machine

def exec (i : Instr) (s : State) : Host.Outcome State Fault Refusal :=
  match i with
  | .fli d imm => Sys2Proof.Machine.execFli d imm s
  | .fadd d a b => Sys2Proof.Machine.execFadd d a b s
  | .fmul d a b => Sys2Proof.Machine.execFmul d a b s
  | .fpow d a b => Sys2Proof.Machine.execFpow d a b s
  | .finv d a => Sys2Proof.Machine.execFinv d a s
  | .mvex e k => Sys2Proof.Machine.execMvex e k s
  | .mvxe e k => Sys2Proof.Machine.execMvxe e k s
  | .mix msel => Sys2Proof.Machine.execMix msel s
  | .arc r => Sys2Proof.Machine.execArc r s
  | .sboxF => Sys2Proof.Machine.execSboxF s
  | .sboxP => Sys2Proof.Machine.execSboxP s
  | .sboxiF => Sys2Proof.Machine.execSboxiF s
  | .sboxiP => Sys2Proof.Machine.execSboxiP s
  | .rnd r => Sys2Proof.Machine.execRnd r s
  | .rndi r => Sys2Proof.Machine.execRndi r s
  | .eval rs re => Sys2Proof.Machine.execEval rs re s
  | .evalT rs re => Sys2Proof.Machine.execEvalT rs re s
  | .evali rs re => Sys2Proof.Machine.execEvali rs re s
  | .evaliT rs re => Sys2Proof.Machine.execEvaliT rs re s
  | .commit => Sys2Proof.Machine.execCommit s
  | .clrf => Sys2Proof.Machine.execClrf s
  | .srst => Sys2Proof.Machine.execSrst s

end Sys2Proof.Machine
end

