-- ==== Sys2Proof/Machine/Flags.lean ====
section
/-! DEFINITION. The status the unit shows and the flags it keeps: the cause codes (60_exceptions.md R186), the words of
10_state.md R31, and the run's history flag (00_scope.md R17). No arithmetic command writes any flag (R25). -/

namespace Sys2Proof.Machine

/-- The 8-bit code of a cause, the class in the high nibble (R186). -/
def causeCode : Cause → BitVec 8
  | .none => 0x00
  | .cfgRounds => 0x10
  | .cfgAlpha => 0x11
  | .cfgMinit => 0x12
  | .cfgMf => 0x13
  | .cfgMp => 0x14
  | .domInvZero => 0x20
  | .inpRange => 0x30
  | .inpIndex => 0x31
  | .illOpcode => 0x40
  | .illField => 0x41
  | .phaseNotReady => 0x50
  | .phaseLocked => 0x51

/-- `PHASE` as the bit of `STATUS` (R24). -/
def phaseBit : Phase → BitVec 1
  | .config => 0
  | .ready => 1

variable {b : Build}

/-- `ID0`: N in 15:0, T in 23:16, VERSION = 1 in 31:24 (R31). -/
def id0Word (b : Build) : Word := 1#8 ++ BitVec.ofNat 8 b.t ++ BitVec.ofNat 16 b.n

/-- `ID1`: RMAX in 7:0, EW in 15:8 (R31). -/
def id1Word (b : Build) : Word := 0#16 ++ BitVec.ofNat 8 b.ew ++ BitVec.ofNat 8 b.rmax

/-- `STATUS`: PHASE in bit 0, FAULT in bit 1 (R31). -/
def statusWord (u : UnitState b) : Word := 0#30 ++ BitVec.ofBool u.fault ++ phaseBit u.phase

/-- `ERR`: CAUSE in 7:0 (R31). -/
def errWord (u : UnitState b) : Word := 0#24 ++ causeCode u.cause

/-- `CFG_ROUNDS`: RF in 7:0, RFB in 15:8, RP in 23:16 (R31). -/
def cfgRoundsWord (u : UnitState b) : Word := 0#8 ++ u.rp ++ u.rfb ++ u.rf

/-- `CFG_CTRL`: OPT in bit 0 (R31). -/
def cfgCtrlWord (u : UnitState b) : Word := 0#31 ++ BitVec.ofBool u.opt

/-- `TRACE_LEN` in 8:0 (R31). -/
def traceLenWord (u : UnitState b) : Word := 0#23 ++ u.traceLen

/-- The history flag of R17: the run went wrong when `FAULT = 1` before or after the action, or earlier. -/
def noteFault (before : State) : Outcome → Outcome
  | .next after => .next { after with wentWrong := before.wentWrong || before.unit.fault || after.unit.fault }
  | .fault r => .fault r
  | .refused r => .refused r

end Sys2Proof.Machine
end

