-- ==== Sys2Proof/Machine/Window.lean ====
section
/-! DEFINITION. The host's window on the unit (20_memory.md): the map of R44, the element layout of R43 and R45, the field
words of R31 and R46, the lock of R47, and what unmapped and read-only words do (R48). -/

namespace Sys2Proof.Machine

/-- An element that the window maps (R44). -/
inductive ElemLoc (b : Build) where
  | e (q : Fin 16)
  | alpha
  | alphaInv
  | polyr
  | x (q : Fin b.t)
  | m (k : Fin 6) (i j : Fin b.t)
  | rc (r : Fin b.rmax) (i : Fin b.t)
  | trace (k : Fin (b.rmax + 2)) (i : Fin b.t)
  deriving DecidableEq, Repr

/-- What stands at a word of the window (R44): a register word, word k of an element, or nothing. -/
inductive Loc (b : Build) where
  | id0
  | id1
  | status
  | err
  | errinfo
  | cmd
  | cfgRounds
  | cfgCtrl
  | traceLen
  | elem (l : ElemLoc b) (k : Nat)
  | unmapped
  deriving DecidableEq, Repr

/-- The host's right to write a word (R47, R48). -/
inductive Access where
  /-- `E` and `X`: in both phases and whatever `FAULT` is -/
  | free
  /-- configuration state: in `CONFIG` only -/
  | config
  /-- read-only and unmapped words: writes are ignored -/
  | ignored
  deriving DecidableEq, Repr

/-- The byte offset of a word of the window (R40). -/
def offsetOf (i : WordIndex) : BitVec 20 := i ++ 0#2

/-- The word at a byte offset. -/
def wordAt (off : BitVec 20) : WordIndex := off.extractLsb' 2 18

/-- `CMD`, offset 0x014 (R44, R60). -/
def cmdIndex : WordIndex := wordAt 0x014

/-- The register words, offsets 0x000 to 0x020 (R44). -/
def registerLoc (b : Build) (off : Nat) : Loc b :=
  match off with
  | 0x000 => .id0
  | 0x004 => .id1
  | 0x008 => .status
  | 0x00C => .err
  | 0x010 => .errinfo
  | 0x014 => .cmd
  | 0x018 => .cfgRounds
  | 0x01C => .cfgCtrl
  | 0x020 => .traceLen
  | _ => .unmapped

/-- Word `rel / 4` of a region: element index `rel / ES`, word `rel mod ES / 4`; nothing where the region has no such element
(R44, R48). -/
def regionLoc (b : Build) (rel : Nat) (elemAt : Nat → Option (ElemLoc b)) : Loc b :=
  match elemAt (rel / b.es) with
  | some l => .elem l (rel % b.es / 4)
  | none => .unmapped

/-- The elements of the region `E` (R44). -/
def eElem (b : Build) (q : Nat) : Option (ElemLoc b) := if h : q < 16 then some (.e ⟨q, h⟩) else none

/-- The elements of the region `PARAM` (R44). -/
def paramElem (b : Build) (q : Nat) : Option (ElemLoc b) :=
  match q with
  | 0 => some .alpha
  | 1 => some .alphaInv
  | 2 => some .polyr
  | _ => none

/-- The elements of the region `X` (R44). -/
def xElem (b : Build) (q : Nat) : Option (ElemLoc b) := if h : q < b.t then some (.x ⟨q, h⟩) else none

/-- The elements of matrix region k: `M[k][i][j]` at q = i·T + j (R44). -/
def matElem (b : Build) (k : Nat) (q : Nat) : Option (ElemLoc b) :=
  if h : k < 6 ∧ q / b.t < b.t ∧ q % b.t < b.t then
    some (.m ⟨k, h.1⟩ ⟨q / b.t, h.2.1⟩ ⟨q % b.t, h.2.2⟩)
  else none

/-- The elements of the region `RC`: `RC[r][i]` at q = r·T + i (R44). -/
def rcElem (b : Build) (q : Nat) : Option (ElemLoc b) :=
  if h : q / b.t < b.rmax ∧ q % b.t < b.t then some (.rc ⟨q / b.t, h.1⟩ ⟨q % b.t, h.2⟩) else none

/-- The elements of the region `TRACE`: `TRACE[k][i]` at q = k·T + i (R44). -/
def traceElem (b : Build) (q : Nat) : Option (ElemLoc b) :=
  if h : q / b.t < b.rmax + 2 ∧ q % b.t < b.t then some (.trace ⟨q / b.t, h.1⟩ ⟨q % b.t, h.2⟩) else none

/-- The window map of R44, by byte offset. -/
def locateOffset (b : Build) (off : Nat) : Loc b :=
  if off < 0x100 then registerLoc b off
  else if off < 0x300 then regionLoc b (off - 0x100) (eElem b)
  else if off < 0x400 then regionLoc b (off - 0x300) (paramElem b)
  else if off < 0x10000 then regionLoc b (off - 0x400) (xElem b)
  else if off < 0x40000 then regionLoc b ((off - 0x10000) % 0x8000) (matElem b ((off - 0x10000) / 0x8000))
  else if off < 0x80000 then regionLoc b (off - 0x40000) (rcElem b)
  else regionLoc b (off - 0x80000) (traceElem b)

/-- What stands at a word of the window. -/
def locate (b : Build) (i : WordIndex) : Loc b := locateOffset b (offsetOf i).toNat

/-- The base of an element's region and its index there (R44). -/
def elemPlace (b : Build) : ElemLoc b → Nat × Nat
  | .e q => (0x100, q.val)
  | .alpha => (0x300, 0)
  | .alphaInv => (0x300, 1)
  | .polyr => (0x300, 2)
  | .x q => (0x400, q.val)
  | .m k i j => (0x10000 + 0x8000 * k.val, i.val * b.t + j.val)
  | .rc r i => (0x40000, r.val * b.t + i.val)
  | .trace k i => (0x80000, k.val * b.t + i.val)

/-- The byte offset of word k of an element: `B + ES·q + 4·k` (R44). -/
def elemOffset (b : Build) (l : ElemLoc b) (k : Nat) : Nat :=
  (elemPlace b l).1 + b.es * (elemPlace b l).2 + 4 * k

/-- Word k of an element: its bits from 32k up, zero-extended (R45). -/
def elemWord {n : Nat} (v : BitVec n) (k : Nat) : Word := v.extractLsb' (32 * k) 32

/-- The element with word k replaced by `w`; bits of `w` above the element's top bit are dropped (R45). -/
def withElemWord {n : Nat} (v : BitVec n) (k : Nat) (w : Word) : BitVec n :=
  (v &&& ~~~((BitVec.allOnes 32).setWidth n <<< (32 * k))) ||| (w.setWidth n <<< (32 * k))

/-- The element at a mapped place; `POLYR` reads the parameter (R30). -/
def UnitState.elemAt {b : Build} (u : UnitState b) : ElemLoc b → b.Elem
  | .e q => u.e[q]
  | .alpha => u.alpha
  | .alphaInv => u.alphaInv
  | .polyr => b.poly
  | .x q => u.x[q]
  | .m k i j => u.m[k][i][j]
  | .rc r i => u.rc[r][i]
  | .trace k i => u.trace[k][i]

/-- A T×T matrix with one entry replaced. -/
def setEntry {b : Build} (mat : b.Mat) (i j : Fin b.t) (v : b.Elem) : b.Mat :=
  mat.set i.val (mat[i].set j.val v j.isLt) i.isLt

/-- The unit with the element at a writable place replaced; a read-only place keeps its value (R48). -/
def UnitState.setElem {b : Build} (u : UnitState b) (l : ElemLoc b) (v : b.Elem) : UnitState b :=
  match l with
  | .e q => { u with e := u.e.set q.val v q.isLt }
  | .alpha => { u with alpha := v }
  | .alphaInv => u
  | .polyr => u
  | .x q => { u with x := u.x.set q.val v q.isLt }
  | .m k i j => { u with m := u.m.set k.val (setEntry u.m[k] i j v) k.isLt }
  | .rc r i => { u with rc := u.rc.set r.val (u.rc[r].set i.val v i.isLt) r.isLt }
  | .trace _ _ => u

/-- The access class of an element (R47, R48, R197). -/
def elemAccess {b : Build} : ElemLoc b → Access
  | .e _ => .free
  | .x _ => .free
  | .alpha => .config
  | .m _ _ _ => .config
  | .rc _ _ => .config
  | .alphaInv => .ignored
  | .polyr => .ignored
  | .trace _ _ => .ignored

/-- The access class of a word of the window (R47, R48, R197). -/
def locAccess {b : Build} : Loc b → Access
  | .cfgRounds => .config
  | .cfgCtrl => .config
  | .elem l _ => elemAccess l
  | .id0 => .ignored
  | .id1 => .ignored
  | .status => .ignored
  | .err => .ignored
  | .errinfo => .ignored
  | .cmd => .ignored
  | .traceLen => .ignored
  | .unmapped => .ignored

/-- `HostRead` (R41): the word at a place of the window; `CMD` and unmapped words read 0 (R31, R48). -/
def readLoc {b : Build} (u : UnitState b) : Loc b → Word
  | .id0 => id0Word b
  | .id1 => id1Word b
  | .status => statusWord u
  | .err => errWord u
  | .errinfo => u.errinfo
  | .cmd => 0
  | .cfgRounds => cfgRoundsWord u
  | .cfgCtrl => cfgCtrlWord u
  | .traceLen => traceLenWord u
  | .elem l k => elemWord (u.elemAt l) k
  | .unmapped => 0

/-- The word a read of the window returns; a read has no side effect (R41). -/
def hostRead {b : Build} (u : UnitState b) (i : WordIndex) : Word := readLoc u (locate b i)

/-- The store of a word where the write takes effect (R45, R46). -/
def storeLoc {b : Build} (u : UnitState b) (l : Loc b) (w : Word) : UnitState b :=
  match l with
  | .cfgRounds =>
    { u with rf := w.extractLsb' 0 8, rfb := w.extractLsb' 8 8, rp := w.extractLsb' 16 8 }
  | .cfgCtrl => { u with opt := w.getLsbD 0 }
  | .elem l k => u.setElem l (withElemWord (u.elemAt l) k w)
  | .id0 => u
  | .id1 => u
  | .status => u
  | .err => u
  | .errinfo => u
  | .cmd => u
  | .traceLen => u
  | .unmapped => u

/-- ERRINFO of a refused window write: bit 31 set, bits [30:20] zero, the offset in [19:0] (R191). -/
def lockInfo (i : WordIndex) : Word := 1#1 ++ 0#11 ++ offsetOf i

/-- `HostWrite` at an offset other than `CMD`'s (R42, R47, R48; unmapped and read-only words: DESIGN CHOICE, log entry 6). -/
def hostWrite {b : Build} (u : UnitState b) (i : WordIndex) (w : Word) : UnitState b :=
  match locAccess (locate b i) with
  | .free => storeLoc u (locate b i) w
  | .ignored => u
  | .config =>
    match u.phase with
    | .config => storeLoc u (locate b i) w
    | .ready => if u.fault then u else u.raise .phaseLocked (lockInfo i)

end Sys2Proof.Machine
end

