-- ==== Sys2Proof/Machine/Port.lean ====
section
/-! DEFINITION. What one host action does (00_scope.md R16): a read, a write, a command (a write to `CMD`), the reset input. -/

namespace Sys2Proof.Machine

/-- The cause of a word that is no command (R61). -/
def decodeCause : DecodeError → Cause
  | .illOpcode => .illOpcode
  | .illField => .illField

/-- A word that is no command: ignored while a fault is latched (R192), else the fault (R61, R70, R71). -/
def illegalWord {b : Build} (u : UnitState b) (e : DecodeError) (w : Word) : UnitState b :=
  if u.fault then u else u.raise (decodeCause e) w

/-- `Command(w)` (R61). A decoded command passes the latch and the phase check inside its own meaning (`whenAdmitted`);
`CLRF` and `SRST` are exactly the words 0xF1000000 and 0xFF000000, which alone are not ignored (DEDUCED, log entry 5). -/
def command (w : Word) (s : State) : Outcome :=
  match decode w with
  | .ok i => exec i s
  | .error e => .next { s with unit := illegalWord s.unit e w }

/-- One host action (R40 to R42, R205). -/
def perform (a : HostAction) (s : State) : Outcome :=
  match a with
  | .read i => .next { s with replies := s.replies ++ [hostRead s.unit i] }
  | .write i w =>
    if i = cmdIndex then command w s else .next { s with unit := hostWrite s.unit i w }
  | .reset => .next { s with unit := .reset s.build }

/-- The host's next action is performed, and the run's history flag kept (R17). -/
def performNext (a : HostAction) (rest : List HostAction) (s : State) : Outcome :=
  noteFault s (perform a { s with pending := rest })

/-- The host script `SET loc, lit` (30_encoding.md R76): the EW writes of an element, lowest word first. -/
def setScript (b : Build) (l : ElemLoc b) (v : b.Elem) : List HostAction :=
  (List.range b.ew).map fun k => .write (wordAt (BitVec.ofNat 20 (elemOffset b l k))) (elemWord v k)

/-- The host script line of a command: `Command(w)` is `HostWrite(0x014, w)` (R14, R60). -/
def commandAction (i : Instr) : HostAction := .write cmdIndex (encode i)

end Sys2Proof.Machine
end

