-- ==== Sys2Proof/Machine/Step.lean ====
section
/-! DEFINITION. One step of the machine: the first of the host's pending actions (00_scope.md R16; DESIGN CHOICE, log entry 2). -/

namespace Sys2Proof.Machine

/-- One step. With no action pending the unit waits for the host and nothing changes (R205, R208). -/
def step (s : State) : Host.Outcome State Fault Refusal :=
  match s.pending with
  | [] => .next s
  | a :: rest => performNext a rest s

/-- The state with the command word whose bits are `w` as the host's next action: a write to `CMD`, which is how a command
comes to be executed (R53, R60; DESIGN CHOICE, log entry 2). -/
def State.withFetchWord (s : State) (nbits w : Nat) : State :=
  { s with pending := .write cmdIndex (tableWord nbits w) :: s.pending }

end Sys2Proof.Machine
end

