-- ==== Sys2Proof/Safety.lean ====
section
/-! DEFINITION. What claims may rest on and what they say of a safe machine: the premise `PolyIrreducible` (00_scope.md R8), the
facts `COMMIT` establishes (50_host_contract.md R158), the invariant of the machine, and the run that went wrong (R17). -/

namespace Sys2Proof.Machine

/-- f = X^N + POLY has no factorisation over GF(2) into two polynomials of degree 1 to N−1, which are the N-bit values from 2 up
(R8; DEDUCED, log entry 8). Only the laws of 40_field_arithmetic.md R97, and what follows from them, need it (R217). -/
def PolyIrreducible (b : Build) : Prop :=
  ∀ g h : b.Elem, 2 ≤ g.toNat → 2 ≤ h.toNat → clmul g h ≠ modulus b

/-- The product of two stored matrices is the identity (R146). -/
def PairIsIdentity {b : Build} (u : UnitState b) (p q : Fin 6) : Prop :=
  ∀ i j : Fin b.t, (xorSum fun k : Fin b.t => gfMul b u.m[p][i][k] u.m[q][k][j]) = if i = j then 1#b.n else 0

/-- "Guaranteed by `COMMIT`" (R158): what holds of the configuration in `READY` phase. -/
structure InstanceValid {b : Build} (u : UnitState b) : Prop where
  rfb_le_rf : u.rfb.toNat ≤ u.rf.toNat
  rounds_le_rmax : u.rf.toNat + u.rp.toNat ≤ b.rmax
  alpha_coprime : Nat.gcd u.alpha.toNat (2 ^ b.n - 1) = 1
  one_le_alphaInv : 1 ≤ u.alphaInv.toNat
  alphaInv_le : u.alphaInv.toNat ≤ 2 ^ b.n - 2
  alpha_mul_alphaInv : u.alpha.toNat * u.alphaInv.toNat % (2 ^ b.n - 1) = 1
  minit_pair : PairIsIdentity u 0 1
  mf_pair : PairIsIdentity u 2 3
  mp_pair : PairIsIdentity u 4 5
  optimized : u.opt = true → ∀ (r : Fin b.rmax) (i : Fin b.t),
    u.rfb.toNat ≤ r.val → r.val < u.rfb.toNat + u.rp.toNat → 1 ≤ i.val → u.rc[r][i] = 0

/-- The fault latch (R186, R191): `CAUSE` and `ERRINFO` are 0 when `FAULT = 0`, and `CAUSE` names a cause when it is 1. -/
structure LatchConsistent {b : Build} (u : UnitState b) : Prop where
  cause_clear : u.fault = false → u.cause = .none
  errinfo_clear : u.fault = false → u.errinfo = 0
  cause_set : u.fault = true → u.cause ≠ .none

/-- The unit's invariant: the latch is consistent, a `READY` unit holds a valid instance, `ALPHA_INV` is 0 in `CONFIG` (R29), and
`TRACE_LEN` is at most RMAX + 2 (R34). -/
structure UnitInv {b : Build} (u : UnitState b) : Prop where
  latch : LatchConsistent u
  ready_valid : u.phase = .ready → InstanceValid u
  config_alphaInv : u.phase = .config → u.alphaInv = 0
  traceLen_le : u.traceLen.toNat ≤ b.rmax + 2

/-- The machine's invariant: the unit's, and a latched fault is a run gone wrong (R17). -/
structure Inv (s : State) : Prop where
  unit_inv : UnitInv s.unit
  fault_noted : s.unit.fault = true → s.wentWrong = true

/-- A run so far has not gone wrong (R17): no fault was ever latched. -/
def CleanRun (s : State) : Prop := s.wentWrong = false ∧ s.unit.fault = false

end Sys2Proof.Machine
end

