-- ==== Sys2Proof/Certificates/Slice0/Obligations.lean ====
section
/-! DEFINITION. The statements about the machine, each made from the spec's numbered rules. Every next state is written out, so
each equation is at once the result, the completion and the frame: what is not named in it is unchanged. -/

open Sys2Proof Sys2Proof.Machine

namespace Sys2Proof.Claims

/-- The state in which a fault has been taken and nothing else changed (R190). -/
def faulted (s : State) (c : Cause) (info : Word) : State :=
  { s with unit := { s.unit with fault := true, cause := c, errinfo := info } }

/-- The unit accepts commands: no fault is latched (R61). -/
def Accepting (s : State) : Prop := s.unit.fault = false

/-- The unit accepts commands and holds an instance (R69). -/
def Ready (s : State) : Prop := s.unit.fault = false ∧ s.unit.phase = .ready

/-- `R`, the number of rounds (R13). -/
def roundsOf (s : State) : Nat := s.unit.rf.toNat + s.unit.rp.toNat

/-- The command's word is the number `n`, which decodes to it (R62 to R67, R72). -/
def HasWord (i : Instr) (n : Nat) : Prop := (encode i).toNat = n ∧ decode (BitVec.ofNat 32 n) = .ok i

/-- A word of opcode `op` with a bit of `mbz` set raises `ILL_FIELD`, in either phase and whatever else it holds; one with none
set is a command, which is executed (R61, R68, R71). -/
def MustBeZero (op : BitVec 8) (mbz : Word) : Prop :=
  ∀ (s : State) (w : Word), w.extractLsb' 24 8 = op → s.unit.fault = false →
    (w &&& mbz ≠ 0 → command w s = .next (faulted s .illField w)) ∧
    (w &&& mbz = 0 → ∃ i, decode w = .ok i ∧ command w s = exec i s)

/-- While a fault is latched a word of opcode `op` other than `exact` is ignored (R61, R149, R150, R192). -/
def OnlyExactWord (op : BitVec 8) (exact : Word) : Prop :=
  ∀ (s : State) (w : Word), s.unit.fault = true → w.extractLsb' 24 8 = op → w ≠ exact → command w s = .next s

/-- In `CONFIG` phase the command raises `PHASE_NOT_READY` with its own word (R69). -/
def NeedsReady (i : Instr) : Prop :=
  ∀ s : State, s.unit.fault = false → s.unit.phase = .config →
    exec i s = .next (faulted s .phaseNotReady (encode i))

/-- Round r is full: `r < RFB` or `r ≥ RFB + RP` (R120). -/
def FullRound {b : Build} (u : UnitState b) (r : Nat) : Prop := r < u.rfb.toNat ∨ u.rfb.toNat + u.rp.toNat ≤ r

/-- Every item of the unit's state is zero (R36). -/
def AllZero {b : Build} (u : UnitState b) : Prop :=
  (∀ i : Fin 16, u.e[i] = 0) ∧ (∀ i : Fin b.t, u.x[i] = 0) ∧ u.phase = .config ∧ u.fault = false ∧ u.cause = .none ∧
  u.errinfo = 0 ∧ u.rf = 0 ∧ u.rfb = 0 ∧ u.rp = 0 ∧ u.opt = false ∧ u.alpha = 0 ∧ u.alphaInv = 0 ∧
  (∀ (k : Fin 6) (i j : Fin b.t), u.m[k][i][j] = 0) ∧ (∀ (r : Fin b.rmax) (i : Fin b.t), u.rc[r][i] = 0) ∧
  (∀ (k : Fin (b.rmax + 2)) (i : Fin b.t), u.trace[k][i] = 0) ∧ u.traceLen = 0

/-- The trace list of `EVAL rs, re` from x (R128): the input, the state after Minit when the range is non-empty and starts at
round 0, then the state after each round. -/
def forwardStates {b : Build} (u : UnitState b) (rs re : Nat) (x : b.Vec) : List b.Vec :=
  if rs < re then
    if rs = 0 then x :: (List.range re).scanl (fun y r => u.roundF r y) (u.matvec 0 x)
    else (List.range' rs (re - rs)).scanl (fun y r => u.roundF r y) x
  else [x]

/-- The trace list of `EVALI rs, re` from x before Minit⁻¹ (R129): the input, then the state after undoing each of the rounds
re−1, …, rs. -/
def undoneStates {b : Build} (u : UnitState b) (rs re : Nat) (x : b.Vec) : List b.Vec :=
  (List.range' rs (re - rs)).reverse.scanl (fun y r => u.roundI r y) x

/-- The trace list of `EVALI rs, re` from x (R129): with the state after Minit⁻¹ when the range is non-empty and starts at 0. -/
def inverseStates {b : Build} (u : UnitState b) (rs re : Nat) (x : b.Vec) : List b.Vec :=
  if rs < re ∧ rs = 0 then
    undoneStates u rs re x ++ [u.matvec 1 ((undoneStates u rs re x).getLastD x)]
  else undoneStates u rs re x

/-- The number of entries of a trace (R130). -/
def traceCount (rs re : Nat) : Nat := if rs < re then (if rs = 0 then re - rs + 2 else re - rs + 1) else 1

/-- The opcode bytes of R68, each with the must-be-zero bits of its format (the bits of its mask below the opcode). -/
def opcodeBytes : List (BitVec 8 × Word) :=
  [(0x01, 0x000F0000), (0x02, 0x00000FFF), (0x03, 0x00000FFF), (0x04, 0x00000FFF), (0x05, 0x0000FFFF),
   (0x10, 0x000FFF00), (0x11, 0x000FFF00), (0x20, 0x000FFFFF), (0x28, 0x00FFFF00)] ++
  [(0x30, 0x00FFFFFF), (0x31, 0x00FFFFFF), (0x32, 0x00FFFFFF), (0x33, 0x00FFFFFF), (0x40, 0x00FFFF00),
   (0x41, 0x00FFFF00), (0x48, 0x00FE0000), (0x49, 0x00FE0000)] ++
  [(0xF0, 0x00FFFFFF), (0xF1, 0x00FFFFFF), (0xFF, 0x00FFFFFF)]

/-- The opcode bytes of the commands admitted in `READY` phase only (R68, R69). -/
def readyOpcodes : List (BitVec 8) := [0x20, 0x28, 0x30, 0x31, 0x32, 0x33, 0x40, 0x41, 0x48, 0x49]

/-- The commands that write `X` from the instance (R23): the evaluation commands of R18. -/
def isEngineCommand : Instr → Bool
  | .mix _ | .arc _ | .sboxF | .sboxP | .sboxiF | .sboxiP | .rnd _ | .rndi _ => true
  | .eval _ _ | .evalT _ _ | .evali _ _ | .evaliT _ _ => true
  | .fli _ _ | .fadd _ _ _ | .fmul _ _ _ | .fpow _ _ _ | .finv _ _ | .mvex _ _ | .mvxe _ _ => false
  | .commit | .clrf | .srst => false

/-- The commands that write `TRACE` (R34): the traced evaluations, and `SRST`, which writes everything. -/
def writesTrace : Instr → Bool
  | .evalT _ _ | .evaliT _ _ | .srst => true
  | .mix _ | .arc _ | .sboxF | .sboxP | .sboxiF | .sboxiP | .rnd _ | .rndi _ | .eval _ _ | .evali _ _ => false
  | .fli _ _ | .fadd _ _ _ | .fmul _ _ _ | .fpow _ _ _ | .finv _ _ | .mvex _ _ | .mvxe _ _ => false
  | .commit | .clrf => false

/-- The host's next action resets the unit: the reset input, or the command word of `SRST` (R150, R205). -/
def ResetsNext (s : State) : Prop :=
  ∃ rest, s.pending = .reset :: rest ∨ s.pending = .write cmdIndex 0xFF000000 :: rest

/-- The N-bit configuration that evaluation reads, and `X`, agree in two units (R18). -/
def AgreeOnInstance {b : Build} (u v : UnitState b) : Prop :=
  u.x = v.x ∧ u.rf = v.rf ∧ u.rfb = v.rfb ∧ u.rp = v.rp ∧ u.alpha = v.alpha ∧ u.alphaInv = v.alphaInv ∧ u.m = v.m ∧
  u.rc = v.rc

/-- What the EW window writes of `SET` leave of the unit: word 0 of the element first (R76). -/
def storeWords {b : Build} (u : UnitState b) (l : ElemLoc b) (v : b.Elem) : UnitState b :=
  (List.range b.ew).foldl
    (fun u k => hostWrite u (wordAt (BitVec.ofNat 20 (elemOffset b l k))) (elemWord v k)) u

/-- The host may write the element now (R47). -/
def Writable {b : Build} (u : UnitState b) (l : ElemLoc b) : Prop :=
  elemAccess l = .free ∨ elemAccess l = .config ∧ u.phase = .config

end Sys2Proof.Claims

open Sys2Proof.Claims

/-! ### Reset, encoding, and one step -/

/-- R36, R205, R150: after reset, and after `SRST`, every item of state is zero and `PHASE` is `CONFIG`, whatever the build and the state
before; `ID0`, `ID1` and `POLYR` read the parameters. That the reset input leaves the host's list but for its own action, and the
history flag, is the model's own (log entries 2, 3). -/
def Obligations.ResetStateIsAllZero : Prop :=
  (∀ b : Build, AllZero (State.resetOf b).unit) ∧
  (∀ (s : State) (rest : List HostAction), s.pending = .reset :: rest →
    ∃ u : UnitState s.build, AllZero u ∧
      step s = .next { s with unit := u, pending := rest, wentWrong := s.wentWrong || s.unit.fault }) ∧
  (∀ s : State, ∃ u : UnitState s.build, AllZero u ∧ exec .srst s = .next { s with unit := u }) ∧
  (∀ (b : Build) (u : UnitState b), AllZero u →
    (hostRead u (wordAt 0x000)).toNat = b.n + 2 ^ 16 * b.t + 2 ^ 24 * 1 ∧
    (hostRead u (wordAt 0x004)).toNat = b.rmax + 2 ^ 8 * b.ew ∧
    ∀ k, k < b.ew → hostRead u (wordAt (BitVec.ofNat 20 (0x300 + 4 * b.ew * 2 + 4 * k))) = b.poly.extractLsb' (32 * k) 32)

/-- Words of the spec's own examples decode to the commands they stand for (R88 to R92, R102, R122, R125, R127 to R129, R141,
R142, R145, R149, R150). A sanity statement. -/
def Obligations.SampleWordsDecode : Prop :=
  decode 0x01300057 = .ok (.fli 3 0x57) ∧ decode 0x02012000 = .ok (.fadd 0 1 2) ∧
  decode 0x04716000 = .ok (.fpow 7 1 6) ∧ decode 0x05410000 = .ok (.finv 4 1) ∧
  decode 0x10400002 = .ok (.mvex 4 2) ∧ decode 0x11100000 = .ok (.mvxe 1 0) ∧
  decode 0x20400000 = .ok (.mix 4) ∧ decode 0x28000003 = .ok (.arc 3) ∧ decode 0x33000000 = .ok .sboxiP ∧
  decode 0x41000000 = .ok (.rndi 0) ∧ decode 0x48010103 = .ok (.evalT 1 3) ∧ decode 0x49000004 = .ok (.evali 0 4) ∧
  decode 0xF0000000 = .ok .commit ∧ decode 0xF1000000 = .ok .clrf ∧ decode 0xFF000000 = .ok .srst

/-- R62 to R68, R72: decoding a command's word gives the command back, every operand at every value, the reserved `msel` too. -/
def Obligations.DecodeAfterEncode : Prop := ∀ i : Instr, decode (encode i) = .ok i

/-- R62 to R68: a word that decodes is the word of its command, so the word a fault records (R191) is the word written. -/
def Obligations.EncodeAfterDecode : Prop := ∀ (w : Word) (i : Instr), decode w = .ok i → encode i = w

/-- R68, R70, R71: a word is a command exactly when its opcode byte is one of the twenty and its must-be-zero bits are zero; it is
refused for its opcode exactly when the byte is none of them. -/
def Obligations.OpcodeTableIsExact : Prop :=
  ∀ w : Word,
    ((∃ i, decode w = .ok i) ↔ ∃ row ∈ opcodeBytes, w.extractLsb' 24 8 = row.1 ∧ w &&& row.2 = 0) ∧
    (decode w = .error .illOpcode ↔ ∀ row ∈ opcodeBytes, w.extractLsb' 24 8 ≠ row.1) ∧
    (decode w = .error .illField ↔ ∃ row ∈ opcodeBytes, w.extractLsb' 24 8 = row.1 ∧ w &&& row.2 ≠ 0)

/-- R53, R60, R61: a write to `CMD` of any word is one `Command(w)`, around which the step only takes the action off the host's list
and keeps the history flag (R17; log entries 2, 3). So a word that decodes is one execution of its command, the word
`withFetchWord` places too, and with `FAULT = 0` a word that does not raises `ILL_OPCODE` or `ILL_FIELD` (R70, R71). -/
def Obligations.StepRunsTheDecodedInstruction : Prop :=
  (∀ (s : State) (w : Word) (rest : List HostAction) (i : Instr),
    s.pending = .write cmdIndex w :: rest → decode w = .ok i →
    step s = noteFault s (exec i { s with pending := rest })) ∧
  (∀ (s : State) (w : Nat) (i : Instr), decodeTableWord 32 w = some i →
    step (s.withFetchWord 32 w) = noteFault s (exec i s)) ∧
  (∀ (s : State) (w : Word) (rest : List HostAction), s.pending = .write cmdIndex w :: rest →
    step s = noteFault s (command w { s with pending := rest }) ∧
    (s.unit.fault = false → decode w = .error .illOpcode →
      step s = .next { s with
        pending := rest, wentWrong := true
        unit := { s.unit with fault := true, cause := .illOpcode, errinfo := w } }) ∧
    (s.unit.fault = false → decode w = .error .illField →
      step s = .next { s with
        pending := rest, wentWrong := true
        unit := { s.unit with fault := true, cause := .illField, errinfo := w } }))

/-- R41, R42, R205, R208: a read appends its word to the replies and changes no state of the unit; a write elsewhere than `CMD`
is the window write; with no action the unit waits. The lists and the history flag are the model's own form of R17 and R208 (log
entries 2, 3). -/
def Obligations.StepPerformsOneHostTransaction : Prop :=
  (∀ (s : State) (i : WordIndex) (rest : List HostAction), s.pending = .read i :: rest →
    step s = .next { s with
      pending := rest, replies := s.replies ++ [hostRead s.unit i], wentWrong := s.wentWrong || s.unit.fault }) ∧
  (∀ (s : State) (i : WordIndex) (w : Word) (rest : List HostAction),
    s.pending = .write i w :: rest → i ≠ wordAt 0x014 →
    step s = .next { s with
      pending := rest, unit := hostWrite s.unit i w
      wentWrong := s.wentWrong || s.unit.fault || (hostWrite s.unit i w).fault }) ∧
  (∀ s : State, s.pending = [] → step s = .next s)

/-- R61, R69, R70, R71, R193: the processing of a command word, in order: the latch, the opcode, the must-be-zero fields, the
phase, then the command's own rule. -/
def Obligations.CommandProcessingOrder : Prop :=
  ∀ (s : State) (w : Word),
    (s.unit.fault = true → command w s =
      if w = 0xF1000000 then exec .clrf s else if w = 0xFF000000 then exec .srst s else .next s) ∧
    (s.unit.fault = false → (∀ row ∈ opcodeBytes, w.extractLsb' 24 8 ≠ row.1) →
      command w s = .next (faulted s .illOpcode w)) ∧
    (s.unit.fault = false → ∀ row ∈ opcodeBytes, w.extractLsb' 24 8 = row.1 →
      (w &&& row.2 ≠ 0 → command w s = .next (faulted s .illField w)) ∧
      (w &&& row.2 = 0 → row.1 ∈ readyOpcodes → s.unit.phase = .config →
        command w s = .next (faulted s .phaseNotReady w)) ∧
      (w &&& row.2 = 0 → row.1 = 0xF0 → s.unit.phase = .ready →
        command w s = .next (faulted s .phaseLocked w)) ∧
      (w &&& row.2 = 0 → ∃ i, decode w = .ok i ∧ command w s = exec i s))

/-- R192: while `FAULT = 1` a command write of any other word than `CLRF`'s and `SRST`'s changes no state at all, whatever it
would decode to; window reads and writes work as otherwise; and while the fault stays latched `CAUSE` and `ERRINFO` stay. What
becomes of the host's list, the replies and the history flag (R17, R208) is the model's own (log entries 2, 3). -/
def Obligations.LatchedCommandsAreIgnored : Prop :=
  (∀ (s : State) (w : Word) (rest : List HostAction),
    s.pending = .write cmdIndex w :: rest → s.unit.fault = true → w ≠ 0xF1000000 → w ≠ 0xFF000000 →
    step s = .next { s with pending := rest, wentWrong := true }) ∧
  (∀ (s : State) (i : WordIndex) (rest : List HostAction), s.unit.fault = true → s.pending = .read i :: rest →
    step s = .next { s with pending := rest, replies := s.replies ++ [hostRead s.unit i], wentWrong := true }) ∧
  (∀ (s : State) (i : WordIndex) (w : Word) (rest : List HostAction),
    s.unit.fault = true → s.pending = .write i w :: rest → i ≠ wordAt 0x014 →
    step s = .next { s with pending := rest, unit := hostWrite s.unit i w, wentWrong := true }) ∧
  (∀ s t : State, s.unit.fault = true → step s = .next t → t.unit.fault = true →
    t.unit.cause = s.unit.cause ∧ t.unit.errinfo = s.unit.errinfo)

/-! ### Field commands and moves -/

/-- R88: `FLI` stores the 16-bit immediate, zero-extended or truncated to N bits, in either phase. -/
def Obligations.FliLoadsImmediate : Prop :=
  MustBeZero 0x01 0x000F0000 ∧
  (∀ (d : EReg) (imm : BitVec 16), HasWord (.fli d imm) (0x01000000 + 2 ^ 20 * d.val + imm.toNat)) ∧
  ∀ (s : State) (d : EReg) (imm : BitVec 16), Accepting s →
    exec (.fli d imm) s = .next { s with unit := { s.unit with
      e := s.unit.e.set d.val (BitVec.ofNat s.build.n imm.toNat) d.isLt } }

/-- R89: `FADD` stores the exclusive-or of the sources, read before the write, in either phase. -/
def Obligations.FaddAddsElements : Prop :=
  MustBeZero 0x02 0x00000FFF ∧
  (∀ d a b : EReg, HasWord (.fadd d a b) (0x02000000 + 2 ^ 20 * d.val + 2 ^ 16 * a.val + 2 ^ 12 * b.val)) ∧
  ∀ (s : State) (d a b : EReg), Accepting s →
    exec (.fadd d a b) s = .next { s with unit := { s.unit with
      e := s.unit.e.set d.val (s.unit.e[a] ^^^ s.unit.e[b]) d.isLt } }

/-- R90: `FMUL` stores the reduced product of the sources, in either phase. -/
def Obligations.FmulMultipliesElements : Prop :=
  MustBeZero 0x03 0x00000FFF ∧
  (∀ d a b : EReg, HasWord (.fmul d a b) (0x03000000 + 2 ^ 20 * d.val + 2 ^ 16 * a.val + 2 ^ 12 * b.val)) ∧
  ∀ (s : State) (d a b : EReg), Accepting s →
    exec (.fmul d a b) s = .next { s with unit := { s.unit with
      e := s.unit.e.set d.val (reduce s.build (clmul s.unit.e[a] s.unit.e[b])) d.isLt } }

/-- R91: `FPOW` stores the base raised to the exponent register read as an integer; a zero base is no fault. -/
def Obligations.FpowRaisesToPower : Prop :=
  MustBeZero 0x04 0x00000FFF ∧
  (∀ d a b : EReg, HasWord (.fpow d a b) (0x04000000 + 2 ^ 20 * d.val + 2 ^ 16 * a.val + 2 ^ 12 * b.val)) ∧
  ∀ (s : State) (d a b : EReg), Accepting s →
    exec (.fpow d a b) s = .next { s with unit := { s.unit with
      e := s.unit.e.set d.val (gfPow s.build s.unit.e[a] s.unit.e[b]) d.isLt } }

/-- R92: `FINV` stores pow(E[a], 2^N − 2); at the zero element it raises `DOM_INV_ZERO` and writes nothing. -/
def Obligations.FinvInvertsOrFaults : Prop :=
  MustBeZero 0x05 0x0000FFFF ∧
  (∀ d a : EReg, HasWord (.finv d a) (0x05000000 + 2 ^ 20 * d.val + 2 ^ 16 * a.val)) ∧
  (∀ (s : State) (d a : EReg), Accepting s → s.unit.e[a] ≠ 0 →
    exec (.finv d a) s = .next { s with unit := { s.unit with
      e := s.unit.e.set d.val (gfPow s.build s.unit.e[a] (BitVec.ofNat s.build.n (2 ^ s.build.n - 2))) d.isLt } }) ∧
  (∀ (s : State) (d a : EReg), Accepting s → s.unit.e[a] = 0 →
    exec (.finv d a) s = .next (faulted s .domInvZero (encode (.finv d a))))

/-- R141: `MVEX` copies a state word to an element register, or raises `INP_INDEX` for `i ≥ T`. -/
def Obligations.MvexCopiesStateWord : Prop :=
  MustBeZero 0x10 0x000FFF00 ∧
  (∀ (e : EReg) (i : BitVec 8), HasWord (.mvex e i) (0x10000000 + 2 ^ 20 * e.val + i.toNat)) ∧
  (∀ (s : State) (e : EReg) (i : BitVec 8) (h : i.toNat < s.build.t), Accepting s →
    exec (.mvex e i) s = .next { s with unit := { s.unit with
      e := s.unit.e.set e.val s.unit.x[i.toNat] e.isLt } }) ∧
  (∀ (s : State) (e : EReg) (i : BitVec 8), Accepting s → s.build.t ≤ i.toNat →
    exec (.mvex e i) s = .next (faulted s .inpIndex (encode (.mvex e i))))

/-- R142: `MVXE` copies an element register to a state word, or raises `INP_INDEX` for `i ≥ T`. -/
def Obligations.MvxeCopiesElement : Prop :=
  MustBeZero 0x11 0x000FFF00 ∧
  (∀ (e : EReg) (i : BitVec 8), HasWord (.mvxe e i) (0x11000000 + 2 ^ 20 * e.val + i.toNat)) ∧
  (∀ (s : State) (e : EReg) (i : BitVec 8) (h : i.toNat < s.build.t), Accepting s →
    exec (.mvxe e i) s = .next { s with unit := { s.unit with
      x := s.unit.x.set i.toNat s.unit.e[e] h } }) ∧
  (∀ (s : State) (e : EReg) (i : BitVec 8), Accepting s → s.build.t ≤ i.toNat →
    exec (.mvxe e i) s = .next (faulted s .inpIndex (encode (.mvxe e i))))

/-! ### Engine commands -/

/-- R102 (and R100): `MIX` replaces `X` by the product of the selected matrix with `X` as a column; `ILL_FIELD` for `msel ≥ 6`. -/
def Obligations.MixMultipliesState : Prop :=
  MustBeZero 0x20 0x000FFFFF ∧
  (∀ msel : BitVec 4, NeedsReady (.mix msel) ∧ HasWord (.mix msel) (0x20000000 + 2 ^ 20 * msel.toNat)) ∧
  (∀ (s : State) (msel : BitVec 4) (h : msel.toNat < 6), Ready s →
    exec (.mix msel) s = .next { s with unit := { s.unit with
      x := Vector.ofFn fun i => xorSum fun j : Fin s.build.t =>
        gfMul s.build s.unit.m[msel.toNat][i][j] s.unit.x[j] } }) ∧
  (∀ (s : State) (msel : BitVec 4), Ready s → 6 ≤ msel.toNat →
    exec (.mix msel) s = .next (faulted s .illField (encode (.mix msel))))

/-- R122, R121: `ARC` adds the constants of round r to `X`, and is its own inverse; `INP_RANGE` for `r ≥ R`. A round below R lies in the memory by the
invariant (`R ≤ RMAX` in `READY`). -/
def Obligations.ArcAddsConstants : Prop :=
  MustBeZero 0x28 0x00FFFF00 ∧
  (∀ r : BitVec 8, NeedsReady (.arc r) ∧ HasWord (.arc r) (0x28000000 + r.toNat)) ∧
  (∀ (s : State) (r : BitVec 8) (h : r.toNat < s.build.rmax), Ready s → r.toNat < roundsOf s →
    exec (.arc r) s = .next { s with unit := { s.unit with
      x := Vector.ofFn fun i => s.unit.x[i] ^^^ s.unit.rc[r.toNat][i] } } ∧
    ∃ t, exec (.arc r) s = .next t ∧ exec (.arc r) t = .next s) ∧
  (∀ (s : State) (r : BitVec 8), Ready s → roundsOf s ≤ r.toNat →
    exec (.arc r) s = .next (faulted s .inpRange (encode (.arc r))))

/-- R111 to R114: the S-box commands raise every word, or word 0 only, to the power `ALPHA` or `ALPHA_INV`. -/
def Obligations.SboxCommandsApplyPowers : Prop :=
  (MustBeZero 0x30 0x00FFFFFF ∧ MustBeZero 0x31 0x00FFFFFF ∧ MustBeZero 0x32 0x00FFFFFF ∧ MustBeZero 0x33 0x00FFFFFF) ∧
  (NeedsReady .sboxF ∧ NeedsReady .sboxP ∧ NeedsReady .sboxiF ∧ NeedsReady .sboxiP) ∧
  (HasWord .sboxF 0x30000000 ∧ HasWord .sboxP 0x31000000 ∧ HasWord .sboxiF 0x32000000 ∧ HasWord .sboxiP 0x33000000) ∧
  ∀ s : State, Ready s →
    exec .sboxF s = .next { s with unit := { s.unit with
      x := Vector.ofFn fun i => gfPow s.build s.unit.x[i] s.unit.alpha } } ∧
    exec .sboxP s = .next { s with unit := { s.unit with
      x := Vector.ofFn fun i => if i.val = 0 then gfPow s.build s.unit.x[i] s.unit.alpha else s.unit.x[i] } } ∧
    exec .sboxiF s = .next { s with unit := { s.unit with
      x := Vector.ofFn fun i => gfPow s.build s.unit.x[i] s.unit.alphaInv } } ∧
    exec .sboxiP s = .next { s with unit := { s.unit with
      x := Vector.ofFn fun i => if i.val = 0 then gfPow s.build s.unit.x[i] s.unit.alphaInv else s.unit.x[i] } }

/-- R125, R124: `RND r` adds the constants, raises every word (full round) or word 0 (partial) to `ALPHA`, and multiplies by MF or
MP; `INP_RANGE` for `r ≥ R`. -/
def Obligations.RndRunsOneRound : Prop :=
  MustBeZero 0x40 0x00FFFF00 ∧
  (∀ r : BitVec 8, NeedsReady (.rnd r) ∧ HasWord (.rnd r) (0x40000000 + r.toNat)) ∧
  (∀ (s : State) (r : BitVec 8) (h : r.toNat < s.build.rmax), Ready s → r.toNat < roundsOf s →
    (FullRound s.unit r.toNat →
      exec (.rnd r) s = .next { s with unit := { s.unit with
        x := Vector.ofFn fun i => xorSum fun j : Fin s.build.t =>
          gfMul s.build s.unit.m[2][i][j] (gfPow s.build (s.unit.x[j] ^^^ s.unit.rc[r.toNat][j]) s.unit.alpha) } }) ∧
    (¬FullRound s.unit r.toNat →
      exec (.rnd r) s = .next { s with unit := { s.unit with
        x := Vector.ofFn fun i => xorSum fun j : Fin s.build.t =>
          gfMul s.build s.unit.m[4][i][j]
            (if j.val = 0 then gfPow s.build (s.unit.x[j] ^^^ s.unit.rc[r.toNat][j]) s.unit.alpha
             else s.unit.x[j] ^^^ s.unit.rc[r.toNat][j]) } })) ∧
  (∀ (s : State) (r : BitVec 8), Ready s → roundsOf s ≤ r.toNat →
    exec (.rnd r) s = .next (faulted s .inpRange (encode (.rnd r))))

/-- R127, R126: `RNDI r` multiplies by MF⁻¹ or MP⁻¹, raises every word or word 0 to `ALPHA_INV`, and adds the constants;
`INP_RANGE` for `r ≥ R`. -/
def Obligations.RndiUndoesOneRound : Prop :=
  MustBeZero 0x41 0x00FFFF00 ∧
  (∀ r : BitVec 8, NeedsReady (.rndi r) ∧ HasWord (.rndi r) (0x41000000 + r.toNat)) ∧
  (∀ (s : State) (r : BitVec 8) (h : r.toNat < s.build.rmax), Ready s → r.toNat < roundsOf s →
    (FullRound s.unit r.toNat →
      exec (.rndi r) s = .next { s with unit := { s.unit with
        x := Vector.ofFn fun i =>
          gfPow s.build (xorSum fun j : Fin s.build.t => gfMul s.build s.unit.m[3][i][j] s.unit.x[j]) s.unit.alphaInv ^^^
            s.unit.rc[r.toNat][i] } }) ∧
    (¬FullRound s.unit r.toNat →
      exec (.rndi r) s = .next { s with unit := { s.unit with
        x := Vector.ofFn fun i =>
          (if i.val = 0 then
             gfPow s.build (xorSum fun j : Fin s.build.t => gfMul s.build s.unit.m[5][i][j] s.unit.x[j]) s.unit.alphaInv
           else xorSum fun j : Fin s.build.t => gfMul s.build s.unit.m[5][i][j] s.unit.x[j]) ^^^
            s.unit.rc[r.toNat][i] } })) ∧
  (∀ (s : State) (r : BitVec 8), Ready s → roundsOf s ≤ r.toNat →
    exec (.rndi r) s = .next (faulted s .inpRange (encode (.rndi r))))

/-- R128, R130: `EVAL` leaves in `X` the last of the states of its range, `EVAL.T` also records them all; an empty range applies
nothing, not even Minit; an illegal range raises `INP_RANGE` and writes nothing. -/
def Obligations.EvalRunsForwardRange : Prop :=
  MustBeZero 0x48 0x00FE0000 ∧
  (∀ rs re : BitVec 8, NeedsReady (.eval rs re) ∧ NeedsReady (.evalT rs re) ∧
    HasWord (.eval rs re) (0x48000000 + 2 ^ 8 * rs.toNat + re.toNat) ∧
    HasWord (.evalT rs re) (0x48010000 + 2 ^ 8 * rs.toNat + re.toNat)) ∧
  (∀ (s : State) (rs re : BitVec 8), Ready s → rs.toNat ≤ re.toNat → re.toNat ≤ roundsOf s → re.toNat ≤ s.build.rmax →
    exec (.eval rs re) s = .next { s with unit := { s.unit with
      x := (forwardStates s.unit rs.toNat re.toNat s.unit.x).getLastD s.unit.x } } ∧
    exec (.evalT rs re) s = .next { s with unit := { s.unit with
      x := (forwardStates s.unit rs.toNat re.toNat s.unit.x).getLastD s.unit.x
      trace := Vector.ofFn fun k =>
        ((forwardStates s.unit rs.toNat re.toNat s.unit.x)[k.val]?).getD s.unit.trace[k]
      traceLen := BitVec.ofNat 9 (forwardStates s.unit rs.toNat re.toNat s.unit.x).length } }) ∧
  (∀ (s : State) (rs re : BitVec 8), Ready s → ¬(rs.toNat ≤ re.toNat ∧ re.toNat ≤ roundsOf s) →
    exec (.eval rs re) s = .next (faulted s .inpRange (encode (.eval rs re))) ∧
    exec (.evalT rs re) s = .next (faulted s .inpRange (encode (.evalT rs re))))

/-- R129, R130: `EVALI` undoes the rounds re−1 down to rs and then, when the range is non-empty and starts at 0, applies Minit⁻¹;
`EVALI.T` also records the states; an illegal range raises `INP_RANGE` and writes nothing. -/
def Obligations.EvaliRunsInverseRange : Prop :=
  MustBeZero 0x49 0x00FE0000 ∧
  (∀ rs re : BitVec 8, NeedsReady (.evali rs re) ∧ NeedsReady (.evaliT rs re) ∧
    HasWord (.evali rs re) (0x49000000 + 2 ^ 8 * rs.toNat + re.toNat) ∧
    HasWord (.evaliT rs re) (0x49010000 + 2 ^ 8 * rs.toNat + re.toNat)) ∧
  (∀ (s : State) (rs re : BitVec 8), Ready s → rs.toNat ≤ re.toNat → re.toNat ≤ roundsOf s → re.toNat ≤ s.build.rmax →
    exec (.evali rs re) s = .next { s with unit := { s.unit with
      x := (inverseStates s.unit rs.toNat re.toNat s.unit.x).getLastD s.unit.x } } ∧
    exec (.evaliT rs re) s = .next { s with unit := { s.unit with
      x := (inverseStates s.unit rs.toNat re.toNat s.unit.x).getLastD s.unit.x
      trace := Vector.ofFn fun k =>
        ((inverseStates s.unit rs.toNat re.toNat s.unit.x)[k.val]?).getD s.unit.trace[k]
      traceLen := BitVec.ofNat 9 (inverseStates s.unit rs.toNat re.toNat s.unit.x).length } }) ∧
  (∀ (s : State) (rs re : BitVec 8), Ready s → ¬(rs.toNat ≤ re.toNat ∧ re.toNat ≤ roundsOf s) →
    exec (.evali rs re) s = .next (faulted s .inpRange (encode (.evali rs re))) ∧
    exec (.evaliT rs re) s = .next (faulted s .inpRange (encode (.evaliT rs re))))

/-! ### System commands -/

/-- R145, R146, R147: `COMMIT` makes its five checks in order; when all pass it writes the inverse exponent, which is the only one
in range, zeroes the optimised constants when `OPT = 1`, and enters `READY`. -/
def Obligations.CommitValidatesInOrder : Prop :=
  MustBeZero 0xF0 0x00FFFFFF ∧ HasWord .commit 0xF0000000 ∧
  (∀ s : State, Ready s → exec .commit s = .next (faulted s .phaseLocked 0xF0000000)) ∧
  ∀ s : State, Accepting s → s.unit.phase = .config →
    (s.unit.rf.toNat < s.unit.rfb.toNat ∨ s.build.rmax < s.unit.rf.toNat + s.unit.rp.toNat →
      exec .commit s = .next (faulted s .cfgRounds 0xF0000000)) ∧
    (s.unit.rfb.toNat ≤ s.unit.rf.toNat → s.unit.rf.toNat + s.unit.rp.toNat ≤ s.build.rmax →
      (Nat.gcd s.unit.alpha.toNat (2 ^ s.build.n - 1) ≠ 1 →
        exec .commit s = .next (faulted s .cfgAlpha 0xF0000000)) ∧
      (Nat.gcd s.unit.alpha.toNat (2 ^ s.build.n - 1) = 1 →
        (¬PairIsIdentity s.unit 0 1 → exec .commit s = .next (faulted s .cfgMinit 0xF0000000)) ∧
        (PairIsIdentity s.unit 0 1 → ¬PairIsIdentity s.unit 2 3 →
          exec .commit s = .next (faulted s .cfgMf 0xF0000000)) ∧
        (PairIsIdentity s.unit 0 1 → PairIsIdentity s.unit 2 3 → ¬PairIsIdentity s.unit 4 5 →
          exec .commit s = .next (faulted s .cfgMp 0xF0000000)) ∧
        (PairIsIdentity s.unit 0 1 → PairIsIdentity s.unit 2 3 → PairIsIdentity s.unit 4 5 →
          ∃ k : s.build.Elem,
            (1 ≤ k.toNat ∧ k.toNat ≤ 2 ^ s.build.n - 2 ∧
              s.unit.alpha.toNat * k.toNat % (2 ^ s.build.n - 1) = 1) ∧
            (∀ k' : Nat, 1 ≤ k' → k' ≤ 2 ^ s.build.n - 2 →
              s.unit.alpha.toNat * k' % (2 ^ s.build.n - 1) = 1 → k' = k.toNat) ∧
            exec .commit s = .next { s with unit := { s.unit with
              alphaInv := k
              rc := Vector.ofFn fun r => Vector.ofFn fun i =>
                if s.unit.opt = true ∧ s.unit.rfb.toNat ≤ r.val ∧ r.val < s.unit.rfb.toNat + s.unit.rp.toNat ∧ 1 ≤ i.val
                then 0 else s.unit.rc[r][i]
              phase := .ready } })))

/-- R149: `CLRF` clears the latch and nothing else, in both phases and whatever `FAULT` is. -/
def Obligations.ClrfClearsLatch : Prop :=
  MustBeZero 0xF1 0x00FFFFFF ∧ OnlyExactWord 0xF1 0xF1000000 ∧ HasWord .clrf 0xF1000000 ∧
  ∀ s : State, exec .clrf s = .next { s with unit := { s.unit with fault := false, cause := .none, errinfo := 0 } }

/-- R150, R36: `SRST` brings every item of state to zero, in both phases and whatever `FAULT` is. That the run's record (the history
flag, the replies) survives it is the model's own (log entry 3). -/
def Obligations.SrstResetsEverything : Prop :=
  MustBeZero 0xFF 0x00FFFFFF ∧ OnlyExactWord 0xFF 0xFF000000 ∧ HasWord .srst 0xFF000000 ∧
  ∀ s : State, ∃ u : UnitState s.build, AllZero u ∧ exec .srst s = .next { s with unit := u }

/-! ### The engine's laws -/

/-- R125, R127: `RND r` equals `ARC r`, the S-box command and `MIX` issued in that order; `RNDI r` equals `MIX`, the inverse S-box
command and `ARC r`. -/
def Obligations.RoundsAreThreeCommands : Prop :=
  ∀ (s : State) (r : BitVec 8), Ready s → r.toNat < roundsOf s → r.toNat < s.build.rmax →
    (FullRound s.unit r.toNat →
      (∃ s₁ s₂ t, exec (.arc r) s = .next s₁ ∧ exec .sboxF s₁ = .next s₂ ∧ exec (.mix 2) s₂ = .next t ∧
        exec (.rnd r) s = .next t) ∧
      (∃ s₁ s₂ t, exec (.mix 3) s = .next s₁ ∧ exec .sboxiF s₁ = .next s₂ ∧ exec (.arc r) s₂ = .next t ∧
        exec (.rndi r) s = .next t)) ∧
    (¬FullRound s.unit r.toNat →
      (∃ s₁ s₂ t, exec (.arc r) s = .next s₁ ∧ exec .sboxP s₁ = .next s₂ ∧ exec (.mix 4) s₂ = .next t ∧
        exec (.rnd r) s = .next t) ∧
      (∃ s₁ s₂ t, exec (.mix 5) s = .next s₁ ∧ exec .sboxiP s₁ = .next s₂ ∧ exec (.arc r) s₂ = .next t ∧
        exec (.rndi r) s = .next t))

/-- R128, R129: splitting a range composes, also where the first part is empty at round 0. -/
def Obligations.EvalRangesCompose : Prop :=
  ∀ (s : State) (a b c : BitVec 8), Ready s → a.toNat ≤ b.toNat → b.toNat ≤ c.toNat → c.toNat ≤ roundsOf s →
    c.toNat ≤ s.build.rmax →
    (∃ s₁ t, exec (.eval a b) s = .next s₁ ∧ exec (.eval b c) s₁ = .next t ∧ exec (.eval a c) s = .next t) ∧
    (∃ s₁ t, exec (.evali b c) s = .next s₁ ∧ exec (.evali a b) s₁ = .next t ∧ exec (.evali a c) s = .next t)

/-- R130, R34: a traced evaluation leaves `TRACE_LEN` = 1 for an empty range, else re − rs + 1, plus 1 when rs = 0; entry 0 is the
input, the last entry is the new `X`, later entries are kept. -/
def Obligations.TraceHoldsTheEvaluation : Prop :=
  ∀ (s : State) (rs re : BitVec 8) (i : Instr), (i = .evalT rs re ∨ i = .evaliT rs re) → Ready s →
    rs.toNat ≤ re.toNat → re.toNat ≤ roundsOf s → re.toNat ≤ s.build.rmax →
    ∃ u : UnitState s.build, exec i s = .next { s with unit := u } ∧
      u.traceLen.toNat = traceCount rs.toNat re.toNat ∧
      (∀ k : Fin (s.build.rmax + 2), k.val = 0 → u.trace[k] = s.unit.x) ∧
      (∀ k : Fin (s.build.rmax + 2), k.val + 1 = traceCount rs.toNat re.toNat → u.trace[k] = u.x) ∧
      (∀ k : Fin (s.build.rmax + 2), traceCount rs.toNat re.toNat ≤ k.val → u.trace[k] = s.unit.trace[k])

/-- R120: rounds 0 to rf − 1 are full, the next rP partial, the rest full; so rF of the R rounds are full. -/
def Obligations.RoundTypesPartition : Prop :=
  ∀ (b : Build) (u : UnitState b), u.rfb.toNat ≤ u.rf.toNat →
    (∀ r, u.isFull r = true ↔ FullRound u r) ∧
    (List.range (u.rf.toNat + u.rp.toNat)).countP (fun r => u.isFull r) = u.rf.toNat ∧
    (List.range (u.rf.toNat + u.rp.toNat)).countP (fun r => !u.isFull r) = u.rp.toNat

/-! ### The field -/

/-- R81: bit k of the carry-less product is the exclusive-or over i of b[i]·a[k − i]. -/
def Obligations.ClmulIsCarrylessProduct : Prop :=
  ∀ (n : Nat) (x y : BitVec n) (k : Nat),
    (clmul x y).getLsbD k =
      (List.range n).foldr (fun i acc => Bool.xor (y.getLsbD i && decide (i ≤ k) && x.getLsbD (k - i)) acc) false

/-- R82: `reduce(c)` is the unique value of degree below N congruent to c modulo f: c = q·f + reduce(c) for a q of degree at most
N − 2, and no other remainder has such a q. -/
def Obligations.ReduceIsTheResidue : Prop :=
  ∀ (b : Build) (c : BitVec (2 * b.n - 1)),
    (∃ q : b.Elem, q.toNat < 2 ^ (b.n - 1) ∧
      c = (q.setWidth (2 * b.n - 1) <<< b.n) ^^^ clmul q b.poly ^^^ (reduce b c).setWidth (2 * b.n - 1)) ∧
    (∀ q r : b.Elem, q.toNat < 2 ^ (b.n - 1) →
      c = (q.setWidth (2 * b.n - 1) <<< b.n) ^^^ clmul q b.poly ^^^ r.setWidth (2 * b.n - 1) → r = reduce b c)

/-- R84: `pow(a, k)` is a multiplied by itself k times, 1 for k = 0. -/
def Obligations.PowIsRepeatedMultiplication : Prop :=
  ∀ (b : Build) (x k : b.Elem), gfPow b x k = (List.replicate k.toNat x).foldr (gfMul b) 1#b.n

/-- R96: the laws that hold for every `POLY`: commutative, associative, distributive, the zero and one laws, the power laws for
exponents the operand holds, and additive squaring. -/
def Obligations.RingLaws : Prop :=
  ∀ (b : Build) (x y z : b.Elem),
    gfAdd b x y = gfAdd b y x ∧ gfAdd b (gfAdd b x y) z = gfAdd b x (gfAdd b y z) ∧
    gfMul b x y = gfMul b y x ∧ gfMul b (gfMul b x y) z = gfMul b x (gfMul b y z) ∧
    gfMul b x (gfAdd b y z) = gfAdd b (gfMul b x y) (gfMul b x z) ∧
    gfAdd b x x = 0 ∧ gfAdd b x 0 = x ∧ gfMul b x 0 = 0 ∧ gfMul b x 1#b.n = x ∧
    (∀ j k : b.Elem, j.toNat + k.toNat < 2 ^ b.n → gfPow b x (j + k) = gfMul b (gfPow b x j) (gfPow b x k)) ∧
    (∀ j k : b.Elem, j.toNat * k.toNat < 2 ^ b.n → gfPow b x (j * k) = gfPow b (gfPow b x j) k) ∧
    gfMul b (gfAdd b x y) (gfAdd b x y) = gfAdd b (gfMul b x x) (gfMul b y y)

/-- R97: the laws under `PolyIrreducible`: `inv` returns the one inverse of a non-zero element, a^(2^N − 1) = 1 for a ≠ 0, no zero
divisors, and the S-box law for every coprime exponent, at 0 too. -/
def Obligations.FieldLaws : Prop :=
  ∀ b : Build, PolyIrreducible b →
    (∀ x : b.Elem, x ≠ 0 → gfMul b x (gfInv b x) = 1#b.n ∧ ∀ y : b.Elem, gfMul b x y = 1#b.n → y = gfInv b x) ∧
    (∀ x : b.Elem, x ≠ 0 → gfPow b x (BitVec.allOnes b.n) = 1#b.n) ∧
    (∀ x y : b.Elem, gfMul b x y = 0 → x = 0 ∨ y = 0) ∧
    (∀ x k l : b.Elem, Nat.gcd k.toNat (2 ^ b.n - 1) = 1 → k.toNat * l.toNat % (2 ^ b.n - 1) = 1 →
      gfPow b (gfPow b x k) l = x)

/-- R8: the premise `PolyIrreducible` is that f(X) = X^N + Σ POLY[i]·X^i (R6) is irreducible over GF(2). -/
def Obligations.PolyIrreducibleIsIrreducibility : Prop :=
  ∀ b : Build, PolyIrreducible b ↔
    Irreducible (Polynomial.X ^ b.n +
      ∑ i ∈ Finset.range b.n, (if b.poly.getLsbD i then Polynomial.X ^ i else 0) : Polynomial (ZMod 2))

/-- R100: word i of M·x is the sum of the products of row i, accumulated in any order. -/
def Obligations.MatvecAccumulatesInAnyOrder : Prop :=
  ∀ (b : Build) (mat : b.Mat) (x : b.Vec) (i : Fin b.t) (order : List (Fin b.t)), order.Perm (List.finRange b.t) →
    (mulVec mat x)[i] = order.foldl (fun acc j => acc ^^^ gfMul b mat[i][j] x[j]) 0

/-- R103: a matrix of ones off the diagonal and D on it multiplies by y[i] = S ⊕ x[i] ⊕ D[i]·x[i], S the sum of x. -/
def Obligations.OnesPlusDiagonalShortcut : Prop :=
  ∀ (b : Build) (d x : b.Vec) (i : Fin b.t),
    (mulVec (Vector.ofFn fun p : Fin b.t => Vector.ofFn fun q : Fin b.t => if p = q then d[p] else 1#b.n) x)[i] =
      (xorSum fun j : Fin b.t => x[j]) ^^^ x[i] ^^^ gfMul b d[i] x[i]

/-- R101: in a valid instance each stored pair undoes the other in both orders. -/
def Obligations.MatrixPairsInvert : Prop :=
  ∀ (b : Build) (u : UnitState b) (x : b.Vec), InstanceValid u →
    u.matvec 1 (u.matvec 0 x) = x ∧ u.matvec 0 (u.matvec 1 x) = x ∧
    u.matvec 3 (u.matvec 2 x) = x ∧ u.matvec 2 (u.matvec 3 x) = x ∧
    u.matvec 5 (u.matvec 4 x) = x ∧ u.matvec 4 (u.matvec 5 x) = x

/-- R110: in a valid instance over a field the S-box and the inverse S-box undo each other, full and partial. -/
def Obligations.SboxesInvert : Prop :=
  ∀ (b : Build) (u : UnitState b) (x : b.Vec) (full : Bool), PolyIrreducible b → InstanceValid u →
    sbox (sbox x u.alpha full) u.alphaInv full = x ∧ sbox (sbox x u.alphaInv full) u.alpha full = x

/-- R126: in a valid instance over a field each round transform undoes the other. -/
def Obligations.RoundsInvert : Prop :=
  ∀ (b : Build) (u : UnitState b) (r : Nat) (x : b.Vec), PolyIrreducible b → InstanceValid u →
    u.roundI r (u.roundF r x) = x ∧ u.roundF r (u.roundI r x) = x

/-- R131: in `READY` phase, over a field, `EVAL rs, re` and then `EVALI rs, re` restore the whole state, and so do they in the
other order, for every 0 ≤ rs ≤ re ≤ R. -/
def Obligations.EvaluationRoundTrip : Prop :=
  ∀ (s : State) (rs re : BitVec 8), Inv s → PolyIrreducible s.build → Ready s → rs.toNat ≤ re.toNat →
    re.toNat ≤ roundsOf s →
    (∃ t, exec (.eval rs re) s = .next t ∧ exec (.evali rs re) t = .next s) ∧
    (∃ t, exec (.evali rs re) s = .next t ∧ exec (.eval rs re) t = .next s)

/-! ### The window -/

/-- R44: each element's word stands at its offset, inside the window and aligned, and an aligned offset holds an element's word
only there: the map drops nothing and overlaps nowhere. -/
def Obligations.WindowMapIsExact : Prop :=
  ∀ b : Build,
    (∀ k, k < b.ew →
      (∀ q : Fin 16, locateOffset b (0x100 + 4 * b.ew * q.val + 4 * k) = .elem (.e q) k) ∧
      locateOffset b (0x300 + 4 * k) = .elem .alpha k ∧
      locateOffset b (0x300 + 4 * b.ew + 4 * k) = .elem .alphaInv k ∧
      locateOffset b (0x300 + 4 * b.ew * 2 + 4 * k) = .elem .polyr k ∧
      (∀ q : Fin b.t, locateOffset b (0x400 + 4 * b.ew * q.val + 4 * k) = .elem (.x q) k) ∧
      (∀ (m : Fin 6) (i j : Fin b.t),
        locateOffset b (0x10000 + 0x8000 * m.val + 4 * b.ew * (i.val * b.t + j.val) + 4 * k) = .elem (.m m i j) k) ∧
      (∀ (r : Fin b.rmax) (i : Fin b.t),
        locateOffset b (0x40000 + 4 * b.ew * (r.val * b.t + i.val) + 4 * k) = .elem (.rc r i) k) ∧
      (∀ (r : Fin (b.rmax + 2)) (i : Fin b.t),
        locateOffset b (0x80000 + 4 * b.ew * (r.val * b.t + i.val) + 4 * k) = .elem (.trace r i) k)) ∧
    (∀ (l : ElemLoc b) (k : Nat), k < b.ew → elemOffset b l k < 0x100000 ∧ elemOffset b l k % 4 = 0) ∧
    (∀ (off : Nat) (l : ElemLoc b) (k : Nat), off % 4 = 0 → locateOffset b off = .elem l k →
      k < b.ew ∧ off = elemOffset b l k)

/-- R45: reading word k of an element gives its bits 32k to 32k + 31, zero above the top bit; writing it replaces those bits and
no others. -/
def Obligations.ElementWordLayout : Prop :=
  ∀ (n : Nat) (v : BitVec n) (k : Nat) (w : Word) (j : Nat),
    (elemWord v k).getLsbD j = (decide (j < 32) && v.getLsbD (32 * k + j)) ∧
    (withElemWord v k w).getLsbD j =
      if 32 * k ≤ j ∧ j < 32 * k + 32 ∧ j < n then w.getLsbD (j - 32 * k) else v.getLsbD j

/-- R76, R45: the EW writes of `SET` store exactly the literal in exactly that element, when the host may write it. -/
def Obligations.SetStoresTheElement : Prop :=
  ∀ (b : Build) (u : UnitState b) (l : ElemLoc b) (v : b.Elem), Writable u l →
    storeWords u l v = u.setElem l v ∧ (storeWords u l v).elemAt l = v

/-- R41, R44, R45, R31, R186: what every mapped word of the window reads: the register words field by field, the codes of the
causes, and word k of every element, its bits from 32k up. -/
def Obligations.RegisterWordsRead : Prop :=
  (∀ (b : Build) (u : UnitState b),
    (hostRead u (wordAt 0x000)).toNat = b.n + 2 ^ 16 * b.t + 2 ^ 24 * 1 ∧
    (hostRead u (wordAt 0x004)).toNat = b.rmax + 2 ^ 8 * b.ew ∧
    (hostRead u (wordAt 0x008)).toNat = (if u.phase = .ready then 1 else 0) + 2 * u.fault.toNat ∧
    (hostRead u (wordAt 0x00C)).toNat = (causeCode u.cause).toNat ∧
    hostRead u (wordAt 0x010) = u.errinfo ∧
    hostRead u (wordAt 0x014) = 0 ∧
    (hostRead u (wordAt 0x018)).toNat = u.rf.toNat + 2 ^ 8 * u.rfb.toNat + 2 ^ 16 * u.rp.toNat ∧
    (hostRead u (wordAt 0x01C)).toNat = u.opt.toNat ∧
    (hostRead u (wordAt 0x020)).toNat = u.traceLen.toNat) ∧
  (∀ (b : Build) (u : UnitState b) (k : Nat), k < b.ew →
    (∀ q : Fin 16, hostRead u (wordAt (BitVec.ofNat 20 (0x100 + 4 * b.ew * q.val + 4 * k))) =
      u.e[q].extractLsb' (32 * k) 32) ∧
    hostRead u (wordAt (BitVec.ofNat 20 (0x300 + 4 * k))) = u.alpha.extractLsb' (32 * k) 32 ∧
    hostRead u (wordAt (BitVec.ofNat 20 (0x300 + 4 * b.ew + 4 * k))) = u.alphaInv.extractLsb' (32 * k) 32 ∧
    hostRead u (wordAt (BitVec.ofNat 20 (0x300 + 4 * b.ew * 2 + 4 * k))) = b.poly.extractLsb' (32 * k) 32 ∧
    (∀ q : Fin b.t, hostRead u (wordAt (BitVec.ofNat 20 (0x400 + 4 * b.ew * q.val + 4 * k))) =
      u.x[q].extractLsb' (32 * k) 32) ∧
    (∀ (m : Fin 6) (i j : Fin b.t),
      hostRead u (wordAt (BitVec.ofNat 20 (0x10000 + 0x8000 * m.val + 4 * b.ew * (i.val * b.t + j.val) + 4 * k))) =
        u.m[m][i][j].extractLsb' (32 * k) 32) ∧
    (∀ (r : Fin b.rmax) (i : Fin b.t),
      hostRead u (wordAt (BitVec.ofNat 20 (0x40000 + 4 * b.ew * (r.val * b.t + i.val) + 4 * k))) =
        u.rc[r][i].extractLsb' (32 * k) 32) ∧
    (∀ (r : Fin (b.rmax + 2)) (i : Fin b.t),
      hostRead u (wordAt (BitVec.ofNat 20 (0x80000 + 4 * b.ew * (r.val * b.t + i.val) + 4 * k))) =
        u.trace[r][i].extractLsb' (32 * k) 32)) ∧
  [Cause.none, .cfgRounds, .cfgAlpha, .cfgMinit, .cfgMf, .cfgMp, .domInvZero, .inpRange, .inpIndex, .illOpcode, .illField,
    .phaseNotReady, .phaseLocked].map causeCode =
    [0x00, 0x10, 0x11, 0x12, 0x13, 0x14, 0x20, 0x30, 0x31, 0x40, 0x41, 0x50, 0x51]

/-- R46, R47: `E` and `X` are written in both phases whatever `FAULT` is; configuration state in `CONFIG` only; in `READY` the write
changes nothing and raises `PHASE_LOCKED` with bit 31 and the offset, or, with a fault latched, changes nothing at all. -/
def Obligations.WindowWriteRights : Prop :=
  ∀ (b : Build) (u : UnitState b) (i : WordIndex) (w : Word),
    (∀ (q : Fin 16) (k : Nat), locate b i = .elem (.e q) k →
      hostWrite u i w = { u with e := u.e.set q.val (withElemWord u.e[q] k w) q.isLt }) ∧
    (∀ (q : Fin b.t) (k : Nat), locate b i = .elem (.x q) k →
      hostWrite u i w = { u with x := u.x.set q.val (withElemWord u.x[q] k w) q.isLt }) ∧
    (u.phase = .config →
      (i = wordAt 0x018 → hostWrite u i w =
        { u with rf := w.extractLsb' 0 8, rfb := w.extractLsb' 8 8, rp := w.extractLsb' 16 8 }) ∧
      (i = wordAt 0x01C → hostWrite u i w = { u with opt := w.getLsbD 0 }) ∧
      (∀ k, locate b i = .elem .alpha k → hostWrite u i w = { u with alpha := withElemWord u.alpha k w }) ∧
      (∀ (m : Fin 6) (p q : Fin b.t) (k : Nat), locate b i = .elem (.m m p q) k →
        hostWrite u i w = u.setElem (.m m p q) (withElemWord u.m[m][p][q] k w)) ∧
      (∀ (r : Fin b.rmax) (q : Fin b.t) (k : Nat), locate b i = .elem (.rc r q) k →
        hostWrite u i w = u.setElem (.rc r q) (withElemWord u.rc[r][q] k w))) ∧
    (u.phase = .ready → locAccess (locate b i) = .config →
      (u.fault = false → ∃ info : Word, info.toNat = 2 ^ 31 + 4 * i.toNat ∧
        hostWrite u i w = { u with fault := true, cause := .phaseLocked, errinfo := info }) ∧
      (u.fault = true → hostWrite u i w = u)) ∧
    (locAccess (locate b i) = .config ↔
      i = wordAt 0x018 ∨ i = wordAt 0x01C ∨ (∃ k, locate b i = .elem .alpha k) ∨
      (∃ m p q k, locate b i = .elem (.m m p q) k) ∨ (∃ r q k, locate b i = .elem (.rc r q) k))

/-- R42, R45: a store to an element is read back there and leaves every other element and every register word as it was. -/
def Obligations.WindowStoreFrame : Prop :=
  ∀ (b : Build) (u : UnitState b) (l : ElemLoc b) (v : b.Elem), elemAccess l ≠ .ignored →
    (u.setElem l v).elemAt l = v ∧
    (∀ l' : ElemLoc b, l' ≠ l → (u.setElem l v).elemAt l' = u.elemAt l') ∧
    (∀ l' : Loc b, (∀ l'' k, l' ≠ .elem l'' k) → readLoc (u.setElem l v) l' = readLoc u l') ∧
    (u.setElem l v).phase = u.phase ∧ (u.setElem l v).fault = u.fault ∧ (u.setElem l v).cause = u.cause

/-- R48: unmapped offsets (the reserved ranges, and every word of a region that is no word of one of its elements) read 0 and
ignore writes; read-only words ignore writes; no fault is raised. -/
def Obligations.IgnoredWordsStayAsTheyAre : Prop :=
  ∀ (b : Build) (u : UnitState b) (i : WordIndex) (w : Word),
    (locate b i = .unmapped → hostRead u i = 0 ∧ hostWrite u i w = u) ∧
    (0x100 ≤ 4 * i.toNat → (∀ l k, k < b.ew → 4 * i.toNat ≠ elemOffset b l k) → locate b i = .unmapped) ∧
    (0x024 ≤ 4 * i.toNat ∧ 4 * i.toNat < 0x100 ∨ 0x800 ≤ 4 * i.toNat ∧ 4 * i.toNat < 0x10000 → locate b i = .unmapped) ∧
    (i = wordAt 0x000 ∨ i = wordAt 0x004 ∨ i = wordAt 0x008 ∨ i = wordAt 0x00C ∨ i = wordAt 0x010 ∨ i = wordAt 0x020 →
      hostWrite u i w = u) ∧
    (∀ k, locate b i = .elem .alphaInv k ∨ locate b i = .elem .polyr k → hostWrite u i w = u) ∧
    (∀ r q k, locate b i = .elem (.trace r q) k → hostWrite u i w = u)

/-! ### Faults, phases, the whole machine -/

/-- R190, R191: when a step takes a fault, the action was a write, the fault names a cause, `ERRINFO` is the command word or bit 31
and the offset, and nothing else of the unit changes. That the action leaves the host's list and the history flag is set (R17) is
the model's own (log entries 2, 3). -/
def Obligations.FaultChangesOnlyTheLatch : Prop :=
  ∀ (s t : State) (a : HostAction) (rest : List HostAction), s.pending = a :: rest → s.unit.fault = false →
    step s = .next t → t.unit.fault = true →
    ∃ (i : WordIndex) (w : Word) (c : Cause), a = .write i w ∧ c ≠ .none ∧
      t = { s with
        pending := rest
        unit := { s.unit with
          fault := true, cause := c
          errinfo := if i = wordAt 0x014 then w else 1#1 ++ 0#11 ++ offsetOf i }
        wentWrong := true }

/-- R194, R149: after a fault `CLRF` brings the unit back to its state before the failed command. That the action has left the
host's list and the history flag stays set (R17) is the model's own (log entries 2, 3). -/
def Obligations.RecoveryRestoresTheUnit : Prop :=
  ∀ s t : State, LatchConsistent s.unit → s.unit.fault = false → step s = .next t → t.unit.fault = true →
    exec .clrf t = .next { s with pending := s.pending.tail, wentWrong := true }

/-- R196: `CONFIG` becomes `READY` only by `COMMIT`, accepted; `READY` becomes `CONFIG` only by `SRST` or the reset input. -/
def Obligations.PhaseTransitions : Prop :=
  ∀ s t : State, step s = .next t →
    (s.unit.phase = .config → t.unit.phase = .ready →
      s.unit.fault = false ∧ ∃ rest, s.pending = .write cmdIndex 0xF0000000 :: rest) ∧
    (s.unit.phase = .ready → t.unit.phase = .config → ResetsNext s)

/-- R24, R47, R155: in `READY` phase no host action but a reset changes the configuration, the inverse exponent or the phase. -/
def Obligations.ConfigurationIsReadOnlyInReady : Prop :=
  ∀ s t : State, s.unit.phase = .ready → ¬ResetsNext s → step s = .next t →
    ∃ u : UnitState s.build,
      t = { s with unit := u, pending := t.pending, replies := t.replies, wentWrong := t.wentWrong } ∧
      u.phase = .ready ∧ u.rf = s.unit.rf ∧ u.rfb = s.unit.rfb ∧ u.rp = s.unit.rp ∧ u.opt = s.unit.opt ∧
      u.alpha = s.unit.alpha ∧ u.alphaInv = s.unit.alphaInv ∧ u.m = s.unit.m ∧ u.rc = s.unit.rc

/-- R34, R130: `TRACE` and `TRACE_LEN` change only by a traced evaluation, `SRST` or the reset input. -/
def Obligations.TraceChangesOnlyByTracedEvaluation : Prop :=
  ∀ s t : State, step s = .next t →
    (∀ rest, s.pending ≠ .reset :: rest) →
    (∀ w rest i, s.pending = .write cmdIndex w :: rest → decode w = .ok i → writesTrace i = false) →
    ∃ u : UnitState s.build,
      t = { s with unit := u, pending := t.pending, replies := t.replies, wentWrong := t.wentWrong } ∧
      u.trace = s.unit.trace ∧ u.traceLen = s.unit.traceLen

/-- R18: the result of an evaluation command depends on the committed configuration, on `X` and on the command alone; not on `E`,
on `TRACE`, on `OPT`, or on what else the state holds. -/
def Obligations.EvaluationIsPure : Prop :=
  ∀ (s : State) (v : UnitState s.build) (i : Instr), isEngineCommand i = true → Ready s →
    v.fault = false → v.phase = .ready → AgreeOnInstance s.unit v → UnitInv s.unit →
    ∃ u' v' : UnitState s.build, exec i s = .next { s with unit := u' } ∧ exec i { s with unit := v } = .next { s with unit := v' } ∧
      u'.x = v'.x ∧ u'.fault = v'.fault ∧
      (writesTrace i = true → u'.fault = false → u'.traceLen = v'.traceLen ∧
        ∀ k : Fin (s.build.rmax + 2), k.val < u'.traceLen.toNat → u'.trace[k] = v'.trace[k])

/-- R25, R29, R34, R158: every step keeps the invariant: the latch consistent, a valid instance in `READY`, `ALPHA_INV` zero in
`CONFIG`, `TRACE_LEN` within the trace memory, a latched fault noted (R17; log entry 3). -/
def Obligations.StepKeepsTheInvariant : Prop := ∀ s t : State, Inv s → step s = .next t → Inv t

/-- The invariant holds in the reset state of every build (R36). -/
def Obligations.ResetMeetsTheInvariant : Prop := ∀ b : Build, Inv (State.resetOf b)

/-- R206, R148: straight after reset, whatever the build, no engine command runs (`PHASE_NOT_READY`) and `COMMIT` raises
`CFG_ALPHA`; the field commands and the moves run at once. `FINV` runs once its source is not zero: straight after reset every
register is, and it raises `DOM_INV_ZERO` (R92). -/
def Obligations.OnlyTheInstanceIsMissingAfterReset : Prop :=
  ∀ b : Build,
    (∀ i : Instr, isEngineCommand i = true →
      exec i (State.resetOf b) = .next (faulted (State.resetOf b) .phaseNotReady (encode i))) ∧
    exec .commit (State.resetOf b) = .next (faulted (State.resetOf b) .cfgAlpha 0xF0000000) ∧
    (∀ (i : Instr) (d a c : EReg) (imm : BitVec 16),
      i = .fli d imm ∨ i = .fadd d a c ∨ i = .fmul d a c ∨ i = .fpow d a c →
      ∃ t, exec i (State.resetOf b) = .next t ∧ t.unit.fault = false) ∧
    (∀ (i : Instr) (e : EReg) (k : BitVec 8), k.toNat < b.t → i = .mvex e k ∨ i = .mvxe e k →
      ∃ t, exec i (State.resetOf b) = .next t ∧ t.unit.fault = false) ∧
    (∀ d a : EReg,
      exec (.finv d a) (State.resetOf b) = .next (faulted (State.resetOf b) .domInvZero (encode (.finv d a))) ∧
      ∃ s t, exec (.fli a 1) (State.resetOf b) = .next s ∧ exec (.finv d a) s = .next t ∧ t.unit.fault = false)

/-- R16, R217: for every state a run reaches and every host action there is a next state; the model's own stop needs a `READY` state
with more rounds than constants (log entry 7), where the engine commands that would use a missing constant stop; nothing is
refused. -/
def Obligations.StepAlwaysAnswers : Prop :=
  (∀ s : State, Inv s → ∃ t, step s = .next t) ∧
  (∀ (s : State) (r : Fault), step s = .fault r → s.unit.phase = .ready ∧ s.build.rmax < roundsOf s) ∧
  (∀ (s : State) (r : Refusal), step s ≠ .refused r) ∧
  (∀ (s : State) (r : BitVec 8), Ready s → s.build.rmax ≤ r.toNat → r.toNat < roundsOf s →
    ∀ i : Instr, i = .arc r ∨ i = .rnd r ∨ i = .rndi r → exec i s = .fault .roundBeyondCapacity) ∧
  (∀ (s : State) (rs re : BitVec 8), Ready s → rs.toNat ≤ re.toNat → s.build.rmax < re.toNat → re.toNat ≤ roundsOf s →
    ∀ i : Instr, i = .eval rs re ∨ i = .evalT rs re ∨ i = .evali rs re ∨ i = .evaliT rs re →
      exec i s = .fault .roundBeyondCapacity)

/-- R6, R17, R20: no step changes the build, and the history flag is set exactly by a latched fault before or after the action. The lists and the flag are the model's own form of R17 (log entries 2, 3). -/
def Obligations.StepKeepsBuildAndHistory : Prop :=
  ∀ s t : State, step s = .next t →
    t.build = s.build ∧
    (s.pending ≠ [] → t.wentWrong = (s.wentWrong || s.unit.fault || t.unit.fault)) ∧
    t.pending = s.pending.tail ∧ s.replies <+: t.replies
end

