-- ==== Sys2Proof/Laws/State.lean ====
section
/-! SUPPORT. The small lemmas of the state updates: for each named update of Ops.lean, what every field reads afterwards. -/

namespace Sys2Proof.Machine

variable {b : Build} (u : UnitState b)

/-! ### `UnitState.writeE` -/

@[simp] theorem UnitState.writeE_e (r : EReg) (v : b.Elem) :
    (u.writeE r v).e = u.e.set r.val v r.isLt := rfl
@[simp] theorem UnitState.writeE_x (r : EReg) (v : b.Elem) :
    (u.writeE r v).x = u.x := rfl
@[simp] theorem UnitState.writeE_phase (r : EReg) (v : b.Elem) :
    (u.writeE r v).phase = u.phase := rfl
@[simp] theorem UnitState.writeE_fault (r : EReg) (v : b.Elem) :
    (u.writeE r v).fault = u.fault := rfl
@[simp] theorem UnitState.writeE_cause (r : EReg) (v : b.Elem) :
    (u.writeE r v).cause = u.cause := rfl
@[simp] theorem UnitState.writeE_errinfo (r : EReg) (v : b.Elem) :
    (u.writeE r v).errinfo = u.errinfo := rfl
@[simp] theorem UnitState.writeE_rf (r : EReg) (v : b.Elem) :
    (u.writeE r v).rf = u.rf := rfl
@[simp] theorem UnitState.writeE_rfb (r : EReg) (v : b.Elem) :
    (u.writeE r v).rfb = u.rfb := rfl
@[simp] theorem UnitState.writeE_rp (r : EReg) (v : b.Elem) :
    (u.writeE r v).rp = u.rp := rfl
@[simp] theorem UnitState.writeE_opt (r : EReg) (v : b.Elem) :
    (u.writeE r v).opt = u.opt := rfl
@[simp] theorem UnitState.writeE_alpha (r : EReg) (v : b.Elem) :
    (u.writeE r v).alpha = u.alpha := rfl
@[simp] theorem UnitState.writeE_alphaInv (r : EReg) (v : b.Elem) :
    (u.writeE r v).alphaInv = u.alphaInv := rfl
@[simp] theorem UnitState.writeE_m (r : EReg) (v : b.Elem) :
    (u.writeE r v).m = u.m := rfl
@[simp] theorem UnitState.writeE_rc (r : EReg) (v : b.Elem) :
    (u.writeE r v).rc = u.rc := rfl
@[simp] theorem UnitState.writeE_trace (r : EReg) (v : b.Elem) :
    (u.writeE r v).trace = u.trace := rfl
@[simp] theorem UnitState.writeE_traceLen (r : EReg) (v : b.Elem) :
    (u.writeE r v).traceLen = u.traceLen := rfl

/-! ### `UnitState.setX` -/

@[simp] theorem UnitState.setX_e (v : b.Vec) :
    (u.setX v).e = u.e := rfl
@[simp] theorem UnitState.setX_x (v : b.Vec) :
    (u.setX v).x = v := rfl
@[simp] theorem UnitState.setX_phase (v : b.Vec) :
    (u.setX v).phase = u.phase := rfl
@[simp] theorem UnitState.setX_fault (v : b.Vec) :
    (u.setX v).fault = u.fault := rfl
@[simp] theorem UnitState.setX_cause (v : b.Vec) :
    (u.setX v).cause = u.cause := rfl
@[simp] theorem UnitState.setX_errinfo (v : b.Vec) :
    (u.setX v).errinfo = u.errinfo := rfl
@[simp] theorem UnitState.setX_rf (v : b.Vec) :
    (u.setX v).rf = u.rf := rfl
@[simp] theorem UnitState.setX_rfb (v : b.Vec) :
    (u.setX v).rfb = u.rfb := rfl
@[simp] theorem UnitState.setX_rp (v : b.Vec) :
    (u.setX v).rp = u.rp := rfl
@[simp] theorem UnitState.setX_opt (v : b.Vec) :
    (u.setX v).opt = u.opt := rfl
@[simp] theorem UnitState.setX_alpha (v : b.Vec) :
    (u.setX v).alpha = u.alpha := rfl
@[simp] theorem UnitState.setX_alphaInv (v : b.Vec) :
    (u.setX v).alphaInv = u.alphaInv := rfl
@[simp] theorem UnitState.setX_m (v : b.Vec) :
    (u.setX v).m = u.m := rfl
@[simp] theorem UnitState.setX_rc (v : b.Vec) :
    (u.setX v).rc = u.rc := rfl
@[simp] theorem UnitState.setX_trace (v : b.Vec) :
    (u.setX v).trace = u.trace := rfl
@[simp] theorem UnitState.setX_traceLen (v : b.Vec) :
    (u.setX v).traceLen = u.traceLen := rfl

/-! ### `UnitState.writeX` -/

@[simp] theorem UnitState.writeX_e (i : Fin b.t) (v : b.Elem) :
    (u.writeX i v).e = u.e := rfl
@[simp] theorem UnitState.writeX_x (i : Fin b.t) (v : b.Elem) :
    (u.writeX i v).x = u.x.set i.val v i.isLt := rfl
@[simp] theorem UnitState.writeX_phase (i : Fin b.t) (v : b.Elem) :
    (u.writeX i v).phase = u.phase := rfl
@[simp] theorem UnitState.writeX_fault (i : Fin b.t) (v : b.Elem) :
    (u.writeX i v).fault = u.fault := rfl
@[simp] theorem UnitState.writeX_cause (i : Fin b.t) (v : b.Elem) :
    (u.writeX i v).cause = u.cause := rfl
@[simp] theorem UnitState.writeX_errinfo (i : Fin b.t) (v : b.Elem) :
    (u.writeX i v).errinfo = u.errinfo := rfl
@[simp] theorem UnitState.writeX_rf (i : Fin b.t) (v : b.Elem) :
    (u.writeX i v).rf = u.rf := rfl
@[simp] theorem UnitState.writeX_rfb (i : Fin b.t) (v : b.Elem) :
    (u.writeX i v).rfb = u.rfb := rfl
@[simp] theorem UnitState.writeX_rp (i : Fin b.t) (v : b.Elem) :
    (u.writeX i v).rp = u.rp := rfl
@[simp] theorem UnitState.writeX_opt (i : Fin b.t) (v : b.Elem) :
    (u.writeX i v).opt = u.opt := rfl
@[simp] theorem UnitState.writeX_alpha (i : Fin b.t) (v : b.Elem) :
    (u.writeX i v).alpha = u.alpha := rfl
@[simp] theorem UnitState.writeX_alphaInv (i : Fin b.t) (v : b.Elem) :
    (u.writeX i v).alphaInv = u.alphaInv := rfl
@[simp] theorem UnitState.writeX_m (i : Fin b.t) (v : b.Elem) :
    (u.writeX i v).m = u.m := rfl
@[simp] theorem UnitState.writeX_rc (i : Fin b.t) (v : b.Elem) :
    (u.writeX i v).rc = u.rc := rfl
@[simp] theorem UnitState.writeX_trace (i : Fin b.t) (v : b.Elem) :
    (u.writeX i v).trace = u.trace := rfl
@[simp] theorem UnitState.writeX_traceLen (i : Fin b.t) (v : b.Elem) :
    (u.writeX i v).traceLen = u.traceLen := rfl

/-! ### `UnitState.raise` -/

@[simp] theorem UnitState.raise_e (c : Cause) (info : Word) :
    (u.raise c info).e = u.e := rfl
@[simp] theorem UnitState.raise_x (c : Cause) (info : Word) :
    (u.raise c info).x = u.x := rfl
@[simp] theorem UnitState.raise_phase (c : Cause) (info : Word) :
    (u.raise c info).phase = u.phase := rfl
@[simp] theorem UnitState.raise_fault (c : Cause) (info : Word) :
    (u.raise c info).fault = true := rfl
@[simp] theorem UnitState.raise_cause (c : Cause) (info : Word) :
    (u.raise c info).cause = c := rfl
@[simp] theorem UnitState.raise_errinfo (c : Cause) (info : Word) :
    (u.raise c info).errinfo = info := rfl
@[simp] theorem UnitState.raise_rf (c : Cause) (info : Word) :
    (u.raise c info).rf = u.rf := rfl
@[simp] theorem UnitState.raise_rfb (c : Cause) (info : Word) :
    (u.raise c info).rfb = u.rfb := rfl
@[simp] theorem UnitState.raise_rp (c : Cause) (info : Word) :
    (u.raise c info).rp = u.rp := rfl
@[simp] theorem UnitState.raise_opt (c : Cause) (info : Word) :
    (u.raise c info).opt = u.opt := rfl
@[simp] theorem UnitState.raise_alpha (c : Cause) (info : Word) :
    (u.raise c info).alpha = u.alpha := rfl
@[simp] theorem UnitState.raise_alphaInv (c : Cause) (info : Word) :
    (u.raise c info).alphaInv = u.alphaInv := rfl
@[simp] theorem UnitState.raise_m (c : Cause) (info : Word) :
    (u.raise c info).m = u.m := rfl
@[simp] theorem UnitState.raise_rc (c : Cause) (info : Word) :
    (u.raise c info).rc = u.rc := rfl
@[simp] theorem UnitState.raise_trace (c : Cause) (info : Word) :
    (u.raise c info).trace = u.trace := rfl
@[simp] theorem UnitState.raise_traceLen (c : Cause) (info : Word) :
    (u.raise c info).traceLen = u.traceLen := rfl

/-! ### `UnitState.clearFault` -/

@[simp] theorem UnitState.clearFault_e :
    (u.clearFault).e = u.e := rfl
@[simp] theorem UnitState.clearFault_x :
    (u.clearFault).x = u.x := rfl
@[simp] theorem UnitState.clearFault_phase :
    (u.clearFault).phase = u.phase := rfl
@[simp] theorem UnitState.clearFault_fault :
    (u.clearFault).fault = false := rfl
@[simp] theorem UnitState.clearFault_cause :
    (u.clearFault).cause = .none := rfl
@[simp] theorem UnitState.clearFault_errinfo :
    (u.clearFault).errinfo = 0 := rfl
@[simp] theorem UnitState.clearFault_rf :
    (u.clearFault).rf = u.rf := rfl
@[simp] theorem UnitState.clearFault_rfb :
    (u.clearFault).rfb = u.rfb := rfl
@[simp] theorem UnitState.clearFault_rp :
    (u.clearFault).rp = u.rp := rfl
@[simp] theorem UnitState.clearFault_opt :
    (u.clearFault).opt = u.opt := rfl
@[simp] theorem UnitState.clearFault_alpha :
    (u.clearFault).alpha = u.alpha := rfl
@[simp] theorem UnitState.clearFault_alphaInv :
    (u.clearFault).alphaInv = u.alphaInv := rfl
@[simp] theorem UnitState.clearFault_m :
    (u.clearFault).m = u.m := rfl
@[simp] theorem UnitState.clearFault_rc :
    (u.clearFault).rc = u.rc := rfl
@[simp] theorem UnitState.clearFault_trace :
    (u.clearFault).trace = u.trace := rfl
@[simp] theorem UnitState.clearFault_traceLen :
    (u.clearFault).traceLen = u.traceLen := rfl

/-! ### `UnitState.storeTrace` -/

@[simp] theorem UnitState.storeTrace_e (tr : List b.Vec) :
    (u.storeTrace tr).e = u.e := rfl
@[simp] theorem UnitState.storeTrace_x (tr : List b.Vec) :
    (u.storeTrace tr).x = u.x := rfl
@[simp] theorem UnitState.storeTrace_phase (tr : List b.Vec) :
    (u.storeTrace tr).phase = u.phase := rfl
@[simp] theorem UnitState.storeTrace_fault (tr : List b.Vec) :
    (u.storeTrace tr).fault = u.fault := rfl
@[simp] theorem UnitState.storeTrace_cause (tr : List b.Vec) :
    (u.storeTrace tr).cause = u.cause := rfl
@[simp] theorem UnitState.storeTrace_errinfo (tr : List b.Vec) :
    (u.storeTrace tr).errinfo = u.errinfo := rfl
@[simp] theorem UnitState.storeTrace_rf (tr : List b.Vec) :
    (u.storeTrace tr).rf = u.rf := rfl
@[simp] theorem UnitState.storeTrace_rfb (tr : List b.Vec) :
    (u.storeTrace tr).rfb = u.rfb := rfl
@[simp] theorem UnitState.storeTrace_rp (tr : List b.Vec) :
    (u.storeTrace tr).rp = u.rp := rfl
@[simp] theorem UnitState.storeTrace_opt (tr : List b.Vec) :
    (u.storeTrace tr).opt = u.opt := rfl
@[simp] theorem UnitState.storeTrace_alpha (tr : List b.Vec) :
    (u.storeTrace tr).alpha = u.alpha := rfl
@[simp] theorem UnitState.storeTrace_alphaInv (tr : List b.Vec) :
    (u.storeTrace tr).alphaInv = u.alphaInv := rfl
@[simp] theorem UnitState.storeTrace_m (tr : List b.Vec) :
    (u.storeTrace tr).m = u.m := rfl
@[simp] theorem UnitState.storeTrace_rc (tr : List b.Vec) :
    (u.storeTrace tr).rc = u.rc := rfl
@[simp] theorem UnitState.storeTrace_trace (tr : List b.Vec) :
    (u.storeTrace tr).trace = Vector.ofFn fun k => (tr[k.val]?).getD u.trace[k] := rfl
@[simp] theorem UnitState.storeTrace_traceLen (tr : List b.Vec) :
    (u.storeTrace tr).traceLen = BitVec.ofNat 9 tr.length := rfl

/-! ### `UnitState.enterReady` -/

@[simp] theorem UnitState.enterReady_e (k : b.Elem) (rc : Vector b.Vec b.rmax) :
    (u.enterReady k rc).e = u.e := rfl
@[simp] theorem UnitState.enterReady_x (k : b.Elem) (rc : Vector b.Vec b.rmax) :
    (u.enterReady k rc).x = u.x := rfl
@[simp] theorem UnitState.enterReady_phase (k : b.Elem) (rc : Vector b.Vec b.rmax) :
    (u.enterReady k rc).phase = .ready := rfl
@[simp] theorem UnitState.enterReady_fault (k : b.Elem) (rc : Vector b.Vec b.rmax) :
    (u.enterReady k rc).fault = u.fault := rfl
@[simp] theorem UnitState.enterReady_cause (k : b.Elem) (rc : Vector b.Vec b.rmax) :
    (u.enterReady k rc).cause = u.cause := rfl
@[simp] theorem UnitState.enterReady_errinfo (k : b.Elem) (rc : Vector b.Vec b.rmax) :
    (u.enterReady k rc).errinfo = u.errinfo := rfl
@[simp] theorem UnitState.enterReady_rf (k : b.Elem) (rc : Vector b.Vec b.rmax) :
    (u.enterReady k rc).rf = u.rf := rfl
@[simp] theorem UnitState.enterReady_rfb (k : b.Elem) (rc : Vector b.Vec b.rmax) :
    (u.enterReady k rc).rfb = u.rfb := rfl
@[simp] theorem UnitState.enterReady_rp (k : b.Elem) (rc : Vector b.Vec b.rmax) :
    (u.enterReady k rc).rp = u.rp := rfl
@[simp] theorem UnitState.enterReady_opt (k : b.Elem) (rc : Vector b.Vec b.rmax) :
    (u.enterReady k rc).opt = u.opt := rfl
@[simp] theorem UnitState.enterReady_alpha (k : b.Elem) (rc : Vector b.Vec b.rmax) :
    (u.enterReady k rc).alpha = u.alpha := rfl
@[simp] theorem UnitState.enterReady_alphaInv (k : b.Elem) (rc : Vector b.Vec b.rmax) :
    (u.enterReady k rc).alphaInv = k := rfl
@[simp] theorem UnitState.enterReady_m (k : b.Elem) (rc : Vector b.Vec b.rmax) :
    (u.enterReady k rc).m = u.m := rfl
@[simp] theorem UnitState.enterReady_rc (k : b.Elem) (rc : Vector b.Vec b.rmax) :
    (u.enterReady k rc).rc = rc := rfl
@[simp] theorem UnitState.enterReady_trace (k : b.Elem) (rc : Vector b.Vec b.rmax) :
    (u.enterReady k rc).trace = u.trace := rfl
@[simp] theorem UnitState.enterReady_traceLen (k : b.Elem) (rc : Vector b.Vec b.rmax) :
    (u.enterReady k rc).traceLen = u.traceLen := rfl

/-! ### Registers read after a write -/

theorem UnitState.readE_writeE_self (r : EReg) (v : b.Elem) : (u.writeE r v).readE r = v := by
  simp [UnitState.readE]

theorem UnitState.readE_writeE_ne (r q : EReg) (v : b.Elem) (h : q ≠ r) : (u.writeE r v).readE q = u.readE q := by
  have h' : r.val ≠ q.val := fun e => h (Fin.ext e.symm)
  simp [UnitState.readE, Vector.getElem_set_ne _ _ h']

theorem UnitState.writeX_getElem_self (i : Fin b.t) (v : b.Elem) : (u.writeX i v).x[i] = v := by
  simp

theorem UnitState.writeX_getElem_ne (i j : Fin b.t) (v : b.Elem) (h : j ≠ i) : (u.writeX i v).x[j] = u.x[j] := by
  have h' : i.val ≠ j.val := fun e => h (Fin.ext e.symm)
  simp [Vector.getElem_set_ne _ _ h']

/-! ### The number of rounds depends on the round counts alone -/

@[simp] theorem UnitState.rounds_writeE (r : EReg) (v : b.Elem) : (u.writeE r v).rounds = u.rounds := rfl
@[simp] theorem UnitState.rounds_setX (v : b.Vec) : (u.setX v).rounds = u.rounds := rfl
@[simp] theorem UnitState.rounds_writeX (i : Fin b.t) (v : b.Elem) : (u.writeX i v).rounds = u.rounds := rfl
@[simp] theorem UnitState.rounds_raise (c : Cause) (w : Word) : (u.raise c w).rounds = u.rounds := rfl
@[simp] theorem UnitState.rounds_storeTrace (tr : List b.Vec) : (u.storeTrace tr).rounds = u.rounds := rfl

/-- The constants a unit reads for a round the memory has. -/
theorem UnitState.rcRow_of_lt (r : Nat) (h : r < b.rmax) : u.rcRow r = u.rc[r] := by
  simp [UnitState.rcRow, h]

end Sys2Proof.Machine
end

