-- ==== Sys2Proof/Laws/Engine.lean ====
section
/-! SUPPORT. Small lemmas of the engine: the words of its vectors, the recursion of its round loops, and the number of states
they leave. -/

namespace Sys2Proof.Machine

variable {b : Build} (u : UnitState b)

/-! ### Words -/

@[simp] theorem mulVec_getElem (mat : b.Mat) (x : b.Vec) (i : Nat) (h : i < b.t) :
    (mulVec mat x)[i] = dot mat[i] x := by
  simp [mulVec]

@[simp] theorem addVec_getElem (x y : b.Vec) (i : Nat) (h : i < b.t) : (addVec x y)[i] = x[i] ^^^ y[i] := by
  simp [addVec, gfAdd]

@[simp] theorem sbox_getElem (x : b.Vec) (k : b.Elem) (full : Bool) (i : Nat) (h : i < b.t) :
    (sbox x k full)[i] = if full || i == 0 then gfPow b x[i] k else x[i] := by
  simp [sbox]

theorem addrc_of_lt (r : Nat) (x : b.Vec) (h : r < b.rmax) : u.addrc r x = addVec x u.rc[r] := by
  simp [UnitState.addrc, u.rcRow_of_lt r h]

/-! ### Round loops -/

@[simp] theorem forwardRounds_zero (r : Nat) (x : b.Vec) : u.forwardRounds r 0 x = [] := rfl

theorem forwardRounds_succ (r k : Nat) (x : b.Vec) :
    u.forwardRounds r (k + 1) x = u.roundF r x :: u.forwardRounds (r + 1) k (u.roundF r x) := rfl

@[simp] theorem inverseRounds_zero (rs : Nat) (x : b.Vec) : u.inverseRounds rs 0 x = [] := rfl

theorem inverseRounds_succ (rs k : Nat) (x : b.Vec) :
    u.inverseRounds rs (k + 1) x = u.roundI (rs + k) x :: u.inverseRounds rs k (u.roundI (rs + k) x) := rfl

@[simp] theorem forwardRounds_length (r k : Nat) (x : b.Vec) : (u.forwardRounds r k x).length = k := by
  induction k generalizing r x with
  | zero => rfl
  | succ k ih => simp [forwardRounds_succ, ih]

@[simp] theorem inverseRounds_length (rs k : Nat) (x : b.Vec) : (u.inverseRounds rs k x).length = k := by
  induction k generalizing x with
  | zero => rfl
  | succ k ih => simp [inverseRounds_succ, ih]

/-! ### The last state -/

@[simp] theorem lastState_nil (x : b.Vec) : lastState x [] = x := rfl

@[simp] theorem lastState_cons (x y : b.Vec) (tail : List b.Vec) : lastState x (y :: tail) = lastState y tail := by
  cases tail <;> simp [lastState, List.getLast?_cons]

@[simp] theorem lastState_concat (x y : b.Vec) (tail : List b.Vec) : lastState x (tail ++ [y]) = y := by
  simp [lastState]

end Sys2Proof.Machine
end

