-- ==== Sys2Proof/Laws/Field.lean ====
section
/-! SUPPORT. Small lemmas of the field functions: the sum of a family, and the modular inverse of `COMMIT`. -/

namespace Sys2Proof.Machine

@[simp] theorem xorSum_zero {n : Nat} (f : Fin 0 → BitVec n) : xorSum f = 0 := by
  simp [xorSum]

theorem xorSum_succ {n k : Nat} (f : Fin (k + 1) → BitVec n) :
    xorSum f = f 0 ^^^ xorSum fun i : Fin k => f i.succ := by
  simp [xorSum, Fin.foldr_succ]

@[simp] theorem clmulUpTo_zero {n : Nat} (x y : BitVec n) : clmulUpTo x y 0 = 0 := rfl

theorem clmulUpTo_succ {n : Nat} (x y : BitVec n) (k : Nat) :
    clmulUpTo x y (k + 1) =
      clmulUpTo x y k ^^^ (if y.getLsbD k then x.setWidth (2 * n - 1) <<< k else 0) := rfl

@[simp] theorem reduceFrom_zero (b : Build) (c : BitVec (2 * b.n - 1)) : reduceFrom b 0 c = c := rfl

theorem reduceFrom_succ (b : Build) (k : Nat) (c : BitVec (2 * b.n - 1)) :
    reduceFrom b (k + 1) c =
      reduceFrom b k (if c.getLsbD (b.n + k) then c ^^^ (modulus b <<< k) else c) := rfl

@[simp] theorem powFrom_zero (b : Build) (x k r : b.Elem) : powFrom b x k 0 r = r := rfl

theorem powFrom_succ (b : Build) (x k r : b.Elem) (i : Nat) :
    powFrom b x k (i + 1) r =
      powFrom b x k i (if k.getLsbD i then gfMul b (gfMul b r r) x else gfMul b r r) := rfl

/-- One division of Euclid's algorithm keeps `a·s ≡ r` modulo m. -/
theorem modInv_coefficient {a m r0 r1 s0 s1 : Nat} (h0 : a * s0 ≡ r0 [MOD m]) (h1 : a * s1 ≡ r1 [MOD m]) (hm : 0 < m) :
    a * ((s0 + (m - r0 / r1 * s1 % m)) % m) ≡ r0 % r1 [MOD m] := by
  have hlt : r0 / r1 * s1 % m < m := Nat.mod_lt _ hm
  have hsum : (s0 + (m - r0 / r1 * s1 % m)) % m + r0 / r1 * s1 ≡ s0 [MOD m] := by
    calc (s0 + (m - r0 / r1 * s1 % m)) % m + r0 / r1 * s1
        ≡ s0 + (m - r0 / r1 * s1 % m) + r0 / r1 * s1 % m [MOD m] :=
          (Nat.mod_modEq _ _).add (Nat.mod_modEq _ _).symm
      _ = s0 + m := by omega
      _ ≡ s0 [MOD m] := by simp [Nat.ModEq]
  refine Nat.ModEq.add_right_cancel (c := r0 / r1 * (a * s1)) (d := r0 / r1 * r1) (h1.mul_left _) ?_
  calc a * ((s0 + (m - r0 / r1 * s1 % m)) % m) + r0 / r1 * (a * s1)
      = a * ((s0 + (m - r0 / r1 * s1 % m)) % m + r0 / r1 * s1) := by ring
    _ ≡ a * s0 [MOD m] := hsum.mul_left _
    _ ≡ r0 [MOD m] := h0
    _ = r0 % r1 + r0 / r1 * r1 := by rw [Nat.mul_comm]; exact (Nat.mod_add_div r0 r1).symm

/-- The loop's result: a coefficient of the greatest common divisor, below the modulus. -/
theorem modInvLoop_spec {a m : Nat} (hm : 1 < m) :
    ∀ (fuel r0 r1 s0 s1 : Nat), r1 < fuel → a * s0 ≡ r0 [MOD m] → a * s1 ≡ r1 [MOD m] → s0 < m → s1 < m →
      a * modInvLoop m fuel r0 r1 s0 s1 ≡ Nat.gcd r0 r1 [MOD m] ∧ modInvLoop m fuel r0 r1 s0 s1 < m := by
  intro fuel
  induction fuel with
  | zero => intro r0 r1 s0 s1 h; omega
  | succ fuel ih =>
    intro r0 r1 s0 s1 hfuel h0 h1 hs0 hs1
    unfold modInvLoop
    by_cases hr : r1 = 0
    · simp [hr, hs0, h0]
    · have hlt : r0 % r1 < r1 := Nat.mod_lt _ (Nat.pos_of_ne_zero hr)
      have := ih r1 (r0 % r1) s1 _ (by omega) h1 (modInv_coefficient h0 h1 (by omega)) hs1
        (Nat.mod_lt _ (by omega))
      rw [if_neg hr, Nat.gcd_comm r0 r1, Nat.gcd_rec r1 r0, Nat.gcd_comm]
      exact this

/-- `modInv a m` is the inverse of an `a` coprime to m, in [1, m − 1]. -/
theorem modInv_spec {a m : Nat} (hm : 1 < m) (h : Nat.gcd a m = 1) :
    a * modInv a m % m = 1 ∧ 1 ≤ modInv a m ∧ modInv a m < m := by
  obtain ⟨hmod, hlt⟩ := modInvLoop_spec (a := a) hm (m + 1) a m 1 0 (by omega) (by simp [Nat.ModEq])
    (by simp [Nat.ModEq]) hm (by omega)
  rw [h] at hmod
  have e : a * modInv a m % m = 1 := by
    have : a * modInv a m % m = 1 % m := hmod
    rwa [Nat.mod_eq_of_lt hm] at this
  refine ⟨e, Nat.one_le_iff_ne_zero.mpr fun h0 => ?_, hlt⟩
  rw [h0] at e
  simp at e

end Sys2Proof.Machine
end

