-- ==== Sys2Proof/Laws/Ops.lean ====
section
/-! SUPPORT. For each shared operation, everything it can do: the form in which it answers a next state, and the equations
under the conditions that select each case. Cited instead of unfolding. -/

namespace Sys2Proof.Machine

variable {b : Build}

/-! ### Taking an outcome to the whole state -/

theorem onUnit_next {s t : State} {f : UnitState s.build → UnitOutcome s.build} :
    onUnit s f = .next t ↔ ∃ u, f s.unit = .next u ∧ t = { s with unit := u } := by
  unfold onUnit
  cases f s.unit <;> simp [eq_comm]

theorem onUnit_eq_of_next {s : State} {f : UnitState s.build → UnitOutcome s.build} {u : UnitState s.build}
    (h : f s.unit = .next u) : onUnit s f = .next { s with unit := u } := by
  simp [onUnit, h]

theorem onUnit_fault {s : State} {f : UnitState s.build → UnitOutcome s.build} {r : Fault} :
    onUnit s f = .fault r ↔ f s.unit = .fault r := by
  unfold onUnit
  cases f s.unit <;> simp

theorem onUnit_refused {s : State} {f : UnitState s.build → UnitOutcome s.build} {r : Refusal} :
    onUnit s f = .refused r ↔ f s.unit = .refused r := by
  unfold onUnit
  cases f s.unit <;> simp

/-! ### Admission (R61, R69, R192) -/

theorem whenAdmitted_next {adm : Admission} {w : Word} {u v : UnitState b} {body : UnitOutcome b}
    (h : whenAdmitted adm w u body = .next v) :
    (u.fault = true ∧ v = u) ∨
    (u.fault = false ∧ ∃ c, phaseFault adm u.phase = some c ∧ v = u.raise c w) ∨
    (u.fault = false ∧ phaseFault adm u.phase = none ∧ body = .next v) := by
  unfold whenAdmitted at h
  cases hf : u.fault
  · cases hp : phaseFault adm u.phase
    · exact .inr (.inr ⟨rfl, rfl, by simpa [hf, hp] using h⟩)
    · refine .inr (.inl ⟨rfl, _, rfl, ?_⟩)
      simpa [hf, hp, refuseWith, eq_comm] using h
  · exact .inl ⟨rfl, by simpa [hf, eq_comm] using h⟩

theorem whenAdmitted_latched {adm : Admission} {w : Word} {u : UnitState b} {body : UnitOutcome b}
    (hf : u.fault = true) : whenAdmitted adm w u body = .next u := by
  simp [whenAdmitted, hf]

theorem whenAdmitted_any {w : Word} {u : UnitState b} {body : UnitOutcome b} (hf : u.fault = false) :
    whenAdmitted .any w u body = body := by
  simp [whenAdmitted, hf, phaseFault]

theorem whenAdmitted_ready {w : Word} {u : UnitState b} {body : UnitOutcome b} (hf : u.fault = false)
    (hp : u.phase = .ready) : whenAdmitted .ready w u body = body := by
  simp [whenAdmitted, hf, hp, phaseFault]

theorem whenAdmitted_notReady {w : Word} {u : UnitState b} {body : UnitOutcome b} (hf : u.fault = false)
    (hp : u.phase = .config) : whenAdmitted .ready w u body = .next (u.raise .phaseNotReady w) := by
  simp [whenAdmitted, hf, hp, phaseFault, refuseWith]

theorem whenAdmitted_config {w : Word} {u : UnitState b} {body : UnitOutcome b} (hf : u.fault = false)
    (hp : u.phase = .config) : whenAdmitted .config w u body = body := by
  simp [whenAdmitted, hf, hp, phaseFault]

theorem whenAdmitted_locked {w : Word} {u : UnitState b} {body : UnitOutcome b} (hf : u.fault = false)
    (hp : u.phase = .ready) : whenAdmitted .config w u body = .next (u.raise .phaseLocked w) := by
  simp [whenAdmitted, hf, hp, phaseFault, refuseWith]

/-- An admitted command that stops, stops in its own body. -/
theorem whenAdmitted_fault {adm : Admission} {w : Word} {u : UnitState b} {body : UnitOutcome b} {r : Fault}
    (h : whenAdmitted adm w u body = .fault r) : u.fault = false ∧ phaseFault adm u.phase = none ∧ body = .fault r := by
  unfold whenAdmitted at h
  cases hf : u.fault <;> cases hp : phaseFault adm u.phase <;> simp_all [refuseWith]

theorem whenAdmitted_refused {adm : Admission} {w : Word} {u : UnitState b} {body : UnitOutcome b} {r : Refusal}
    (h : whenAdmitted adm w u body = .refused r) :
    u.fault = false ∧ phaseFault adm u.phase = none ∧ body = .refused r := by
  unfold whenAdmitted at h
  cases hf : u.fault <;> cases hp : phaseFault adm u.phase <;> simp_all [refuseWith]

/-! ### Operand checks -/

theorem withStateIndex_of_lt {i : BitVec 8} {w : Word} {u : UnitState b} {body : Fin b.t → UnitOutcome b}
    (h : i.toNat < b.t) : withStateIndex i w u body = body ⟨i.toNat, h⟩ := by
  simp [withStateIndex, h]

theorem withStateIndex_of_ge {i : BitVec 8} {w : Word} {u : UnitState b} {body : Fin b.t → UnitOutcome b}
    (h : b.t ≤ i.toNat) : withStateIndex i w u body = .next (u.raise .inpIndex w) := by
  simp [withStateIndex, Nat.not_lt.mpr h, refuseWith]

theorem withMatrix_of_lt {k : BitVec 4} {w : Word} {u : UnitState b} {body : Fin 6 → UnitOutcome b}
    (h : k.toNat < 6) : withMatrix k w u body = body ⟨k.toNat, h⟩ := by
  simp [withMatrix, h]

theorem withMatrix_of_ge {k : BitVec 4} {w : Word} {u : UnitState b} {body : Fin 6 → UnitOutcome b}
    (h : 6 ≤ k.toNat) : withMatrix k w u body = .next (u.raise .illField w) := by
  simp [withMatrix, Nat.not_lt.mpr h, refuseWith]

theorem withRound_of_lt {r : BitVec 8} {w : Word} {u : UnitState b} {body : Nat → UnitOutcome b}
    (h : r.toNat < u.rounds) (hc : r.toNat < b.rmax) : withRound r w u body = body r.toNat := by
  simp [withRound, withinCapacity, h, Nat.succ_le_of_lt hc]

theorem withRound_of_ge {r : BitVec 8} {w : Word} {u : UnitState b} {body : Nat → UnitOutcome b}
    (h : u.rounds ≤ r.toNat) : withRound r w u body = .next (u.raise .inpRange w) := by
  simp [withRound, Nat.not_lt.mpr h, refuseWith]

theorem withRange_of_legal {p q : BitVec 8} {w : Word} {u : UnitState b} {body : Nat → Nat → UnitOutcome b}
    (h : p.toNat ≤ q.toNat) (hr : q.toNat ≤ u.rounds) (hc : q.toNat ≤ b.rmax) :
    withRange p q w u body = body p.toNat q.toNat := by
  simp [withRange, withinCapacity, h, hr, hc]

theorem withRange_of_illegal {p q : BitVec 8} {w : Word} {u : UnitState b} {body : Nat → Nat → UnitOutcome b}
    (h : ¬(p.toNat ≤ q.toNat ∧ q.toNat ≤ u.rounds)) :
    withRange p q w u body = .next (u.raise .inpRange w) := by
  simp [withRange, h, refuseWith]

/-- A round operand: the range fault, the model's own stop, or the command's effect on a round the memory has. -/
theorem withRound_cases (r : BitVec 8) (w : Word) (u : UnitState b) (body : Nat → UnitOutcome b) :
    (u.rounds ≤ r.toNat ∧ withRound r w u body = .next (u.raise .inpRange w)) ∨
    (r.toNat < u.rounds ∧ b.rmax ≤ r.toNat ∧ withRound r w u body = .fault .roundBeyondCapacity) ∨
    (r.toNat < u.rounds ∧ r.toNat < b.rmax ∧ withRound r w u body = body r.toNat) := by
  rcases Nat.lt_or_ge r.toNat u.rounds with h | h
  · rcases Nat.lt_or_ge r.toNat b.rmax with hc | hc
    · exact .inr (.inr ⟨h, hc, withRound_of_lt h hc⟩)
    · refine .inr (.inl ⟨h, hc, ?_⟩)
      have hn : ¬(r.toNat + 1 ≤ b.rmax) := by omega
      simp [withRound, withinCapacity, h, hn]
  · exact .inl ⟨h, withRound_of_ge h⟩

/-- A round-range operand: the range fault, the model's own stop, or the command's effect on rounds the memory has. -/
theorem withRange_cases (p q : BitVec 8) (w : Word) (u : UnitState b) (body : Nat → Nat → UnitOutcome b) :
    (¬(p.toNat ≤ q.toNat ∧ q.toNat ≤ u.rounds) ∧ withRange p q w u body = .next (u.raise .inpRange w)) ∨
    ((p.toNat ≤ q.toNat ∧ q.toNat ≤ u.rounds) ∧ b.rmax < q.toNat ∧
      withRange p q w u body = .fault .roundBeyondCapacity) ∨
    ((p.toNat ≤ q.toNat ∧ q.toNat ≤ u.rounds) ∧ q.toNat ≤ b.rmax ∧
      withRange p q w u body = body p.toNat q.toNat) := by
  by_cases h : p.toNat ≤ q.toNat ∧ q.toNat ≤ u.rounds
  · rcases Nat.lt_or_ge b.rmax q.toNat with hc | hc
    · exact .inr (.inl ⟨h, hc, by simp [withRange, withinCapacity, h, Nat.not_le.mpr hc]⟩)
    · exact .inr (.inr ⟨h, hc, withRange_of_legal h.1 h.2 hc⟩)
  · exact .inl ⟨h, withRange_of_illegal h⟩

/-- A state-index operand: the index fault or the command's effect. -/
theorem withStateIndex_cases (i : BitVec 8) (w : Word) (u : UnitState b) (body : Fin b.t → UnitOutcome b) :
    (b.t ≤ i.toNat ∧ withStateIndex i w u body = .next (u.raise .inpIndex w)) ∨
    (∃ h : i.toNat < b.t, withStateIndex i w u body = body ⟨i.toNat, h⟩) := by
  rcases Nat.lt_or_ge i.toNat b.t with h | h
  · exact .inr ⟨h, withStateIndex_of_lt h⟩
  · exact .inl ⟨h, withStateIndex_of_ge h⟩

/-- A matrix operand: the field fault or the command's effect. -/
theorem withMatrix_cases (k : BitVec 4) (w : Word) (u : UnitState b) (body : Fin 6 → UnitOutcome b) :
    (6 ≤ k.toNat ∧ withMatrix k w u body = .next (u.raise .illField w)) ∨
    (∃ h : k.toNat < 6, withMatrix k w u body = body ⟨k.toNat, h⟩) := by
  rcases Nat.lt_or_ge k.toNat 6 with h | h
  · exact .inr ⟨h, withMatrix_of_lt h⟩
  · exact .inl ⟨h, withMatrix_of_ge h⟩

/-! ### One host action -/

theorem noteFault_next {s t : State} {o : Outcome} :
    noteFault s o = .next t ↔
      ∃ t', o = .next t' ∧ t = { t' with wentWrong := s.wentWrong || s.unit.fault || t'.unit.fault } := by
  cases o <;> simp [noteFault, eq_comm]

theorem illegalWord_latched {u : UnitState b} {e : DecodeError} {w : Word} (h : u.fault = true) :
    illegalWord u e w = u := by
  simp [illegalWord, h]

theorem illegalWord_clear {u : UnitState b} {e : DecodeError} {w : Word} (h : u.fault = false) :
    illegalWord u e w = u.raise (decodeCause e) w := by
  simp [illegalWord, h]

theorem command_of_decode {w : Word} {i : Instr} {s : State} (h : decode w = .ok i) : command w s = exec i s := by
  simp [command, h]

theorem command_of_error {w : Word} {e : DecodeError} {s : State} (h : decode w = .error e) :
    command w s = .next { s with unit := illegalWord s.unit e w } := by
  simp [command, h]

end Sys2Proof.Machine
end

