-- ==== Sys2Proof/Laws/PerInstr.lean ====
section
/-! SUPPORT. Statements made of every command as syntax, one lemma per constructor: a command's word has the fixed bits of its
row of the opcode table (30_encoding.md R68). -/

namespace Sys2Proof.Laws.MatchesRow

/-- The mask of the command's row in spec/opcode_table.json. -/
def mask : Instr → Word
  | .fli _ _ => 0xFF0F0000
  | .fadd _ _ _ => 0xFF000FFF
  | .fmul _ _ _ => 0xFF000FFF
  | .fpow _ _ _ => 0xFF000FFF
  | .finv _ _ => 0xFF00FFFF
  | .mvex _ _ => 0xFF0FFF00
  | .mvxe _ _ => 0xFF0FFF00
  | .mix _ => 0xFF0FFFFF
  | .arc _ => 0xFFFFFF00
  | .rnd _ => 0xFFFFFF00
  | .rndi _ => 0xFFFFFF00
  | .eval _ _ => 0xFFFF0000
  | .evalT _ _ => 0xFFFF0000
  | .evali _ _ => 0xFFFF0000
  | .evaliT _ _ => 0xFFFF0000
  | .sboxF | .sboxP | .sboxiF | .sboxiP | .commit | .clrf | .srst => 0xFFFFFFFF

/-- The match value of the command's row in spec/opcode_table.json. -/
def pattern : Instr → Word
  | .fli _ _ => 0x01000000
  | .fadd _ _ _ => 0x02000000
  | .fmul _ _ _ => 0x03000000
  | .fpow _ _ _ => 0x04000000
  | .finv _ _ => 0x05000000
  | .mvex _ _ => 0x10000000
  | .mvxe _ _ => 0x11000000
  | .mix _ => 0x20000000
  | .arc _ => 0x28000000
  | .sboxF => 0x30000000
  | .sboxP => 0x31000000
  | .sboxiF => 0x32000000
  | .sboxiP => 0x33000000
  | .rnd _ => 0x40000000
  | .rndi _ => 0x41000000
  | .eval _ _ => 0x48000000
  | .evalT _ _ => 0x48010000
  | .evali _ _ => 0x49000000
  | .evaliT _ _ => 0x49010000
  | .commit => 0xF0000000
  | .clrf => 0xF1000000
  | .srst => 0xFF000000

/-- "a word `w` is this command when `w & mask = match`" (R68), of the command's own word. -/
def Statement (i : Instr) : Prop := encode i &&& mask i = pattern i

/-- Two fields side by side are masked one by one. -/
theorem and_append_of {w v : Nat} {x x' x'' : BitVec w} {y y' y'' : BitVec v} (hx : x &&& x' = x'')
    (hy : y &&& y' = y'') : (x ++ y) &&& (x' ++ y') = x'' ++ y'' := by
  rw [BitVec.and_append, hx, hy]

/-- The fixed bits of format R with twelve must-be-zero bits (R62). -/
theorem formatR_fixed (op : BitVec 8) (d a b : EReg) :
    formatR op d a b &&& (0xFF#8 ++ 0#4 ++ 0#4 ++ 0#4 ++ 0xFFF#12) = op ++ 0#4 ++ 0#4 ++ 0#4 ++ 0#12 :=
  and_append_of (and_append_of (and_append_of (and_append_of BitVec.and_allOnes BitVec.and_zero) BitVec.and_zero) BitVec.and_zero) BitVec.zero_and

/-- The fixed bits of `FINV`: format R with the field b must-be-zero as well (R62). -/
theorem formatR_fixed_noB (op : BitVec 8) (d a : EReg) :
    formatR op d a 0 &&& (0xFF#8 ++ 0#4 ++ 0#4 ++ 0xF#4 ++ 0xFFF#12) = op ++ 0#4 ++ 0#4 ++ 0#4 ++ 0#12 :=
  and_append_of (and_append_of (and_append_of (and_append_of BitVec.and_allOnes BitVec.and_zero) BitVec.and_zero) (by decide)) BitVec.zero_and

/-- The fixed bits of format I (R63). -/
theorem formatI_fixed (op : BitVec 8) (d : EReg) (imm : BitVec 16) :
    formatI op d imm &&& (0xFF#8 ++ 0#4 ++ 0xF#4 ++ 0#16) = op ++ 0#4 ++ 0#4 ++ 0#16 :=
  and_append_of (and_append_of (and_append_of BitVec.and_allOnes BitVec.and_zero) BitVec.zero_and) BitVec.and_zero

/-- The fixed bits of format X (R64). -/
theorem formatX_fixed (op : BitVec 8) (e : EReg) (i : BitVec 8) :
    formatX op e i &&& (0xFF#8 ++ 0#4 ++ 0xFFF#12 ++ 0#8) = op ++ 0#4 ++ 0#12 ++ 0#8 :=
  and_append_of (and_append_of (and_append_of BitVec.and_allOnes BitVec.and_zero) BitVec.zero_and) BitVec.and_zero

/-- The fixed bits of format M (R65). -/
theorem formatM_fixed (op : BitVec 8) (msel : BitVec 4) :
    formatM op msel &&& (0xFF#8 ++ 0#4 ++ 0xFFFFF#20) = op ++ 0#4 ++ 0#20 :=
  and_append_of (and_append_of BitVec.and_allOnes BitVec.and_zero) BitVec.zero_and

/-- The fixed bits of format V (R66). -/
theorem formatV_fixed (op : BitVec 8) (r : BitVec 8) :
    formatV op r &&& (0xFF#8 ++ 0xFFFF#16 ++ 0#8) = op ++ 0#16 ++ 0#8 :=
  and_append_of (and_append_of BitVec.and_allOnes BitVec.zero_and) BitVec.and_zero

/-- The fixed bits of format G, the trace bit among them (R67). -/
theorem formatG_fixed (op : BitVec 8) (tr : BitVec 1) (rs re : BitVec 8) :
    formatG op tr rs re &&& (0xFF#8 ++ 0x7F#7 ++ 1#1 ++ 0#8 ++ 0#8) = op ++ 0#7 ++ tr ++ 0#8 ++ 0#8 :=
  and_append_of (and_append_of (and_append_of (and_append_of BitVec.and_allOnes BitVec.zero_and) BitVec.and_allOnes) BitVec.and_zero) BitVec.and_zero

theorem fli (d : EReg) (imm : BitVec 16) : Statement (.fli d imm) := formatI_fixed 0x01 d imm

theorem fadd (d a b : EReg) : Statement (.fadd d a b) := formatR_fixed 0x02 d a b

theorem fmul (d a b : EReg) : Statement (.fmul d a b) := formatR_fixed 0x03 d a b

theorem fpow (d a b : EReg) : Statement (.fpow d a b) := formatR_fixed 0x04 d a b

theorem finv (d a : EReg) : Statement (.finv d a) := formatR_fixed_noB 0x05 d a

theorem mvex (e : EReg) (i : BitVec 8) : Statement (.mvex e i) := formatX_fixed 0x10 e i

theorem mvxe (e : EReg) (i : BitVec 8) : Statement (.mvxe e i) := formatX_fixed 0x11 e i

theorem mix (msel : BitVec 4) : Statement (.mix msel) := formatM_fixed 0x20 msel

theorem arc (r : BitVec 8) : Statement (.arc r) := formatV_fixed 0x28 r

theorem sboxF : Statement .sboxF := by unfold Statement; decide

theorem sboxP : Statement .sboxP := by unfold Statement; decide

theorem sboxiF : Statement .sboxiF := by unfold Statement; decide

theorem sboxiP : Statement .sboxiP := by unfold Statement; decide

theorem rnd (r : BitVec 8) : Statement (.rnd r) := formatV_fixed 0x40 r

theorem rndi (r : BitVec 8) : Statement (.rndi r) := formatV_fixed 0x41 r

theorem eval (rs re : BitVec 8) : Statement (.eval rs re) := formatG_fixed 0x48 0 rs re

theorem evalT (rs re : BitVec 8) : Statement (.evalT rs re) := formatG_fixed 0x48 1 rs re

theorem evali (rs re : BitVec 8) : Statement (.evali rs re) := formatG_fixed 0x49 0 rs re

theorem evaliT (rs re : BitVec 8) : Statement (.evaliT rs re) := formatG_fixed 0x49 1 rs re

theorem commit : Statement .commit := by unfold Statement; decide

theorem clrf : Statement .clrf := by unfold Statement; decide

theorem srst : Statement .srst := by unfold Statement; decide

end Sys2Proof.Laws.MatchesRow
end

