-- ==== Sys2Proof/Laws/Window.lean ====
section
/-! SUPPORT. The window's stores: what a store leaves unchanged, and everything a host write can do. -/

namespace Sys2Proof.Machine

variable {b : Build} (u : UnitState b)

/-! ### A store to an element touches that element's register or memory only -/

@[simp] theorem UnitState.setElem_phase (l : ElemLoc b) (v : b.Elem) : (u.setElem l v).phase = u.phase := by
  cases l <;> rfl
@[simp] theorem UnitState.setElem_fault (l : ElemLoc b) (v : b.Elem) : (u.setElem l v).fault = u.fault := by
  cases l <;> rfl
@[simp] theorem UnitState.setElem_cause (l : ElemLoc b) (v : b.Elem) : (u.setElem l v).cause = u.cause := by
  cases l <;> rfl
@[simp] theorem UnitState.setElem_errinfo (l : ElemLoc b) (v : b.Elem) : (u.setElem l v).errinfo = u.errinfo := by
  cases l <;> rfl
@[simp] theorem UnitState.setElem_rf (l : ElemLoc b) (v : b.Elem) : (u.setElem l v).rf = u.rf := by
  cases l <;> rfl
@[simp] theorem UnitState.setElem_rfb (l : ElemLoc b) (v : b.Elem) : (u.setElem l v).rfb = u.rfb := by
  cases l <;> rfl
@[simp] theorem UnitState.setElem_rp (l : ElemLoc b) (v : b.Elem) : (u.setElem l v).rp = u.rp := by
  cases l <;> rfl
@[simp] theorem UnitState.setElem_opt (l : ElemLoc b) (v : b.Elem) : (u.setElem l v).opt = u.opt := by
  cases l <;> rfl
@[simp] theorem UnitState.setElem_alphaInv (l : ElemLoc b) (v : b.Elem) : (u.setElem l v).alphaInv = u.alphaInv := by
  cases l <;> rfl
@[simp] theorem UnitState.setElem_trace (l : ElemLoc b) (v : b.Elem) : (u.setElem l v).trace = u.trace := by
  cases l <;> rfl
@[simp] theorem UnitState.setElem_traceLen (l : ElemLoc b) (v : b.Elem) : (u.setElem l v).traceLen = u.traceLen := by
  cases l <;> rfl

/-! ### A store to a word never touches the phase, the latch, `ALPHA_INV` or the trace -/

@[simp] theorem storeLoc_phase (l : Loc b) (w : Word) : (storeLoc u l w).phase = u.phase := by
  cases l <;> simp [storeLoc]
@[simp] theorem storeLoc_fault (l : Loc b) (w : Word) : (storeLoc u l w).fault = u.fault := by
  cases l <;> simp [storeLoc]
@[simp] theorem storeLoc_cause (l : Loc b) (w : Word) : (storeLoc u l w).cause = u.cause := by
  cases l <;> simp [storeLoc]
@[simp] theorem storeLoc_errinfo (l : Loc b) (w : Word) : (storeLoc u l w).errinfo = u.errinfo := by
  cases l <;> simp [storeLoc]
@[simp] theorem storeLoc_alphaInv (l : Loc b) (w : Word) : (storeLoc u l w).alphaInv = u.alphaInv := by
  cases l <;> simp [storeLoc]
@[simp] theorem storeLoc_trace (l : Loc b) (w : Word) : (storeLoc u l w).trace = u.trace := by
  cases l <;> simp [storeLoc]
@[simp] theorem storeLoc_traceLen (l : Loc b) (w : Word) : (storeLoc u l w).traceLen = u.traceLen := by
  cases l <;> simp [storeLoc]

/-! ### Where a store goes -/

theorem setElem_e (q : Fin 16) (v : b.Elem) : u.setElem (.e q) v = u.writeE q v := rfl

theorem setElem_x (q : Fin b.t) (v : b.Elem) : u.setElem (.x q) v = u.writeX q v := rfl

/-! ### What a read returns -/

/-- A read where an element's word stands returns that word of the element (R45). -/
theorem hostRead_elem {i : WordIndex} {l : ElemLoc b} {k : Nat} (h : locate b i = .elem l k) :
    hostRead u i = elemWord (u.elemAt l) k := by
  rw [hostRead, h, readLoc]

/-- A read of an unmapped word returns 0 (R48). -/
theorem hostRead_unmapped {i : WordIndex} (h : locate b i = .unmapped) : hostRead u i = 0 := by
  rw [hostRead, h, readLoc]

/-! ### Everything a write can do -/

/-- A write to a word the host may not write is ignored (R48). -/
theorem hostWrite_ignored {i : WordIndex} (w : Word) (h : locAccess (locate b i) = .ignored) : hostWrite u i w = u := by
  simp [hostWrite, h]

/-- A write to `E` or `X` is stored in both phases and whatever `FAULT` is (R47). -/
theorem hostWrite_free {i : WordIndex} (w : Word) (h : locAccess (locate b i) = .free) :
    hostWrite u i w = storeLoc u (locate b i) w := by
  simp [hostWrite, h]

/-- A write to configuration state in `CONFIG` phase is stored whatever `FAULT` is (R47). -/
theorem hostWrite_config {i : WordIndex} (w : Word) (h : locAccess (locate b i) = .config) (hp : u.phase = .config) :
    hostWrite u i w = storeLoc u (locate b i) w := by
  simp [hostWrite, h, hp]

/-- A write to configuration state in `READY` phase raises `PHASE_LOCKED`, or changes nothing at all (R47). -/
theorem hostWrite_locked {i : WordIndex} (w : Word) (h : locAccess (locate b i) = .config) (hp : u.phase = .ready) :
    hostWrite u i w = if u.fault then u else u.raise .phaseLocked (lockInfo i) := by
  simp [hostWrite, h, hp]

/-- Everything a host write can do: nothing, a store, or the lock's fault. -/
theorem hostWrite_cases (i : WordIndex) (w : Word) :
    hostWrite u i w = u ∨
    ((locAccess (locate b i) = .free ∨ locAccess (locate b i) = .config ∧ u.phase = .config) ∧
      hostWrite u i w = storeLoc u (locate b i) w) ∨
    (locAccess (locate b i) = .config ∧ u.phase = .ready ∧ u.fault = false ∧
      hostWrite u i w = u.raise .phaseLocked (lockInfo i)) := by
  cases h : locAccess (locate b i) with
  | ignored => exact .inl (hostWrite_ignored u w h)
  | free => exact .inr (.inl ⟨.inl rfl, hostWrite_free u w h⟩)
  | config =>
    cases hp : u.phase with
    | config => exact .inr (.inl ⟨.inr ⟨rfl, rfl⟩, hostWrite_config u w h hp⟩)
    | ready =>
      cases hf : u.fault
      · exact .inr (.inr ⟨rfl, rfl, rfl, by simp [hostWrite_locked u w h hp, hf]⟩)
      · exact .inl (by simp [hostWrite_locked u w h hp, hf])

end Sys2Proof.Machine
end

