-- ==== Sys2Proof/Tests/Slice0.lean ====
section
/-! SUPPORT. The model's own tests: expected results are those of spec/95_test_vectors.md (sections cited), words are written out
from 30_encoding.md R62 to R72. Then one witness per statement with hypotheses (and per clause), named after the statement. -/

open Sys2Proof Sys2Proof.Machine Sys2Proof.Claims

namespace Sys2Proof.Tests

set_option maxRecDepth 100000
set_option Elab.async false

/-! ### Helpers -/

/-- What an outcome's next state shows; false where there is none. -/
def after (o : Outcome) (f : State → Bool) : Bool :=
  match o with
  | .next t => f t
  | .fault _ => false
  | .refused _ => false

theorem next_of_after {o : Outcome} {f : State → Bool} (h : after o f = true) : ∃ t, o = .next t ∧ f t = true := by
  cases o with
  | next t => exact ⟨t, rfl, h⟩
  | fault r => simp [after] at h
  | refused r => simp [after] at h

/-- A vector's elements as numbers. -/
def nats {b : Build} (x : b.Vec) : List Nat := x.toList.map (·.toNat)

def vec (b : Build) (l : List Nat) : b.Vec := Vector.ofFn fun i => BitVec.ofNat b.n (l.getD i.val 0)

def mat (b : Build) (l : List (List Nat)) : b.Mat := Vector.ofFn fun i => vec b (l.getD i.val [])

/-- Toy instance A as loaded, before `COMMIT` (section 3). -/
def unitA : UnitState .toyA := { UnitState.reset .toyA with
  rf := 2, rfb := 1, rp := 2, alpha := 7#4
  m := #v[mat .toyA [[2, 1, 1], [1, 2, 1], [1, 1, 2]], mat .toyA [[9, 7, 7], [7, 9, 7], [7, 7, 9]],
    mat .toyA [[1, 1, 1], [1, 2, 3], [1, 4, 5]], mat .toyA [[1, 7, 7], [1, 15, 14], [1, 8, 9]],
    mat .toyA [[2, 1, 1], [1, 3, 1], [1, 1, 4]], mat .toyA [[4, 15, 6], [15, 8, 5], [6, 5, 9]]]
  rc := Vector.ofFn fun r =>
    vec .toyA ([[1, 2, 3], [4, 5, 6], [7, 8, 9], [10, 11, 12]].getD r.val []) }

/-- A state of the toy build. -/
def stateA (u : UnitState .toyA) : State := { State.resetOf .toyA with unit := u }

def loadedA : State := stateA unitA

/-- Toy instance A committed, with the given state vector. -/
def readyUnit (l : List Nat) : UnitState .toyA := { unitA with phase := .ready, alphaInv := 13#4, x := vec .toyA l }

def readyA (l : List Nat) : State := stateA (readyUnit l)

/-- The same with a fault latched. -/
def latchedA : State :=
  { stateA { readyUnit [5, 0, 9] with fault := true, cause := .inpRange, errinfo := 0x48000005 } with wentWrong := true }

/-- A state whose host does one thing next. -/
def doing (s : State) (a : HostAction) : State := { s with pending := [a] }

/-- An uncommitted state of a build with the first element registers set. -/
def fieldState (b : Build) (e : List Nat) : State := { State.resetOf b with
  unit := { UnitState.reset b with e := Vector.ofFn fun i => BitVec.ofNat b.n (e.getD i.val 0) } }

/-- `E[i]` as a number. -/
def eNat (t : State) (i : Fin 16) : Nat := (t.unit.e[i]).toNat

/-- `STATUS`, `ERR` and `ERRINFO` as the host reads them. -/
def faultWords (t : State) : List Word :=
  [hostRead t.unit (wordAt 0x008), hostRead t.unit (wordAt 0x00C), hostRead t.unit (wordAt 0x010)]

/-- The builds of section 2. -/
def build3 : Build := ⟨3, 2, 1, 0x3, by decide, by decide, by decide, by decide, by decide, by decide⟩
def build8 : Build := ⟨8, 4, 16, 0x1B, by decide, by decide, by decide, by decide, by decide, by decide⟩
def build32 : Build := ⟨32, 16, 64, 0x8D, by decide, by decide, by decide, by decide, by decide, by decide⟩
def build64 : Build := ⟨64, 2, 8, 0x1B, by decide, by decide, by decide, by decide, by decide, by decide⟩

/-! ### Well-formedness: the one reserved operand value -/

theorem test_wf_mix_reserved : Instr.wellFormed (.mix 6) = false ∧ Instr.wellFormed (.mix 15) = false := by decide
theorem test_wf_mix_last : WellFormed (.mix 5) := by decide
theorem test_wf_out_of_range_operands : WellFormed (.mvex 4 255) ∧ WellFormed (.evalT 3 2) ∧ WellFormed (.rnd 255) := by decide

/-! ### Decoding: words written out bit by bit from the formats of R62 to R68 -/

/-- Opcode 0x01, d = 3, four zero bits, imm16 = 0x57 (R63). -/
theorem test_decode_fli : decode 0b00000001_0011_0000_0000000001010111 = .ok (.fli 3 0x57) := by decide
/-- Opcode 0x02, d = 0, a = 1, b = 2, twelve zero bits (R62). -/
theorem test_decode_fadd : decode 0b00000010_0000_0001_0010_000000000000 = .ok (.fadd 0 1 2) := by decide
/-- Opcode 0x03, d = 15, a = 14, b = 13 (R62). -/
theorem test_decode_fmul : decode 0b00000011_1111_1110_1101_000000000000 = .ok (.fmul 15 14 13) := by decide
/-- Opcode 0x04, d = 7, a = 1, b = 6 (R62). -/
theorem test_decode_fpow : decode 0b00000100_0111_0001_0110_000000000000 = .ok (.fpow 7 1 6) := by decide
/-- Opcode 0x05, d = 4, a = 1, sixteen zero bits (R62). -/
theorem test_decode_finv : decode 0b00000101_0100_0001_0000_000000000000 = .ok (.finv 4 1) := by decide
/-- Opcode 0x10, e = 4, twelve zero bits, i = 2 (R64). -/
theorem test_decode_mvex : decode 0b00010000_0100_000000000000_00000010 = .ok (.mvex 4 2) := by decide
/-- Opcode 0x11, e = 1, i = 255 (R64). -/
theorem test_decode_mvxe : decode 0b00010001_0001_000000000000_11111111 = .ok (.mvxe 1 255) := by decide
/-- Opcode 0x20, msel = 4, twenty zero bits (R65). -/
theorem test_decode_mix : decode 0b00100000_0100_00000000000000000000 = .ok (.mix 4) := by decide
/-- Opcode 0x28, sixteen zero bits, r = 3 (R66). -/
theorem test_decode_arc : decode 0b00101000_0000000000000000_00000011 = .ok (.arc 3) := by decide
/-- Opcodes 0x30 to 0x33, twenty-four zero bits (R66). -/
theorem test_decode_sbox :
    decode 0b00110000_000000000000000000000000 = .ok .sboxF ∧ decode 0b00110001_000000000000000000000000 = .ok .sboxP ∧
    decode 0b00110010_000000000000000000000000 = .ok .sboxiF ∧ decode 0b00110011_000000000000000000000000 = .ok .sboxiP := by
  decide
/-- Opcodes 0x40 and 0x41, r = 2 and r = 128 (R66). -/
theorem test_decode_rnd :
    decode 0b01000000_0000000000000000_00000010 = .ok (.rnd 2) ∧
    decode 0b01000001_0000000000000000_10000000 = .ok (.rndi 128) := by decide
/-- Opcode 0x48, seven zero bits, TR, rstart = 1, rend = 3 (R67). -/
theorem test_decode_eval :
    decode 0b01001000_0000000_0_00000001_00000011 = .ok (.eval 1 3) ∧
    decode 0b01001000_0000000_1_00000001_00000011 = .ok (.evalT 1 3) := by decide
/-- Opcode 0x49, TR, rstart = 0, rend = 4 (R67). -/
theorem test_decode_evali :
    decode 0b01001001_0000000_0_00000000_00000100 = .ok (.evali 0 4) ∧
    decode 0b01001001_0000000_1_00000000_00000100 = .ok (.evaliT 0 4) := by decide
/-- Opcodes 0xF0, 0xF1, 0xFF (R66). -/
theorem test_decode_system :
    decode 0b11110000_000000000000000000000000 = .ok .commit ∧ decode 0b11110001_000000000000000000000000 = .ok .clrf ∧
    decode 0b11111111_000000000000000000000000 = .ok .srst := by decide
/-- Unassigned opcode bytes (R70). -/
theorem test_decode_illegal_opcode :
    decode 0x00000000 = .error .illOpcode ∧ decode 0x06000000 = .error .illOpcode ∧ decode 0xF2000000 = .error .illOpcode := by
  decide
/-- Non-zero must-be-zero fields (section 2.5, section 9). -/
theorem test_decode_illegal_field :
    decode 0x05011000 = .error .illField ∧ decode 0x01310057 = .error .illField ∧ decode 0x48020004 = .error .illField ∧
    decode 0xFFFFFFFF = .error .illField := by decide
theorem test_decode_table_word : decodeTableWord 32 0x10400002 = some (.mvex 4 2) := by decide
/-- The words of section 2.5 and R72. -/
theorem test_encode_words :
    encode (.fli 15 2) = 0x01F00002 ∧ encode (.fmul 1 1 1) = 0x03111000 ∧ encode (.mvxe 1 0) = 0x11100000 ∧
    encode (.evaliT 1 3) = 0x49010103 := by decide
theorem test_text :
    (Instr.evalT 1 3).text = "EVAL.T 1, 3" ∧ (Instr.mix 3).text = "MIX MF_INV" ∧ (Instr.mvxe 1 0).text = "MVXE 0, e1" := by
  decide +kernel

/-! ### Field arithmetic (section 2) -/

/-- 2.1: clmul(B, D) = 0x7F, reduced to 6. -/
theorem test_clmul_reduce : (clmul 0xB#4 0xD#4).toNat = 0x7F ∧ (gfMul .toyA 0xB#4 0xD#4).toNat = 6 := by decide
/-- 2.2: the row of 2 in GF(2^3). -/
theorem test_mul_gf8_row :
    (List.range 8).map (fun k => (gfMul build3 2#3 (BitVec.ofNat 3 k)).toNat) = [0, 2, 4, 6, 3, 1, 7, 5] := by decide +kernel
/-- 2.3 -/
theorem test_mul_n8 :
    (gfMul build8 0x57#8 0x83#8).toNat = 0xC1 ∧ (gfMul build8 0x80#8 0x80#8).toNat = 0x9A ∧
    (gfInv build8 0x53#8).toNat = 0xCA := by decide +kernel
/-- 2.4 -/
theorem test_mul_n32 :
    (gfMul build32 0x12345678#32 0x9ABCDEF0#32).toNat = 0x717B52D0 ∧ (gfInv build32 0x12345678#32).toNat = 0x071C317D := by
  decide +kernel
/-- 2.4 -/
theorem test_mul_n64 : (gfMul build64 0x0123456789ABCDEF#64 0xFEDCBA9876543210#64).toNat = 0x48827AB55D976FA0 := by
  decide +kernel
/-- 2.1: the powers of 2. -/
theorem test_pow_table :
    (List.range 16).map (fun k => (gfPow .toyA 2#4 (BitVec.ofNat 4 k)).toNat) =
      [1, 2, 4, 8, 3, 6, 12, 11, 5, 10, 7, 14, 15, 13, 9, 1] := by decide +kernel
/-- 2.1: pow(0, 0) = 1, pow(0, 5) = 0. -/
theorem test_pow_zero : (gfPow .toyA 0#4 0#4).toNat = 1 ∧ (gfPow .toyA 0#4 5#4).toNat = 0 := by decide
/-- 2.3, 2.4: 7⁻¹ mod 255 = 0x49, 7⁻¹ mod (2^32 − 1) = 0x49249249. -/
theorem test_mod_inverse : modInv 7 255 = 0x49 ∧ modInv 7 (2 ^ 32 - 1) = 0x49249249 := by decide +kernel

/-! ### Field commands and moves (sections 2.5, 8) -/

theorem test_fli_truncates : after (execFli 0 0x12 State.reset) (fun t => eNat t 0 == 2) = true := by decide
theorem test_fli_zero_extends :
    after (execFli 0 0xFFFF (State.resetOf build32)) (fun t => eNat t 0 == 0x0000FFFF) = true := by decide +kernel
theorem test_fadd : after (execFadd 0 1 2 (fieldState build8 [0, 0x57, 0x83])) (fun t => eNat t 0 == 0xD4) = true := by
  decide +kernel
theorem test_fadd_self : after (execFadd 1 1 1 (fieldState build8 [0, 0x57])) (fun t => eNat t 1 == 0) = true := by
  decide +kernel
theorem test_fmul_square : after (execFmul 1 1 1 (fieldState build8 [0, 0x57])) (fun t => eNat t 1 == 0xA5) = true := by
  decide +kernel
theorem test_fpow : after (execFpow 7 1 6 (fieldState build8 [0, 0x57, 0, 0, 0, 0, 7])) (fun t => eNat t 7 == 0x9B) = true := by
  decide +kernel
theorem test_fpow_same_register : after (execFpow 0 1 1 (fieldState build8 [0, 2])) (fun t => eNat t 0 == 4) = true := by
  decide +kernel
theorem test_finv : after (execFinv 4 1 (fieldState build8 [0, 0x57])) (fun t => eNat t 4 == 0xBF) = true := by decide +kernel
theorem test_finv_zero :
    after (execFinv 0 1 (fieldState build8 [9])) (fun t => faultWords t == [2, 0x20, 0x05010000] && eNat t 0 == 9) = true := by
  decide +kernel
theorem test_mvex : after (execMvex 4 2 (readyA [5, 0, 9])) (fun t => eNat t 4 == 9) = true := by decide +kernel
theorem test_mvex_index :
    after (execMvex 0 3 (readyA [5, 0, 9])) (fun t => faultWords t == [3, 0x31, 0x10000003]) = true := by decide +kernel
theorem test_mvxe :
    after (execMvxe 0 0 (stateA { readyUnit [5, 0, 9] with e := (UnitState.reset .toyA).e.set 0 7#4 }))
      (fun t => nats t.unit.x == [7, 0, 9]) = true := by decide +kernel
theorem test_mvxe_index :
    after (execMvxe 1 255 (readyA [5, 0, 9])) (fun t => faultWords t == [3, 0x31, 0x111000FF]) = true := by decide +kernel

/-! ### The engine (sections 4 to 6), toy instance A -/

theorem test_mix_mf : after (execMix 2 (readyA [5, 0, 9])) (fun t => nats t.unit.x == [0xC, 0xD, 0xE]) = true := by decide +kernel
theorem test_mix_reserved :
    after (execMix 6 (readyA [5, 0, 9])) (fun t => faultWords t == [3, 0x41, 0x20600000]) = true := by decide +kernel
theorem test_arc : after (execArc 3 (readyA [5, 0, 9])) (fun t => nats t.unit.x == [0xF, 0xB, 5]) = true := by decide +kernel
theorem test_arc_range :
    after (execArc 4 (readyA [5, 0, 9])) (fun t => faultWords t == [3, 0x30, 0x28000004]) = true := by decide +kernel
theorem test_sbox_full : after (execSboxF (readyA [2, 3, 15])) (fun t => nats t.unit.x == [0xB, 0xD, 0xA]) = true := by
  decide +kernel
theorem test_sbox_partial : after (execSboxP (readyA [2, 3, 15])) (fun t => nats t.unit.x == [0xB, 3, 0xF]) = true := by
  decide +kernel
theorem test_sboxi_full : after (execSboxiF (readyA [14, 0, 5])) (fun t => nats t.unit.x == [5, 0, 9]) = true := by
  decide +kernel
theorem test_sboxi_partial : after (execSboxiP (readyA [2, 3, 15])) (fun t => nats t.unit.x == [0xD, 3, 0xF]) = true := by
  decide +kernel
theorem test_rnd_full : after (execRnd 3 (readyA [5, 0, 9])) (fun t => nats t.unit.x == [7, 0xD, 5]) = true := by decide +kernel
theorem test_rnd_partial : after (execRnd 2 (readyA [5, 0, 9])) (fun t => nats t.unit.x == [0xD, 0, 3]) = true := by
  decide +kernel
theorem test_rndi_full : after (execRndi 0 (readyA [5, 0, 9])) (fun t => nats t.unit.x == [0xD, 0xF, 9]) = true := by
  decide +kernel
theorem test_rndi_partial : after (execRndi 1 (readyA [5, 0, 9])) (fun t => nats t.unit.x == [0xA, 8, 6]) = true := by
  decide +kernel
theorem test_eval : after (execEval 0 4 (readyA [1, 2, 3])) (fun t => nats t.unit.x == [0xB, 8, 0xD]) = true := by decide +kernel
theorem test_eval_range :
    after (execEval 3 2 (readyA [1, 2, 3])) (fun t => faultWords t == [3, 0x30, 0x48000302]) = true := by decide +kernel
theorem test_evalT :
    after (execEvalT 0 4 (readyA [1, 2, 3])) (fun t =>
      t.unit.traceLen == 6 && (t.unit.trace.toList.take 6).map nats ==
        [[1, 2, 3], [3, 6, 5], [4, 0, 4], [7, 13, 13], [1, 11, 6], [11, 8, 13]]) = true := by decide +kernel
theorem test_evalT_empty :
    after (execEvalT 0 0 (readyA [1, 2, 3])) (fun t =>
      t.unit.traceLen == 1 && nats t.unit.x == [1, 2, 3]) = true := by decide +kernel
theorem test_evali : after (execEvali 0 4 (readyA [11, 8, 13])) (fun t => nats t.unit.x == [1, 2, 3]) = true := by decide +kernel
theorem test_evaliT :
    after (execEvaliT 0 4 (readyA [1, 2, 3])) (fun t =>
      t.unit.traceLen == 6 && (t.unit.trace.toList.take 6).map nats ==
        [[1, 2, 3], [12, 8, 3], [2, 3, 1], [12, 6, 12], [13, 10, 15], [7, 11, 8]]) = true := by decide +kernel

/-! ### System commands (section 8) -/

theorem test_commit :
    after (execCommit loadedA) (fun t => t.unit.alphaInv.toNat == 13 && faultWords t == [1, 0, 0]) = true := by decide +kernel
theorem test_commit_optimizes :
    after (execCommit (stateA { unitA with opt := true })) (fun t =>
      (t.unit.rc.toList.take 4).map nats == [[1, 2, 3], [4, 0, 0], [7, 0, 0], [10, 11, 12]]) = true := by decide +kernel
theorem test_clrf :
    after (execClrf latchedA) (fun t => faultWords t == [1, 0, 0] && nats t.unit.x == [5, 0, 9]) = true := by decide +kernel
theorem test_srst : after (execSrst latchedA) (fun t => decide (t.unit = UnitState.reset t.build)) = true := by decide +kernel

/-! ### The window and the order of checks (section 9) -/

theorem test_id_words :
    [hostRead (UnitState.reset .toyA) (wordAt 0x000), hostRead (UnitState.reset .toyA) (wordAt 0x004),
      hostRead (UnitState.reset .toyA) (wordAt 0x308)] = [0x01030004, 0x00000108, 3] := by decide +kernel
theorem test_id_words_n64 :
    [hostRead (UnitState.reset build64) (wordAt 0x000), hostRead (UnitState.reset build64) (wordAt 0x004),
      hostRead (UnitState.reset build64) (wordAt 0x310), hostRead (UnitState.reset build64) (wordAt 0x314)] =
        [0x01020040, 0x00000208, 0x1B, 0] := by decide +kernel
/-- P2: ALPHA_INV at 0x304; section 3: MF_INV[1][2] = E and RC[3][2] = C at their offsets. -/
theorem test_read_configuration :
    [hostRead (readyUnit []) (wordAt 0x00304), hostRead (readyUnit []) (wordAt 0x28014),
      hostRead (readyUnit []) (wordAt 0x4002C)] = [0xD, 0xE, 0xC] := by decide +kernel
/-- P3: the last word of entry 1 and the first of entry 5, after `EVAL.T 0, 4` on [1 2 3]. -/
theorem test_read_trace :
    after (execEvalT 0 4 (readyA [1, 2, 3])) (fun t =>
      hostRead t.unit (wordAt 0x80014) == 5 && hostRead t.unit (wordAt 0x8003C) == 0xB) = true := by decide +kernel
/-- P5: the two words of E1. -/
theorem test_read_two_words :
    [hostRead (fieldState build64 [0, 0xFEDCBA9876543210]).unit (wordAt 0x108),
      hostRead (fieldState build64 [0, 0xFEDCBA9876543210]).unit (wordAt 0x10C)] = [0x76543210, 0xFEDCBA98] := by
  decide +kernel
theorem test_write_locked :
    after (step (doing (readyA [5, 0, 9]) (.write (wordAt 0x20000) 7))) (fun t =>
      faultWords t == [3, 0x51, 0x80020000] && hostRead t.unit (wordAt 0x20000) == 1) = true := by decide +kernel
theorem test_write_x_latched :
    after (step (doing latchedA (.write (wordAt 0x400) 5))) (fun t => nats t.unit.x == [5, 0, 9] && t.unit.fault) = true := by
  decide +kernel
theorem test_write_upper_bits_ignored :
    after (step (doing State.reset (.write (wordAt 0x100) 0xFFFFFFFF))) (fun t => eNat t 0 == 0xF) = true := by decide +kernel
/-- P5: only the low word of E0 rewritten. -/
theorem test_torn_element :
    after (step (doing (fieldState build64 [0x0123456789ABCDEF]) (.write (wordAt 0x100) 0))) (fun t =>
      eNat t 0 == 0x0123456700000000) = true := by decide +kernel
theorem test_priority_config :
    after (step (State.reset.withFetchWord 32 0x20700000)) (fun t => faultWords t == [2, 0x50, 0x20700000]) = true ∧
    after (step (State.reset.withFetchWord 32 0x40000109)) (fun t => faultWords t == [2, 0x41, 0x40000109]) = true := by
  decide +kernel
theorem test_commit_after_reset :
    after (step (State.reset.withFetchWord 32 0xF0000000)) (fun t =>
      faultWords t == [2, 0x11, 0xF0000000] && t.wentWrong) = true := by decide +kernel
theorem test_first_step_runs :
    after (step (State.reset.withFetchWord 32 0x01300057)) (fun t => eNat t 3 == 7 && t.pending.isEmpty) = true := by decide

/-! ### Witnesses: states and operands that meet the hypotheses of the statements -/

/-- An action whose step answers a next state with a property. -/
abbrev Steps (s : State) (p : State → Prop) : Prop := ∃ t, step s = .next t ∧ p t

theorem steps_of_after {s : State} {p : State → Prop} {f : State → Bool} (hf : ∀ t, f t = true → p t)
    (h : after (step s) f = true) : Steps s p := by
  obtain ⟨t, ht, hft⟩ := next_of_after h
  exact ⟨t, ht, hf t hft⟩

theorem forall_of_all {α : Type} {l : List α} {p : α → Prop} {f : α → Bool} (hf : ∀ x, f x = true → p x)
    (h : l.all f = true) : ∀ x ∈ l, p x := fun x hx => hf x (List.all_eq_true.mp h x hx)

def sendWord (s : State) (w : Word) : State := doing s (.write cmdIndex w)

theorem witness_reset_input : (doing latchedA .reset).pending = .reset :: [] := rfl

theorem witness_step_runs :
    (sendWord State.reset 0x02012000).pending = .write cmdIndex 0x02012000 :: [] ∧
    decode 0x02012000 = .ok (.fadd 0 1 2) := ⟨rfl, by decide⟩

theorem witness_step_runs_table : decodeTableWord 32 0x02012000 = some (.fadd 0 1 2) := by decide

/-- Words that do not decode (section 9), with `FAULT = 0`. -/
theorem witness_step_illegal :
    (sendWord State.reset 0x06000000).pending = .write cmdIndex 0x06000000 :: [] ∧
    (sendWord State.reset 0x06000000).unit.fault = false ∧ decode 0x06000000 = .error .illOpcode ∧
    (sendWord State.reset 0x40000109).pending = .write cmdIndex 0x40000109 :: [] ∧
    (sendWord State.reset 0x40000109).unit.fault = false ∧ decode 0x40000109 = .error .illField :=
  ⟨rfl, rfl, by decide, rfl, rfl, by decide⟩

theorem witness_step_reads : (doing State.reset (.read (wordAt 0x008))).pending = .read (wordAt 0x008) :: [] := rfl

theorem witness_step_writes :
    (doing State.reset (.write (wordAt 0x018) 7)).pending = .write (wordAt 0x018) 7 :: [] ∧ wordAt 0x018 ≠ wordAt 0x014 :=
  ⟨rfl, by decide⟩

theorem witness_step_idle : State.reset.pending = [] := rfl

theorem witness_order_latched : latchedA.unit.fault = true := rfl

theorem witness_order_opcode :
    State.reset.unit.fault = false ∧ ∀ row ∈ opcodeBytes, (0x06000000 : Word).extractLsb' 24 8 ≠ row.1 :=
  ⟨rfl, forall_of_all (f := fun row => (0x06000000 : Word).extractLsb' 24 8 != row.1) (fun _ h => by simpa using h)
    (by decide +kernel)⟩

/-- `RND` with bit 8 set (section 9): the field check. -/
theorem witness_order_field :
    ((0x40, 0x00FFFF00) : BitVec 8 × Word) ∈ opcodeBytes ∧ (0x40000109 : Word).extractLsb' 24 8 = 0x40 ∧
    (0x40000109 : Word) &&& 0x00FFFF00 ≠ 0 := by decide

theorem witness_order_not_ready :
    (0x40000009 : Word).extractLsb' 24 8 = 0x40 ∧ (0x40000009 : Word) &&& 0x00FFFF00 = 0 ∧ 0x40 ∈ readyOpcodes ∧
    State.reset.unit.phase = .config := by decide

theorem witness_order_locked :
    ((0xF0, 0x00FFFFFF) : BitVec 8 × Word) ∈ opcodeBytes ∧ (0xF0000000 : Word).extractLsb' 24 8 = 0xF0 ∧
    (0xF0000000 : Word) &&& 0x00FFFFFF = 0 ∧ (readyA [1, 2, 3]).unit.phase = .ready ∧
    (readyA [1, 2, 3]).unit.fault = false := ⟨by decide, by decide, by decide, rfl, rfl⟩

theorem witness_latched_ignored :
    (sendWord latchedA 0xF1000001).pending = .write cmdIndex 0xF1000001 :: [] ∧ (sendWord latchedA 0xF1000001).unit.fault = true ∧
    (0xF1000001 : Word) ≠ 0xF1000000 ∧ (0xF1000001 : Word) ≠ 0xFF000000 := ⟨rfl, rfl, by decide, by decide⟩

/-- For the `MustBeZero` clauses: every opcode byte has words. -/
theorem witness_must_be_zero : ∀ row ∈ opcodeBytes, (row.1 ++ 0x1#24 : Word).extractLsb' 24 8 = row.1 :=
  forall_of_all (f := fun row => (row.1 ++ 0x1#24 : Word).extractLsb' 24 8 == row.1) (fun _ h => by simpa using h)
    (by decide +kernel)

/-- For the `NeedsReady` clauses. -/
theorem witness_needs_ready : State.reset.unit.fault = false ∧ State.reset.unit.phase = .config := ⟨rfl, rfl⟩

theorem witness_accepting : Accepting State.reset ∧ Accepting (readyA [5, 0, 9]) := ⟨rfl, rfl⟩

theorem witness_finv :
    (State.resetOf .toyA).unit.e[(3 : Fin 16)] = 0 ∧
    (stateA { unitA with e := unitA.e.set 3 9#4 }).unit.e[(3 : Fin 16)] ≠ 0 := by
  refine ⟨?_, ?_⟩ <;> decide +kernel

theorem witness_state_index : (2#8).toNat < Build.toyA.t ∧ Build.toyA.t ≤ (3#8).toNat := by decide

theorem witness_ready : Ready (readyA [5, 0, 9]) := ⟨rfl, rfl⟩

theorem witness_matrix_select : (5#4).toNat < 6 ∧ 6 ≤ (6#4).toNat := by decide

/-- `R` = 4 of `RMAX` = 8. -/
theorem witness_round_index :
    (3#8).toNat < Build.toyA.rmax ∧ (3#8).toNat < roundsOf (readyA [5, 0, 9]) ∧ roundsOf (readyA [5, 0, 9]) ≤ (4#8).toNat := by
  refine ⟨by decide, ?_, ?_⟩ <;> decide +kernel

/-- Rounds 0 and 3 are full, 1 and 2 partial (S12). -/
theorem witness_round_types :
    FullRound (readyUnit []) 0 ∧ ¬FullRound (readyUnit []) 1 ∧ ¬FullRound (readyUnit []) 2 ∧ FullRound (readyUnit []) 3 := by
  simp only [FullRound]
  decide +kernel

/-- Legal ranges: the whole, and the empty ones at both ends. -/
theorem witness_ranges :
    ∀ p ∈ [((0, 4) : BitVec 8 × BitVec 8), (0, 0), (4, 4)],
      p.1.toNat ≤ p.2.toNat ∧ p.2.toNat ≤ roundsOf (readyA [1, 2, 3]) ∧ p.2.toNat ≤ Build.toyA.rmax := by
  simp only [List.mem_cons, List.not_mem_nil, or_false, forall_eq_or_imp, forall_eq]
  decide +kernel

theorem witness_illegal_ranges :
    ∀ p ∈ [((0, 5) : BitVec 8 × BitVec 8), (4, 3)],
      ¬(p.1.toNat ≤ p.2.toNat ∧ p.2.toNat ≤ roundsOf (readyA [1, 2, 3])) := by
  simp only [List.mem_cons, List.not_mem_nil, or_false, forall_eq_or_imp, forall_eq]
  decide +kernel

theorem witness_range_split : (0#8).toNat ≤ (0#8).toNat ∧ (0#8).toNat ≤ (4#8).toNat := by decide

theorem check_iff {b : Build} {u : UnitState b} {p q : Fin 6} : u.isInversePair p q = true ↔ PairIsIdentity u p q := by
  unfold UnitState.isInversePair
  rw [decide_eq_true_iff]
  exact Iff.rfl

theorem pair_of_check {b : Build} {u : UnitState b} {p q : Fin 6} (h : u.isInversePair p q = true) : PairIsIdentity u p q :=
  check_iff.mp h

theorem not_pair_of_check {b : Build} {u : UnitState b} {p q : Fin 6} (h : u.isInversePair p q = false) :
    ¬PairIsIdentity u p q := fun hp => by simp [check_iff.mpr hp] at h

theorem pairs_unitA : PairIsIdentity unitA 0 1 ∧ PairIsIdentity unitA 2 3 ∧ PairIsIdentity unitA 4 5 :=
  ⟨pair_of_check (by decide +kernel), pair_of_check (by decide +kernel), pair_of_check (by decide +kernel)⟩

/-- `COMMIT` succeeds: the loads of section 3. -/
theorem witness_commit_success :
    Accepting loadedA ∧ loadedA.unit.phase = .config ∧ loadedA.unit.rfb.toNat ≤ loadedA.unit.rf.toNat ∧
    loadedA.unit.rf.toNat + loadedA.unit.rp.toNat ≤ loadedA.build.rmax ∧ Nat.gcd loadedA.unit.alpha.toNat (2 ^ 4 - 1) = 1 ∧
    PairIsIdentity loadedA.unit 0 1 ∧ PairIsIdentity loadedA.unit 2 3 ∧ PairIsIdentity loadedA.unit 4 5 :=
  ⟨rfl, rfl, by decide, by decide, by decide, pairs_unitA.1, pairs_unitA.2.1, pairs_unitA.2.2⟩

/-- `RFB` = 3 over `RF` = 2; `RP` = 7 over `RMAX` = 8 (section 8). -/
theorem witness_commit_rounds :
    (stateA { unitA with rfb := 3 }).unit.rf.toNat < (stateA { unitA with rfb := 3 }).unit.rfb.toNat ∧
    Build.toyA.rmax < (stateA { unitA with rp := 7 }).unit.rf.toNat + (stateA { unitA with rp := 7 }).unit.rp.toNat := by decide

theorem witness_commit_alpha : Nat.gcd (stateA { unitA with alpha := 3#4 }).unit.alpha.toNat (2 ^ 4 - 1) ≠ 1 := by decide

/-- A loaded unit with one matrix zeroed. -/
def without (k : Fin 6) : UnitState .toyA := { unitA with m := unitA.m.set k.val (zeroMat .toyA) k.isLt }

theorem witness_commit_pairs :
    ¬PairIsIdentity (without 1) 0 1 ∧ (PairIsIdentity (without 3) 0 1 ∧ ¬PairIsIdentity (without 3) 2 3) ∧
    (PairIsIdentity (without 5) 0 1 ∧ PairIsIdentity (without 5) 2 3 ∧ ¬PairIsIdentity (without 5) 4 5) :=
  ⟨not_pair_of_check (by decide +kernel),
    ⟨pair_of_check (by decide +kernel), not_pair_of_check (by decide +kernel)⟩,
    pair_of_check (by decide +kernel), pair_of_check (by decide +kernel), not_pair_of_check (by decide +kernel)⟩

theorem witness_round_counts : unitA.rfb.toNat ≤ unitA.rf.toNat := by decide

/-- Section 2.1: 0x7F = 7·f ⊕ 6. -/
theorem witness_residue :
    (7#4).toNat < 2 ^ 3 ∧ 0x7F#7 = ((7#4).setWidth 7 <<< 4) ^^^ clmul 7#4 0x3#4 ^^^ (6#4).setWidth 7 := by decide

theorem witness_exponents : (7#4).toNat + (8#4).toNat < 2 ^ 4 ∧ (3#4).toNat * (5#4).toNat < 2 ^ 4 := by decide

theorem witness_poly_irreducible : PolyIrreducible .toyA := by
  have h : ∀ g h : Fin 16, 2 ≤ g.val → 2 ≤ h.val →
      (clmul (BitVec.ofFin g : BitVec 4) (BitVec.ofFin h)).toNat ≠ (modulus .toyA).toNat := by decide +kernel
  exact fun p q hp hq he => h p.toFin q.toFin hp hq (congrArg BitVec.toNat he)

theorem witness_field_laws :
    (2#4 : Build.toyA.Elem) ≠ 0 ∧ (gfMul .toyA 2#4 9#4).toNat = 1 ∧ (gfMul .toyA 0#4 9#4).toNat = 0 ∧
    Nat.gcd (7#4).toNat (2 ^ 4 - 1) = 1 ∧ (7#4).toNat * (13#4).toNat % (2 ^ 4 - 1) = 1 := by decide +kernel

theorem witness_order : (List.finRange 3).reverse.Perm (List.finRange 3) := List.reverse_perm _

theorem instance_readyUnit (l : List Nat) : InstanceValid (readyUnit l) where
  rfb_le_rf := by simp only [readyUnit, unitA]; decide
  rounds_le_rmax := by simp only [readyUnit, unitA]; decide
  alpha_coprime := by simp only [readyUnit, unitA]; decide
  one_le_alphaInv := by simp only [readyUnit]; decide
  alphaInv_le := by simp only [readyUnit]; decide
  alpha_mul_alphaInv := by simp only [readyUnit, unitA]; decide
  minit_pair := pairs_unitA.1
  mf_pair := pairs_unitA.2.1
  mp_pair := pairs_unitA.2.2
  optimized := by intro h; simp [readyUnit, unitA, UnitState.reset] at h

theorem witness_instance : InstanceValid (readyUnit [1, 2, 3]) := instance_readyUnit _

theorem inv_readyA (l : List Nat) : Inv (readyA l) where
  unit_inv := {
    latch := ⟨fun _ => rfl, fun _ => rfl, fun h => nomatch h⟩
    ready_valid := fun _ => instance_readyUnit l
    config_alphaInv := fun h => nomatch h
    traceLen_le := Nat.zero_le _ }
  fault_noted := fun h => nomatch h

theorem witness_inv_ready : Inv (readyA [1, 2, 3]) := inv_readyA _

theorem witness_inv_reset : Inv State.reset where
  unit_inv := {
    latch := ⟨fun _ => rfl, fun _ => rfl, fun h => nomatch h⟩
    ready_valid := fun h => nomatch h
    config_alphaInv := fun _ => rfl
    traceLen_le := Nat.zero_le _ }
  fault_noted := fun h => nomatch h

/-- The last positions of the toy build. -/
def pos (i : Nat) (h : i < 3 := by decide) : Fin Build.toyA.t := ⟨i, h⟩
def row (r : Nat) (h : r < 8 := by decide) : Fin Build.toyA.rmax := ⟨r, h⟩

theorem witness_words : 0 < Build.toyA.ew ∧ 1 < build64.ew := by decide

theorem witness_located : 0x104 % 4 = 0 ∧ locateOffset build64 0x104 = .elem (.e 0) 1 := by decide +kernel

theorem witness_writable :
    Writable unitA .alpha ∧ Writable unitA (.m 5 (pos 2) (pos 2)) ∧ Writable (readyUnit []) (.x (pos 2)) ∧ Writable (readyUnit []) (.e 15) :=
  ⟨.inr ⟨rfl, rfl⟩, .inr ⟨rfl, rfl⟩, .inl rfl, .inl rfl⟩

/-- The last element of each writable region (T = 3, RMAX = 8). -/
theorem witness_places :
    locate .toyA (wordAt 0x0013C) = .elem (.e 15) 0 ∧ locate .toyA (wordAt 0x00408) = .elem (.x (pos 2)) 0 ∧
    locate .toyA (wordAt 0x00300) = .elem .alpha 0 ∧ locate .toyA (wordAt 0x38020) = .elem (.m 5 (pos 2) (pos 2)) 0 ∧
    locate .toyA (wordAt 0x4005C) = .elem (.rc (row 7) (pos 2)) 0 := by
  decide +kernel

theorem witness_locked_write :
    locAccess (locate .toyA (wordAt 0x20000)) = .config ∧ (readyUnit []).phase = .ready ∧ (readyUnit []).fault = false ∧
    latchedA.unit.phase = .ready ∧ latchedA.unit.fault = true := by decide +kernel

theorem witness_store_frame :
    elemAccess (.m 5 (pos 2) (pos 2) : ElemLoc .toyA) ≠ .ignored ∧ (.m 5 (pos 2) (pos 1) : ElemLoc .toyA) ≠ .m 5 (pos 2) (pos 2) ∧
    ∀ (l : ElemLoc .toyA) (k : Nat), (.status : Loc .toyA) ≠ .elem l k :=
  ⟨by decide, by decide, fun _ _ h => nomatch h⟩

/-- Both ends of the reserved ranges, the first word after `X`, and the read-only elements. -/
theorem witness_ignored :
    [0x00024, 0x000FC, 0x00800, 0x0FFFC, 0x0040C].map (fun off => locate .toyA (wordAt off)) = List.replicate 5 .unmapped ∧
    locate .toyA (wordAt 0x304) = .elem .alphaInv 0 ∧ locate .toyA (wordAt 0x308) = .elem .polyr 0 ∧
    locate .toyA (wordAt 0x80000) = .elem (.trace ⟨0, by decide⟩ (pos 0)) 0 := by decide +kernel

theorem latch_reset : LatchConsistent State.reset.unit := witness_inv_reset.unit_inv.latch

/-- A fault is taken: `COMMIT` straight after reset. -/
theorem witness_fault_taken :
    (sendWord State.reset 0xF0000000).pending = .write cmdIndex 0xF0000000 :: [] ∧
    (sendWord State.reset 0xF0000000).unit.fault = false ∧ LatchConsistent (sendWord State.reset 0xF0000000).unit ∧
    Steps (sendWord State.reset 0xF0000000) fun t => t.unit.fault = true :=
  ⟨rfl, rfl, latch_reset, steps_of_after (fun _ h => h) (by decide +kernel)⟩

/-- The same for a locked window write. -/
theorem witness_fault_taken_window :
    (doing (readyA []) (.write (wordAt 0x20000) 7)).unit.fault = false ∧
    LatchConsistent (doing (readyA []) (.write (wordAt 0x20000) 7)).unit ∧
    Steps (doing (readyA []) (.write (wordAt 0x20000) 7)) fun t => t.unit.fault = true :=
  ⟨rfl, (inv_readyA []).unit_inv.latch, steps_of_after (fun _ h => h) (by decide +kernel)⟩

theorem witness_to_ready :
    (sendWord loadedA 0xF0000000).unit.phase = .config ∧
    Steps (sendWord loadedA 0xF0000000) fun t => t.unit.phase = .ready :=
  ⟨rfl, steps_of_after (f := fun t => decide (t.unit.phase = .ready)) (fun _ h => of_decide_eq_true h) (by decide +kernel)⟩

theorem witness_to_config :
    (sendWord (readyA []) 0xFF000000).unit.phase = .ready ∧
    Steps (sendWord (readyA []) 0xFF000000) fun t => t.unit.phase = .config :=
  ⟨rfl, steps_of_after (f := fun t => decide (t.unit.phase = .config)) (fun _ h => of_decide_eq_true h) (by decide +kernel)⟩

/-- A `READY` unit and a host write to `X`: no reset. -/
theorem witness_read_only :
    (doing (readyA []) (.write (wordAt 0x400) 5)).unit.phase = .ready ∧
    ¬ResetsNext (doing (readyA []) (.write (wordAt 0x400) 5)) ∧
    Steps (doing (readyA []) (.write (wordAt 0x400) 5)) fun t => t.unit.fault = false := by
  refine ⟨rfl, ?_, steps_of_after (f := fun t => !t.unit.fault) (fun _ h => by simpa using h) (by decide +kernel)⟩
  rintro ⟨rest, h | h⟩
  · exact absurd (List.cons.inj h).1 (by decide)
  · exact absurd (List.cons.inj h).1 (by decide)

/-- An untraced evaluation. -/
theorem witness_trace_kept :
    Steps (sendWord (readyA [1, 2, 3]) 0x48000004) (fun t => t.unit.fault = false) ∧
    (∀ rest, (sendWord (readyA [1, 2, 3]) 0x48000004).pending ≠ .reset :: rest) ∧
    (∀ w rest i, (sendWord (readyA [1, 2, 3]) 0x48000004).pending = .write cmdIndex w :: rest → decode w = .ok i →
      writesTrace i = false) := by
  refine ⟨steps_of_after (f := fun t => !t.unit.fault) (fun _ h => by simpa using h) (by decide +kernel), ?_, ?_⟩
  · intro rest h
    exact nomatch (List.cons.inj h).1
  · intro w rest i h hd
    have hw : (0x48000004 : Word) = w := by injection (List.cons.inj h).1
    subst hw
    have hi : i = .eval 0 4 := by
      have : decode 0x48000004 = .ok (.eval 0 4) := by decide
      rw [this] at hd; exact (Except.ok.inj hd).symm
    subst hi; rfl

/-- Two ready units that differ outside the instance and `X`. -/
theorem witness_pure :
    isEngineCommand (.evalT 0 4) = true ∧ writesTrace (.evalT 0 4) = true ∧ Ready (readyA [1, 2, 3]) ∧
    ({ readyUnit [1, 2, 3] with e := Vector.replicate 16 5#4, traceLen := 2 }).fault = false ∧
    ({ readyUnit [1, 2, 3] with e := Vector.replicate 16 5#4, traceLen := 2 }).phase = .ready ∧
    AgreeOnInstance (readyUnit [1, 2, 3]) { readyUnit [1, 2, 3] with e := Vector.replicate 16 5#4, traceLen := 2 } ∧
    UnitInv (readyA [1, 2, 3]).unit :=
  ⟨rfl, rfl, ⟨rfl, rfl⟩, rfl, rfl, ⟨rfl, rfl, rfl, rfl, rfl, rfl, rfl, rfl⟩, (inv_readyA _).unit_inv⟩

theorem witness_step_keeps :
    Inv (readyA [1, 2, 3]) ∧ Steps (readyA [1, 2, 3]) (fun t => t = readyA [1, 2, 3]) ∧
    (doing (readyA [1, 2, 3]) .reset).pending ≠ [] ∧ Steps (doing (readyA [1, 2, 3]) .reset) (fun t => t.unit.fault = false) :=
  ⟨inv_readyA _, ⟨_, rfl, rfl⟩, by decide, steps_of_after (f := fun t => !t.unit.fault) (fun _ h => by simpa using h)
    (by decide +kernel)⟩

/-- The model's own stop, in a state no run reaches: `READY` with R = 9 over RMAX = 8 (log entry 7). -/
theorem witness_stop :
    step (sendWord (stateA { readyUnit [] with rp := 7 }) 0x28000008) = .fault .roundBeyondCapacity := rfl

theorem witness_stop_operands :
    Ready (stateA { readyUnit [] with rp := 7 }) ∧ Build.toyA.rmax ≤ (8#8).toNat ∧ Build.toyA.rmax < (9#8).toNat ∧
    (8#8).toNat < roundsOf (stateA { readyUnit [] with rp := 7 }) ∧
    (9#8).toNat ≤ roundsOf (stateA { readyUnit [] with rp := 7 }) :=
  ⟨⟨rfl, rfl⟩, by decide, by decide, by decide +kernel, by decide +kernel⟩

/-- `CLRF`'s and `SRST`'s opcodes with other bits set, a fault latched. -/
theorem witness_exact_word :
    latchedA.unit.fault = true ∧ (0xF1000001 : Word).extractLsb' 24 8 = 0xF1 ∧ (0xFF800000 : Word).extractLsb' 24 8 = 0xFF ∧
    (0xF1000001 : Word) ≠ 0xF1000000 ∧ (0xFF800000 : Word) ≠ 0xFF000000 := ⟨rfl, by decide, by decide, by decide, by decide⟩

/-- A latched fault that a host read leaves latched. -/
theorem witness_latch_stays :
    latchedA.unit.fault = true ∧ Steps (doing latchedA (.read (wordAt 0x00C))) fun t => t.unit.fault = true :=
  ⟨rfl, steps_of_after (fun _ h => h) (by decide +kernel)⟩

/-- The unused tail of the region `PARAM` (T = 3, N = 4): a word of no element. -/
theorem witness_region_tail :
    0x100 ≤ 4 * (wordAt 0x30C).toNat ∧ ∀ (l : ElemLoc .toyA) (k : Nat), k < Build.toyA.ew →
      4 * (wordAt 0x30C).toNat ≠ elemOffset .toyA l k := by
  have hes : Build.toyA.es = 4 := rfl
  have hew : Build.toyA.ew = 1 := rfl
  have hw : 4 * (wordAt 0x30C).toNat = 0x30C := by decide
  refine ⟨by decide, fun l k hk => ?_⟩
  rw [hw, elemOffset, hes]
  cases l with
  | e q => have := q.isLt; simp only [elemPlace]; omega
  | x q => simp only [elemPlace]; omega
  | m q i j => simp only [elemPlace]; omega
  | rc r i => simp only [elemPlace]; omega
  | trace r i => simp only [elemPlace]; omega
  | alpha => simp only [elemPlace]; omega
  | alphaInv => simp only [elemPlace]; omega
  | polyr => simp only [elemPlace]; omega

theorem allZero_reset (b : Build) : AllZero (UnitState.reset b) := by
  refine ⟨?_, ?_, rfl, rfl, rfl, rfl, rfl, rfl, rfl, rfl, rfl, rfl, ?_, ?_, ?_, rfl⟩ <;>
    intros <;> simp [UnitState.reset, zeroMat, zeroVec]

theorem witness_reset_zero : AllZero State.reset.unit := allZero_reset .toyA

theorem witness_engine : isEngineCommand (.rnd 0) = true ∧ (2#8).toNat < Build.toyA.t := by decide

end Sys2Proof.Tests
end

section
/-! PROOF. What one step can do: the equations of each host action, everything a command and a step can answer, and the
statements of 00_scope.md that follow (R16, R17, R6, R217). -/

namespace Sys2Proof.Machine

variable {b : Build}

/-! ### One host action, one equation each -/

theorem step_idle {s : State} (h : s.pending = []) : step s = .next s := by
  simp [step, h]

theorem step_pending {s : State} {a : HostAction} {rest : List HostAction} (h : s.pending = a :: rest) :
    step s = noteFault s (perform a { s with pending := rest }) := by
  simp [step, h, performNext]

theorem perform_read (i : WordIndex) (s : State) :
    perform (.read i) s = .next { s with replies := s.replies ++ [hostRead s.unit i] } := rfl

theorem perform_command (w : Word) (s : State) : perform (.write cmdIndex w) s = command w s := by
  simp [perform]

theorem perform_write {i : WordIndex} (hi : i ≠ cmdIndex) (w : Word) (s : State) :
    perform (.write i w) s = .next { s with unit := hostWrite s.unit i w } := by
  simp [perform, hi]

theorem perform_reset (s : State) : perform .reset s = .next { s with unit := .reset s.build } := rfl

@[simp] theorem noteFault_of_next (s t : State) :
    noteFault s (.next t) = .next { t with wentWrong := s.wentWrong || s.unit.fault || t.unit.fault } := rfl

/-- A read takes no fault and clears none (R41). -/
theorem step_read {s : State} {i : WordIndex} {rest : List HostAction} (h : s.pending = .read i :: rest) :
    step s = .next { s with
      pending := rest, replies := s.replies ++ [hostRead s.unit i], wentWrong := s.wentWrong || s.unit.fault } := by
  simp [step_pending h, perform_read]

theorem step_write {s : State} {i : WordIndex} {w : Word} {rest : List HostAction}
    (h : s.pending = .write i w :: rest) (hi : i ≠ cmdIndex) :
    step s = .next { s with
      pending := rest, unit := hostWrite s.unit i w
      wentWrong := s.wentWrong || s.unit.fault || (hostWrite s.unit i w).fault } := by
  simp [step_pending h, perform_write hi]

theorem step_command {s : State} {w : Word} {rest : List HostAction} (h : s.pending = .write cmdIndex w :: rest) :
    step s = noteFault s (command w { s with pending := rest }) := by
  rw [step_pending h, perform_command]

/-! ### Everything a command can answer

A meaning answers a next state of the unit, or it is the model's own stop, which only a `READY` unit with more rounds than
constant rows can give (log entry 7). The operand forms pass this on from the command's own effect. -/

/-- The outcome is a next state, or the model's own stop of a `READY` unit with more rounds than constant rows. -/
def AnswersOrStops (u : UnitState b) (o : UnitOutcome b) : Prop :=
  (∃ v, o = .next v) ∨ (u.phase = .ready ∧ b.rmax < u.rounds ∧ o = .fault .roundBeyondCapacity)

theorem answersOrStops_next (u v : UnitState b) : AnswersOrStops u (.next v) := .inl ⟨v, rfl⟩

theorem answersOrStops_whenAdmitted {adm : Admission} (w : Word) {u : UnitState b} {body : UnitOutcome b}
    (h : phaseFault adm u.phase = none → AnswersOrStops u body) : AnswersOrStops u (whenAdmitted adm w u body) := by
  unfold whenAdmitted
  split
  · exact answersOrStops_next u u
  · split
    · exact answersOrStops_next u _
    · exact h ‹_›

theorem phase_of_phaseFault_ready {p : Phase} (h : phaseFault .ready p = none) : p = .ready := by
  cases p with
  | ready => rfl
  | config => cases h

theorem answersOrStops_withStateIndex (i : BitVec 8) (w : Word) {u : UnitState b} {body : Fin b.t → UnitOutcome b}
    (h : ∀ k, AnswersOrStops u (body k)) : AnswersOrStops u (withStateIndex i w u body) := by
  obtain ⟨-, e⟩ | ⟨hi, e⟩ := withStateIndex_cases i w u body
  · exact e ▸ answersOrStops_next u _
  · exact e ▸ h _

theorem answersOrStops_withMatrix (k : BitVec 4) (w : Word) {u : UnitState b} {body : Fin 6 → UnitOutcome b}
    (h : ∀ k, AnswersOrStops u (body k)) : AnswersOrStops u (withMatrix k w u body) := by
  obtain ⟨-, e⟩ | ⟨hk, e⟩ := withMatrix_cases k w u body
  · exact e ▸ answersOrStops_next u _
  · exact e ▸ h _

theorem answersOrStops_withRound (r : BitVec 8) (w : Word) {u : UnitState b} {body : Nat → UnitOutcome b}
    (hp : u.phase = .ready) (h : ∀ k, AnswersOrStops u (body k)) : AnswersOrStops u (withRound r w u body) := by
  obtain ⟨-, e⟩ | ⟨hr, hc, e⟩ | ⟨-, -, e⟩ := withRound_cases r w u body
  · exact e ▸ answersOrStops_next u _
  · exact .inr ⟨hp, by omega, e⟩
  · exact e ▸ h _

theorem answersOrStops_withRange (p q : BitVec 8) (w : Word) {u : UnitState b} {body : Nat → Nat → UnitOutcome b}
    (hp : u.phase = .ready) (h : ∀ j k, AnswersOrStops u (body j k)) : AnswersOrStops u (withRange p q w u body) := by
  obtain ⟨-, e⟩ | ⟨⟨-, hr⟩, hc, e⟩ | ⟨-, -, e⟩ := withRange_cases p q w u body
  · exact e ▸ answersOrStops_next u _
  · exact .inr ⟨hp, by omega, e⟩
  · exact e ▸ h _ _

theorem onUnit_cases {s : State} {f : UnitState s.build → UnitOutcome s.build} (h : AnswersOrStops s.unit (f s.unit)) :
    (∃ u, onUnit s f = .next { s with unit := u }) ∨
    (s.unit.phase = .ready ∧ s.build.rmax < s.unit.rounds ∧ onUnit s f = .fault .roundBeyondCapacity) := by
  obtain ⟨u, hu⟩ | ⟨hp, hc, hstop⟩ := h
  · exact .inl ⟨u, onUnit_eq_of_next hu⟩
  · exact .inr ⟨hp, hc, onUnit_fault.mpr hstop⟩

/-- Everything a command can answer: the state with another unit, or the model's own stop. -/
theorem exec_cases (i : Instr) (s : State) :
    (∃ u, exec i s = .next { s with unit := u }) ∨
    (s.unit.phase = .ready ∧ s.build.rmax < s.unit.rounds ∧ exec i s = .fault .roundBeyondCapacity) := by
  have any {w : Word} {body : UnitOutcome s.build} (h : AnswersOrStops s.unit body) :
      AnswersOrStops s.unit (whenAdmitted .any w s.unit body) := answersOrStops_whenAdmitted w fun _ => h
  have ready {w : Word} {body : UnitOutcome s.build} (h : s.unit.phase = .ready → AnswersOrStops s.unit body) :
      AnswersOrStops s.unit (whenAdmitted .ready w s.unit body) :=
    answersOrStops_whenAdmitted w fun hp => h (phase_of_phaseFault_ready hp)
  have next := answersOrStops_next s.unit
  unfold exec
  cases i with
  | fli d imm => exact onUnit_cases (any (next _))
  | fadd d a c => exact onUnit_cases (any (next _))
  | fmul d a c => exact onUnit_cases (any (next _))
  | fpow d a c => exact onUnit_cases (any (next _))
  | finv d a =>
    refine onUnit_cases (any ?_)
    split
    · exact next _
    · exact next _
  | mvex e k => exact onUnit_cases (any (answersOrStops_withStateIndex _ _ fun _ => next _))
  | mvxe e k => exact onUnit_cases (any (answersOrStops_withStateIndex _ _ fun _ => next _))
  | mix m => exact onUnit_cases (ready fun _ => answersOrStops_withMatrix _ _ fun _ => next _)
  | arc r => exact onUnit_cases (ready fun hp => answersOrStops_withRound _ _ hp fun _ => next _)
  | sboxF => exact onUnit_cases (ready fun _ => next _)
  | sboxP => exact onUnit_cases (ready fun _ => next _)
  | sboxiF => exact onUnit_cases (ready fun _ => next _)
  | sboxiP => exact onUnit_cases (ready fun _ => next _)
  | rnd r => exact onUnit_cases (ready fun hp => answersOrStops_withRound _ _ hp fun _ => next _)
  | rndi r => exact onUnit_cases (ready fun hp => answersOrStops_withRound _ _ hp fun _ => next _)
  | eval rs re => exact onUnit_cases (ready fun hp => answersOrStops_withRange _ _ _ hp fun _ _ => next _)
  | evalT rs re => exact onUnit_cases (ready fun hp => answersOrStops_withRange _ _ _ hp fun _ _ => next _)
  | evali rs re => exact onUnit_cases (ready fun hp => answersOrStops_withRange _ _ _ hp fun _ _ => next _)
  | evaliT rs re => exact onUnit_cases (ready fun hp => answersOrStops_withRange _ _ _ hp fun _ _ => next _)
  | commit =>
    refine onUnit_cases (answersOrStops_whenAdmitted _ fun _ => ?_)
    split
    · exact next _
    · exact next _
  | clrf => exact onUnit_cases (next _)
  | srst => exact onUnit_cases (next _)

/-- Everything a word written to `CMD` can answer, decoded or not. -/
theorem command_cases (w : Word) (s : State) :
    (∃ u, command w s = .next { s with unit := u }) ∨
    (s.unit.phase = .ready ∧ s.build.rmax < s.unit.rounds ∧ command w s = .fault .roundBeyondCapacity) := by
  cases h : decode w with
  | ok i => exact command_of_decode h ▸ exec_cases i s
  | error e => exact .inl ⟨_, command_of_error h⟩

/-! ### Everything a step can answer -/

/-- Everything a host action can answer: another unit and more replies, or the model's own stop. -/
theorem perform_cases (a : HostAction) (s : State) :
    (∃ u l, perform a s = .next { s with unit := u, replies := s.replies ++ l }) ∨
    (s.unit.phase = .ready ∧ s.build.rmax < s.unit.rounds ∧ perform a s = .fault .roundBeyondCapacity) := by
  cases a with
  | read i => exact .inl ⟨s.unit, _, perform_read i s⟩
  | reset => exact .inl ⟨.reset s.build, [], by simp [perform_reset]⟩
  | write i w =>
    by_cases hi : i = cmdIndex
    · subst hi
      rw [perform_command]
      obtain ⟨u, hu⟩ | hstop := command_cases w s
      · exact .inl ⟨u, [], by simpa using hu⟩
      · exact .inr hstop
    · exact .inl ⟨hostWrite s.unit i w, [], by simp [perform_write hi]⟩

/-- Everything a step can answer: with no action pending the same state; else another unit, more replies, the rest of the host's
list and the history flag; or the model's own stop. -/
theorem step_cases (s : State) :
    (s.pending = [] ∧ step s = .next s) ∨
    (s.pending ≠ [] ∧ ∃ u l, step s = .next { s with
      unit := u, pending := s.pending.tail, replies := s.replies ++ l
      wentWrong := s.wentWrong || s.unit.fault || u.fault }) ∨
    (s.unit.phase = .ready ∧ s.build.rmax < s.unit.rounds ∧ step s = .fault .roundBeyondCapacity) := by
  cases h : s.pending with
  | nil => exact .inl ⟨rfl, step_idle h⟩
  | cons a rest =>
    rw [step_pending h]
    obtain ⟨u, l, e⟩ | ⟨hp, hc, e⟩ := perform_cases a { s with pending := rest }
    · exact .inr (.inl ⟨by simp, u, l, by rw [e]; rfl⟩)
    · exact .inr (.inr ⟨hp, hc, by rw [e]; rfl⟩)

end Sys2Proof.Machine

namespace Sys2Proof.Proofs

open Sys2Proof Sys2Proof.Machine Sys2Proof.Claims

/-- Settles O7, by the equations of the host's transactions. -/
theorem stepPerformsOneHostTransaction : Obligations.StepPerformsOneHostTransaction :=
  ⟨fun _ _ _ h => step_read h, fun _ _ _ _ h hi => step_write h hi, fun _ h => step_idle h⟩

/-- Settles O60, from everything a step can answer. -/
theorem stepKeepsBuildAndHistory : Obligations.StepKeepsBuildAndHistory := by
  intro s t h
  obtain ⟨hnil, e⟩ | ⟨-, u, l, e⟩ | ⟨-, -, e⟩ := step_cases s
  · obtain rfl : s = t := by simpa [e] using h
    simp [hnil]
  · obtain rfl := Host.Outcome.next.inj (e.symm.trans h)
    exact ⟨rfl, fun _ => rfl, rfl, List.prefix_append _ _⟩
  · simp [e] at h

/-- A stop is the model's own: a `READY` unit with more rounds than constant rows. -/
theorem stop_of_step_fault {s : State} {r : Fault} (h : step s = .fault r) :
    s.unit.phase = .ready ∧ s.build.rmax < s.unit.rounds := by
  obtain ⟨-, e⟩ | ⟨-, u, l, e⟩ | ⟨hp, hc, -⟩ := step_cases s
  · simp [e] at h
  · simp [e] at h
  · exact ⟨hp, hc⟩

theorem step_ne_refused (s : State) (r : Refusal) : step s ≠ .refused r := by
  obtain ⟨-, e⟩ | ⟨-, u, l, e⟩ | ⟨-, -, e⟩ := step_cases s <;> simp [e]

/-- A state of the invariant has a next state: `COMMIT` leaves no more rounds than constant rows (R145). -/
theorem step_next_of_inv {s : State} (hs : Inv s) : ∃ t, step s = .next t := by
  cases h : step s with
  | next t => exact ⟨t, rfl⟩
  | refused r => exact absurd h (step_ne_refused s r)
  | fault r =>
    obtain ⟨hp, hc⟩ := stop_of_step_fault h
    exact absurd (hs.unit_inv.ready_valid hp).rounds_le_rmax (Nat.not_le.mpr hc)

/-- A command of a `READY` unit runs its own rule (R61). -/
theorem onUnit_whenAdmitted_ready {s : State} (hs : Ready s) (w : Word)
    (body : UnitState s.build → UnitOutcome s.build) :
    onUnit s (fun u => whenAdmitted .ready w u (body u)) = onUnit s body := by
  simp only [onUnit, whenAdmitted_ready hs.1 hs.2]

theorem withRound_of_beyond {b : Build} {r : BitVec 8} {w : Word} {u : UnitState b} {body : Nat → UnitOutcome b}
    (h : r.toNat < u.rounds) (hc : b.rmax ≤ r.toNat) : withRound r w u body = .fault .roundBeyondCapacity := by
  obtain ⟨h', -⟩ | ⟨-, -, e⟩ | ⟨-, h', -⟩ := withRound_cases r w u body
  · omega
  · exact e
  · omega

theorem withRange_of_beyond {b : Build} {p q : BitVec 8} {w : Word} {u : UnitState b}
    {body : Nat → Nat → UnitOutcome b} (h : p.toNat ≤ q.toNat ∧ q.toNat ≤ u.rounds) (hc : b.rmax < q.toNat) :
    withRange p q w u body = .fault .roundBeyondCapacity := by
  obtain ⟨h', -⟩ | ⟨-, -, e⟩ | ⟨-, h', -⟩ := withRange_cases p q w u body
  · exact absurd h h'
  · exact e
  · omega

/-- A round below R with no row in the constant memory stops the commands that would use it (log entry 7). -/
theorem exec_round_beyond {s : State} {r : BitVec 8} (hs : Ready s) (hc : s.build.rmax ≤ r.toNat)
    (hr : r.toNat < roundsOf s) {i : Instr} (hi : i = .arc r ∨ i = .rnd r ∨ i = .rndi r) :
    exec i s = .fault .roundBeyondCapacity := by
  have stops {w : Word} {body : UnitState s.build → Nat → UnitOutcome s.build} :
      onUnit s (fun u => whenAdmitted .ready w u (withRound r w u (body u))) = .fault .roundBeyondCapacity := by
    rw [onUnit_whenAdmitted_ready hs, onUnit_fault]
    exact withRound_of_beyond hr hc
  unfold exec
  obtain rfl | rfl | rfl := hi
  · exact stops
  · exact stops
  · exact stops

/-- A range up to R that ends beyond the constant memory stops the evaluations (log entry 7). -/
theorem exec_range_beyond {s : State} {rs re : BitVec 8} (hs : Ready s) (hle : rs.toNat ≤ re.toNat)
    (hc : s.build.rmax < re.toNat) (hr : re.toNat ≤ roundsOf s) {i : Instr}
    (hi : i = .eval rs re ∨ i = .evalT rs re ∨ i = .evali rs re ∨ i = .evaliT rs re) :
    exec i s = .fault .roundBeyondCapacity := by
  have stops {w : Word} {body : UnitState s.build → Nat → Nat → UnitOutcome s.build} :
      onUnit s (fun u => whenAdmitted .ready w u (withRange rs re w u (body u))) = .fault .roundBeyondCapacity := by
    rw [onUnit_whenAdmitted_ready hs, onUnit_fault]
    exact withRange_of_beyond ⟨hle, hr⟩ hc
  unfold exec
  obtain rfl | rfl | rfl | rfl := hi
  · exact stops
  · exact stops
  · exact stops
  · exact stops

/-- Settles O59, from everything a step can answer and the operand forms' own stop. -/
theorem stepAlwaysAnswers : Obligations.StepAlwaysAnswers :=
  ⟨fun _ hs => step_next_of_inv hs, fun _ _ h => stop_of_step_fault h, step_ne_refused,
    fun _ _ hs hc hr _ hi => exec_round_beyond hs hc hr hi,
    fun _ _ _ hs hle hc hr _ hi => exec_range_beyond hs hle hc hr hi⟩

end Sys2Proof.Proofs
end

section
/-! PROOF. Evaluation is pure (00_scope.md R18): what the engine computes is the same in two units that agree on `X` and the
configuration, and so is what an engine command leaves in `X`, `FAULT` and the valid trace. -/

namespace Sys2Proof.Proofs

open Sys2Proof Sys2Proof.Machine Sys2Proof.Claims

variable {b : Build} {u v : UnitState b}

/-! ### The engine's functions read the configuration only -/

theorem matvec_congr (h : AgreeOnInstance u v) : u.matvec = v.matvec := by
  obtain ⟨-, -, -, -, -, -, hm, -⟩ := h
  funext k x
  simp [UnitState.matvec, hm]

theorem rounds_congr (h : AgreeOnInstance u v) : u.rounds = v.rounds := by
  obtain ⟨-, hrf, -, hrp, -, -, -, -⟩ := h
  simp [UnitState.rounds, hrf, hrp]

theorem addrc_congr (h : AgreeOnInstance u v) : u.addrc = v.addrc := by
  obtain ⟨-, -, -, -, -, -, -, hrc⟩ := h
  funext r x
  simp [UnitState.addrc, UnitState.rcRow, hrc]

theorem isFull_congr (h : AgreeOnInstance u v) : u.isFull = v.isFull := by
  obtain ⟨-, -, hrfb, hrp, -, -, -, -⟩ := h
  funext r
  simp [UnitState.isFull, hrfb, hrp]

theorem roundF_congr (h : AgreeOnInstance u v) : u.roundF = v.roundF := by
  obtain ⟨-, -, -, -, halpha, -, -, -⟩ := id h
  funext r x
  simp [UnitState.roundF, isFull_congr h, matvec_congr h, addrc_congr h, halpha]

theorem roundI_congr (h : AgreeOnInstance u v) : u.roundI = v.roundI := by
  obtain ⟨-, -, -, -, -, halphaInv, -, -⟩ := id h
  funext r y
  simp [UnitState.roundI, isFull_congr h, matvec_congr h, addrc_congr h, halphaInv]

theorem forwardRounds_congr (h : AgreeOnInstance u v) (r k : Nat) (x : b.Vec) :
    u.forwardRounds r k x = v.forwardRounds r k x := by
  induction k generalizing r x with
  | zero => rfl
  | succ k ih => rw [forwardRounds_succ, forwardRounds_succ, roundF_congr h, ih]

theorem inverseRounds_congr (h : AgreeOnInstance u v) (rs k : Nat) (x : b.Vec) :
    u.inverseRounds rs k x = v.inverseRounds rs k x := by
  induction k generalizing x with
  | zero => rfl
  | succ k ih => rw [inverseRounds_succ, inverseRounds_succ, roundI_congr h, ih]

theorem forwardTail_congr (h : AgreeOnInstance u v) : u.forwardTail = v.forwardTail := by
  funext rs re x
  simp [UnitState.forwardTail, matvec_congr h, forwardRounds_congr h]

theorem inverseTail_congr (h : AgreeOnInstance u v) : u.inverseTail = v.inverseTail := by
  funext rs re x
  simp [UnitState.inverseTail, matvec_congr h, inverseRounds_congr h]

theorem evalForward_congr (h : AgreeOnInstance u v) : u.evalForward = v.evalForward := by
  funext rs re x
  simp [UnitState.evalForward, forwardTail_congr h]

theorem evalInverse_congr (h : AgreeOnInstance u v) : u.evalInverse = v.evalInverse := by
  funext rs re x
  simp [UnitState.evalInverse, inverseTail_congr h]

/-! ### Two outcomes with the same result -/

/-- The result of an engine command agrees in two units: `X`, `FAULT` and, of a traced one without a fault, `TRACE_LEN` and the
valid trace entries (R18, R34). -/
def SameResult (traced : Bool) (u v : UnitState b) : Prop :=
  u.x = v.x ∧ u.fault = v.fault ∧
  (traced = true → u.fault = false → u.traceLen = v.traceLen ∧
    ∀ k : Fin (b.rmax + 2), k.val < u.traceLen.toNat → u.trace[k] = v.trace[k])

/-- Both outcomes are next states, with the same result. -/
def AnswerAlike (traced : Bool) (o p : UnitOutcome b) : Prop :=
  ∃ u v, o = .next u ∧ p = .next v ∧ SameResult traced u v

/-- A fault taken in both units: neither result has a valid trace. -/
theorem answerAlike_raise (traced : Bool) (c : Cause) (w : Word) (hx : u.x = v.x) :
    AnswerAlike traced (.next (u.raise c w)) (.next (v.raise c w)) :=
  ⟨_, _, rfl, rfl, hx, rfl, fun _ h => by cases h⟩

/-- The same new `X` in both units; the command is not a traced one. -/
theorem answerAlike_setX {x y : b.Vec} (hf : u.fault = v.fault) (h : x = y) :
    AnswerAlike false (.next (u.setX x)) (.next (v.setX y)) :=
  ⟨_, _, rfl, rfl, h, hf, fun h => by cases h⟩

/-- The same list stored as the trace: the entries below its length are the list's, whatever the traces held (R130). -/
theorem sameResult_storeTrace (tr : List b.Vec) (hx : u.x = v.x) (hf : u.fault = v.fault) :
    SameResult true (u.storeTrace tr) (v.storeTrace tr) := by
  refine ⟨hx, hf, fun _ _ => ⟨rfl, fun k hk => ?_⟩⟩
  have hlt : k.val < tr.length := by
    rw [UnitState.storeTrace_traceLen, BitVec.toNat_ofNat] at hk
    omega
  simp [hlt]

theorem answerAlike_traced {x y : b.Vec} {l m : List b.Vec} (hf : u.fault = v.fault) (hx : x = y) (hl : l = m) :
    AnswerAlike true (.next ((u.setX x).storeTrace l)) (.next ((v.setX y).storeTrace m)) := by
  subst hl
  exact ⟨_, _, rfl, rfl, sameResult_storeTrace l hx hf⟩

theorem answerAlike_withMatrix {traced : Bool} (k : BitVec 4) (w : Word) {f g : Fin 6 → UnitOutcome b}
    (h : AgreeOnInstance u v) (hfg : ∀ k, AnswerAlike traced (f k) (g k)) :
    AnswerAlike traced (withMatrix k w u f) (withMatrix k w v g) := by
  rcases Nat.lt_or_ge k.toNat 6 with hk | hk
  · rw [withMatrix_of_lt hk, withMatrix_of_lt hk]
    exact hfg _
  · rw [withMatrix_of_ge hk, withMatrix_of_ge hk]
    exact answerAlike_raise _ _ _ h.1

theorem answerAlike_withRound {traced : Bool} (r : BitVec 8) (w : Word) {f g : Nat → UnitOutcome b}
    (h : AgreeOnInstance u v) (hR : u.rounds ≤ b.rmax) (hfg : ∀ k, AnswerAlike traced (f k) (g k)) :
    AnswerAlike traced (withRound r w u f) (withRound r w v g) := by
  have huv := rounds_congr h
  rcases Nat.lt_or_ge r.toNat u.rounds with hr | hr
  · rw [withRound_of_lt hr (by omega), withRound_of_lt (huv ▸ hr) (by omega)]
    exact hfg _
  · rw [withRound_of_ge hr, withRound_of_ge (huv ▸ hr)]
    exact answerAlike_raise _ _ _ h.1

theorem answerAlike_withRange {traced : Bool} (p q : BitVec 8) (w : Word) {f g : Nat → Nat → UnitOutcome b}
    (h : AgreeOnInstance u v) (hR : u.rounds ≤ b.rmax) (hfg : ∀ j k, AnswerAlike traced (f j k) (g j k)) :
    AnswerAlike traced (withRange p q w u f) (withRange p q w v g) := by
  have huv := rounds_congr h
  by_cases hr : p.toNat ≤ q.toNat ∧ q.toNat ≤ u.rounds
  · rw [withRange_of_legal hr.1 hr.2 (by omega), withRange_of_legal hr.1 (huv ▸ hr.2) (by omega)]
    exact hfg _ _
  · rw [withRange_of_illegal hr, withRange_of_illegal (huv ▸ hr)]
    exact answerAlike_raise _ _ _ h.1

/-! ### Every engine command -/

/-- An engine command of two `READY` units, from its own effect in each. -/
theorem exec_alike_of {s : State} {v : UnitState s.build} {w : Word} {traced : Bool}
    {body : UnitState s.build → UnitOutcome s.build} (hs : Ready s) (hv : Ready { s with unit := v })
    (h : AnswerAlike traced (body s.unit) (body v)) :
    ∃ u' v' : UnitState s.build,
      onUnit s (fun u => whenAdmitted .ready w u (body u)) = .next { s with unit := u' } ∧
      onUnit { s with unit := v } (fun u => whenAdmitted .ready w u (body u)) = .next { s with unit := v' } ∧
      SameResult traced u' v' := by
  obtain ⟨u', v', hu, hv', hsame⟩ := h
  refine ⟨u', v', ?_, ?_, hsame⟩
  · rw [onUnit_whenAdmitted_ready hs, onUnit_eq_of_next hu]
  · rw [onUnit_whenAdmitted_ready hv]
    exact onUnit_eq_of_next (s := { s with unit := v }) hv'

/-- Settles O55: the body of each engine command answers alike in units that agree on `X` and the configuration. -/
theorem evaluationIsPure : Obligations.EvaluationIsPure := by
  intro s v i hi hs hvf hvp h hinv
  have hv : Ready { s with unit := v } := ⟨hvf, hvp⟩
  have hf : s.unit.fault = v.fault := hs.1.trans hvf.symm
  have hR : s.unit.rounds ≤ s.build.rmax := (hinv.ready_valid hs.2).rounds_le_rmax
  obtain ⟨hx, -, -, -, halpha, halphaInv, -, -⟩ := id h
  unfold exec
  cases i with
  | mix m =>
    exact exec_alike_of hs hv (answerAlike_withMatrix m _ h fun k =>
      answerAlike_setX hf (by rw [matvec_congr h, hx]))
  | arc r =>
    exact exec_alike_of hs hv (answerAlike_withRound r _ h hR fun k =>
      answerAlike_setX hf (by rw [addrc_congr h, hx]))
  | sboxF => exact exec_alike_of hs hv (answerAlike_setX hf (by rw [hx, halpha]))
  | sboxP => exact exec_alike_of hs hv (answerAlike_setX hf (by rw [hx, halpha]))
  | sboxiF => exact exec_alike_of hs hv (answerAlike_setX hf (by rw [hx, halphaInv]))
  | sboxiP => exact exec_alike_of hs hv (answerAlike_setX hf (by rw [hx, halphaInv]))
  | rnd r =>
    exact exec_alike_of hs hv (answerAlike_withRound r _ h hR fun k =>
      answerAlike_setX hf (by rw [roundF_congr h, hx]))
  | rndi r =>
    exact exec_alike_of hs hv (answerAlike_withRound r _ h hR fun k =>
      answerAlike_setX hf (by rw [roundI_congr h, hx]))
  | eval rs re =>
    exact exec_alike_of hs hv (answerAlike_withRange rs re _ h hR fun p q =>
      answerAlike_setX hf (by rw [evalForward_congr h, hx]))
  | evalT rs re =>
    exact exec_alike_of hs hv (answerAlike_withRange rs re _ h hR fun p q =>
      answerAlike_traced hf (by rw [evalForward_congr h, hx]) (by rw [forwardTail_congr h, hx]))
  | evali rs re =>
    exact exec_alike_of hs hv (answerAlike_withRange rs re _ h hR fun p q =>
      answerAlike_setX hf (by rw [evalInverse_congr h, hx]))
  | evaliT rs re =>
    exact exec_alike_of hs hv (answerAlike_withRange rs re _ h hR fun p q =>
      answerAlike_traced hf (by rw [evalInverse_congr h, hx]) (by rw [inverseTail_congr h, hx]))
  | fli | fadd | fmul | fpow | finv | mvex | mvxe | commit | clrf | srst => cases hi

end Sys2Proof.Proofs
end

section
/-! PROOF. Elements as polynomials over GF(2) (00_scope.md R12, 40_field_arithmetic.md section 1): bit i is the coefficient of
X^i, the exclusive-or is the sum, `clmul` is the product; and what `PolyIrreducible` says in these terms (R8). -/

namespace Sys2Proof.Proofs

open Sys2Proof Sys2Proof.Machine Sys2Proof.Claims
open Polynomial

variable {n m : Nat}

/-! ### A value and its polynomial -/

/-- The polynomial over GF(2) whose coefficient of X^i is bit i of the value (R12). -/
noncomputable def toPoly (v : BitVec n) : (ZMod 2)[X] :=
  ∑ i ∈ Finset.range n, if v.getLsbD i then X ^ i else 0

/-- A bit as an element of GF(2). -/
def bitCoeff (a : Bool) : ZMod 2 := if a then 1 else 0

theorem bitCoeff_injective : Function.Injective bitCoeff := by decide

theorem bitCoeff_xor (a c : Bool) : bitCoeff (a ^^ c) = bitCoeff a + bitCoeff c := by
  revert a c; decide

theorem bitCoeff_ne_zero (c : ZMod 2) : bitCoeff (c ≠ 0) = c := by
  revert c; decide

@[simp] theorem toPoly_coeff (v : BitVec n) (k : Nat) : (toPoly v).coeff k = bitCoeff (v.getLsbD k) := by
  have hterm (i : Nat) : (if v.getLsbD i then (X : (ZMod 2)[X]) ^ i else 0).coeff k =
      if k = i then bitCoeff (v.getLsbD i) else 0 := by
    cases v.getLsbD i <;> simp [bitCoeff, coeff_X_pow]
  rw [toPoly, finsetSum_coeff, Finset.sum_congr rfl fun i _ => hterm i, Finset.sum_ite_eq]
  split
  · rfl
  · rw [BitVec.getLsbD_of_ge v k (by simpa using ‹k ∉ Finset.range n›)]
    rfl

/-- Values of any two widths have the same polynomial when they have the same bits. -/
theorem toPoly_eq_iff {v : BitVec n} {w : BitVec m} : toPoly v = toPoly w ↔ ∀ k, v.getLsbD k = w.getLsbD k := by
  simp [Polynomial.ext_iff, bitCoeff_injective.eq_iff]

theorem toPoly_injective : Function.Injective (toPoly (n := n)) := fun _ _ h =>
  BitVec.eq_of_getLsbD_eq fun k _ => toPoly_eq_iff.mp h k

@[simp] theorem toPoly_zero : toPoly 0#n = 0 := by
  ext k
  simp [bitCoeff]

@[simp] theorem toPoly_xor (v w : BitVec n) : toPoly (v ^^^ w) = toPoly v + toPoly w := by
  ext k
  simp [bitCoeff_xor]

theorem degree_toPoly_lt (v : BitVec n) : (toPoly v).degree < n := by
  refine (degree_lt_iff_coeff_zero _ _).mpr fun k hk => ?_
  rw [toPoly_coeff, BitVec.getLsbD_of_ge v k hk]
  rfl

/-- Every polynomial of degree below n is an n-bit value's. -/
theorem exists_toPoly_eq {p : (ZMod 2)[X]} (hp : p.natDegree < n) : ∃ v : BitVec n, toPoly v = p := by
  refine ⟨BitVec.ofFnLE fun i => decide (p.coeff i ≠ 0), ?_⟩
  ext k
  rcases Nat.lt_or_ge k n with hk | hk
  · simpa [hk] using bitCoeff_ne_zero (p.coeff k)
  · rw [toPoly_coeff, BitVec.getLsbD_of_ge _ k hk, coeff_eq_zero_of_natDegree_lt (by omega)]
    rfl

/-- A value of at least 2 is one whose polynomial is not constant. -/
theorem two_le_toNat_iff (v : BitVec n) : 2 ≤ v.toNat ↔ 0 < (toPoly v).natDegree := by
  constructor
  · intro h
    obtain ⟨k, hk, hbit⟩ := Nat.exists_ge_and_testBit_of_ge_two_pow (n := 1) h
    refine lt_of_lt_of_le hk (le_natDegree_of_ne_zero ?_)
    simp [BitVec.getLsbD, hbit, bitCoeff]
  · intro h
    have hlead : bitCoeff (v.getLsbD (toPoly v).natDegree) ≠ 0 := by
      rw [← toPoly_coeff, coeff_natDegree, leadingCoeff_ne_zero]
      exact ne_zero_of_natDegree_gt h
    have hbit : v.toNat.testBit (toPoly v).natDegree = true := by
      by_contra hb
      simp [BitVec.getLsbD, hb, bitCoeff] at hlead
    calc 2 = 2 ^ 1 := rfl
      _ ≤ 2 ^ (toPoly v).natDegree := Nat.pow_le_pow_right (by decide) h
      _ ≤ v.toNat := Nat.ge_two_pow_of_testBit hbit

/-! ### The carry-less product is the product -/

theorem toPoly_shiftLeft_setWidth (x : BitVec n) {k : Nat} (hk : k < n) :
    toPoly (x.setWidth (2 * n - 1) <<< k) = toPoly x * X ^ k := by
  ext j
  rw [toPoly_coeff, coeff_mul_X_pow', BitVec.getLsbD_shiftLeft, BitVec.getLsbD_setWidth]
  by_cases hj : k ≤ j
  · rw [if_pos hj, toPoly_coeff]
    congr 1
    by_cases hx : j - k < n
    · have h1 : j < 2 * n - 1 := by omega
      have h2 : j - k < 2 * n - 1 := by omega
      simp [h1, h2, Nat.not_lt.mpr hj]
    · simp [BitVec.getLsbD_of_ge x (j - k) (by omega)]
  · simp [hj, Nat.lt_of_not_le hj, bitCoeff]

theorem toPoly_clmulUpTo (x y : BitVec n) (k : Nat) (hk : k ≤ n) :
    toPoly (clmulUpTo x y k) = toPoly x * ∑ i ∈ Finset.range k, if y.getLsbD i then X ^ i else 0 := by
  induction k with
  | zero => simp
  | succ k ih =>
    rw [clmulUpTo_succ, toPoly_xor, ih (by omega), Finset.sum_range_succ, mul_add]
    congr 1
    split
    · exact toPoly_shiftLeft_setWidth x hk
    · simp

/-- The carry-less product of R81 is the product of polynomials. -/
@[simp] theorem toPoly_clmul (x y : BitVec n) : toPoly (clmul x y) = toPoly x * toPoly y :=
  toPoly_clmulUpTo x y n le_rfl

/-! ### The field polynomial f and its irreducibility -/

/-- f(X) = X^N + Σ POLY[i]·X^i (R6). -/
noncomputable def fieldPoly (b : Build) : (ZMod 2)[X] := X ^ b.n + toPoly b.poly

theorem monic_fieldPoly (b : Build) : (fieldPoly b).Monic := monic_X_pow_add (degree_toPoly_lt b.poly)

theorem natDegree_fieldPoly (b : Build) : (fieldPoly b).natDegree = b.n := by
  rw [fieldPoly, natDegree_add_eq_left_of_degree_lt (by simpa using degree_toPoly_lt b.poly), natDegree_X_pow]

/-- Bit N of the value `{1, POLY}` is 1, the bits below it are POLY's (R82). -/
theorem modulus_getLsbD (b : Build) (k : Nat) :
    (modulus b).getLsbD k = if k = b.n then true else b.poly.getLsbD k := by
  have hn := b.three_le_n
  rw [modulus, BitVec.getLsbD_setWidth, BitVec.getLsbD_append]
  rcases Nat.lt_trichotomy k b.n with hk | rfl | hk
  · have : k < 2 * b.n - 1 := by omega
    simp [hk, hk.ne, this]
  · have : b.n < 2 * b.n - 1 := by omega
    simp [this]
  · have : 1 ≤ k - b.n := by omega
    simp [hk.ne', Nat.not_lt.mpr hk.le, BitVec.getLsbD_of_ge b.poly k hk.le, this]

/-- The (N+1)-bit value `{1, POLY}` of R82 is f's. -/
theorem toPoly_modulus (b : Build) : toPoly (modulus b) = fieldPoly b := by
  ext k
  rw [toPoly_coeff, modulus_getLsbD, fieldPoly, coeff_add, coeff_X_pow, toPoly_coeff]
  by_cases hk : k = b.n
  · simp [hk, bitCoeff]
  · simp [hk]

/-- A carry-less product is `{1, POLY}` exactly when the factors' polynomials multiply to f. -/
theorem clmul_eq_modulus_iff {b : Build} (g h : b.Elem) :
    clmul g h = modulus b ↔ toPoly g * toPoly h = fieldPoly b := by
  rw [← toPoly_injective.eq_iff, toPoly_clmul, toPoly_modulus]

/-- Non-constant factors of f have degree 1 to N − 1, so they are N-bit values of at least 2 (R8). -/
theorem irreducible_of_polyIrreducible {b : Build} (hb : PolyIrreducible b) : Irreducible (fieldPoly b) := by
  have hn := b.three_le_n
  refine (monic_fieldPoly b).irreducible_iff_natDegree.mpr ⟨fun h1 => ?_, fun p q hp hq hpq => ?_⟩
  · have := natDegree_fieldPoly b
    rw [h1, natDegree_one] at this
    omega
  · by_contra! hdeg
    have hsum : p.natDegree + q.natDegree = b.n := by rw [← hp.natDegree_mul hq, hpq, natDegree_fieldPoly]
    obtain ⟨g, rfl⟩ := exists_toPoly_eq (n := b.n) (p := p) (by omega)
    obtain ⟨h, rfl⟩ := exists_toPoly_eq (n := b.n) (p := q) (by omega)
    exact hb g h ((two_le_toNat_iff g).mpr (by omega)) ((two_le_toNat_iff h).mpr (by omega))
      ((clmul_eq_modulus_iff g h).mpr hpq)

/-- Two values of at least 2 are no units, so their product is no irreducible polynomial (R8). -/
theorem polyIrreducible_of_irreducible {b : Build} (hf : Irreducible (fieldPoly b)) : PolyIrreducible b := by
  intro g h hg hh hgh
  rw [two_le_toNat_iff] at hg hh
  obtain hu | hu := hf.isUnit_or_isUnit ((clmul_eq_modulus_iff g h).mp hgh).symm
  · exact hg.ne' (natDegree_eq_zero_of_isUnit hu)
  · exact hh.ne' (natDegree_eq_zero_of_isUnit hu)

/-- Settles O36: `clmul` is the product of polynomials and `modulus` is f, so the two notions of factorisation agree. -/
theorem polyIrreducibleIsIrreducibility : Obligations.PolyIrreducibleIsIrreducibility := fun _ =>
  ⟨irreducible_of_polyIrreducible, polyIrreducible_of_irreducible⟩

end Sys2Proof.Proofs
end

section
/-! PROOF. What one step can do to the unit, case by case (00_scope.md R16), and what is read off it: the configuration in
`READY`, the trace, and the machine's invariant (10_state.md R24, R25, R29, R34, 50_host_contract.md R155, R158). -/

namespace Sys2Proof.Machine

open Sys2Proof.Claims

variable {b : Build} {u v : UnitState b}

/-! ### Everything a command can do -/

/-- What a command can make of the unit. -/
inductive CommandEffect (u : UnitState b) : Instr → UnitState b → Prop
  /-- a fault is latched (R192) -/
  | ignored (i : Instr) (hf : u.fault = true) : CommandEffect u i u
  /-- a check fails, of the phase or of the command's own rule (R190, R191) -/
  | faulted (i : Instr) {c : Cause} (hf : u.fault = false) (hc : c ≠ .none) : CommandEffect u i (u.raise c (encode i))
  | writesE (i : Instr) (r : EReg) (x : b.Elem) : CommandEffect u i (u.writeE r x)
  | writesX (i : Instr) (x : b.Vec) : CommandEffect u i (u.setX x)
  /-- a traced evaluation (R130) -/
  | traces {i : Instr} (x : b.Vec) {tr : List b.Vec} (hi : writesTrace i = true) (hlen : tr.length ≤ b.rmax + 2) :
      CommandEffect u i ((u.setX x).storeTrace tr)
  /-- an accepted `COMMIT` (R145) -/
  | commits (hp : u.phase = .config) (hc : u.commitFault = none) :
      CommandEffect u .commit (u.enterReady u.computedAlphaInv (if u.opt then u.optimizedRc else u.rc))
  | clears : CommandEffect u .clrf u.clearFault
  | resets : CommandEffect u .srst (.reset b)

/-- Every next state of the outcome is an effect of the command. -/
def HasEffect (u : UnitState b) (i : Instr) (o : UnitOutcome b) : Prop := ∀ v, o = .next v → CommandEffect u i v

theorem hasEffect_next {i : Instr} (h : CommandEffect u i v) : HasEffect u i (.next v) := by
  rintro _ ⟨⟩
  exact h

theorem hasEffect_raise (i : Instr) {c : Cause} (hf : u.fault = false) (hc : c ≠ .none) :
    HasEffect u i (.next (u.raise c (encode i))) := hasEffect_next (.faulted i hf hc)

theorem phaseFault_ne_none {adm : Admission} {p : Phase} {c : Cause} (h : phaseFault adm p = some c) : c ≠ .none := by
  rintro rfl
  revert h
  cases adm <;> cases p <;> decide

theorem phase_of_phaseFault_config {p : Phase} (h : phaseFault .config p = none) : p = .config := by
  cases p with
  | config => rfl
  | ready => cases h

theorem hasEffect_whenAdmitted {adm : Admission} {i : Instr} {body : UnitOutcome b}
    (h : u.fault = false → phaseFault adm u.phase = none → HasEffect u i body) :
    HasEffect u i (whenAdmitted adm (encode i) u body) := by
  intro v hv
  obtain ⟨hf, rfl⟩ | ⟨hf, c, hc, rfl⟩ | ⟨hf, hp, hbody⟩ := whenAdmitted_next hv
  · exact .ignored i hf
  · exact .faulted i hf (phaseFault_ne_none hc)
  · exact h hf hp v hbody

theorem hasEffect_withStateIndex {i : Instr} (k : BitVec 8) {body : Fin b.t → UnitOutcome b} (hf : u.fault = false)
    (h : ∀ k, HasEffect u i (body k)) : HasEffect u i (withStateIndex k (encode i) u body) := by
  obtain ⟨-, e⟩ | ⟨hk, e⟩ := withStateIndex_cases k (encode i) u body
  · exact e ▸ hasEffect_raise i hf nofun
  · exact e ▸ h _

theorem hasEffect_withMatrix {i : Instr} (k : BitVec 4) {body : Fin 6 → UnitOutcome b} (hf : u.fault = false)
    (h : ∀ k, HasEffect u i (body k)) : HasEffect u i (withMatrix k (encode i) u body) := by
  obtain ⟨-, e⟩ | ⟨hk, e⟩ := withMatrix_cases k (encode i) u body
  · exact e ▸ hasEffect_raise i hf nofun
  · exact e ▸ h _

theorem hasEffect_withRound {i : Instr} (r : BitVec 8) {body : Nat → UnitOutcome b} (hf : u.fault = false)
    (h : ∀ k, HasEffect u i (body k)) : HasEffect u i (withRound r (encode i) u body) := by
  obtain ⟨-, e⟩ | ⟨-, -, e⟩ | ⟨-, -, e⟩ := withRound_cases r (encode i) u body
  · exact e ▸ hasEffect_raise i hf nofun
  · exact e ▸ nofun
  · exact e ▸ h _

theorem hasEffect_withRange {i : Instr} (p q : BitVec 8) {body : Nat → Nat → UnitOutcome b} (hf : u.fault = false)
    (h : ∀ j k, k ≤ b.rmax → HasEffect u i (body j k)) : HasEffect u i (withRange p q (encode i) u body) := by
  obtain ⟨-, e⟩ | ⟨-, -, e⟩ | ⟨-, hq, e⟩ := withRange_cases p q (encode i) u body
  · exact e ▸ hasEffect_raise i hf nofun
  · exact e ▸ nofun
  · exact e ▸ h _ _ hq

/-- At most Minit and one state per round follow the input in a trace (R128, R130). -/
theorem forwardTail_length_le (rs re : Nat) (x : b.Vec) : (u.forwardTail rs re x).length ≤ re + 1 := by
  unfold UnitState.forwardTail
  split
  · split
    · simp
    · simp; omega
  · simp

theorem inverseTail_length_le (rs re : Nat) (x : b.Vec) : (u.inverseTail rs re x).length ≤ re + 1 := by
  unfold UnitState.inverseTail
  split
  · split
    · simp
    · simp; omega
  · simp

theorem commitFault_ne_none {c : Cause} (h : u.commitFault = some c) : c ≠ .none := by
  rintro rfl
  unfold UnitState.commitFault at h
  split_ifs at h <;> cases h

theorem onUnit_effect {i : Instr} {s t : State} {f : UnitState s.build → UnitOutcome s.build}
    (hf : HasEffect s.unit i (f s.unit)) (h : onUnit s f = .next t) :
    ∃ v, CommandEffect s.unit i v ∧ t = { s with unit := v } := by
  obtain ⟨v, hv, rfl⟩ := onUnit_next.mp h
  exact ⟨v, hf v hv, rfl⟩

/-- A command that answers a next state has one of the effects. -/
theorem exec_effect {i : Instr} {s t : State} (h : exec i s = .next t) :
    ∃ v, CommandEffect s.unit i v ∧ t = { s with unit := v } := by
  have writesE {i : Instr} (r : EReg) (x : s.build.Elem) : HasEffect s.unit i (.next (s.unit.writeE r x)) :=
    hasEffect_next (.writesE i r x)
  have writesX {i : Instr} (x : s.build.Vec) : HasEffect s.unit i (.next (s.unit.setX x)) := hasEffect_next (.writesX i x)
  unfold exec at h
  cases i with
  | fli d imm => exact onUnit_effect (hasEffect_whenAdmitted fun _ _ => writesE _ _) h
  | fadd d a c => exact onUnit_effect (hasEffect_whenAdmitted fun _ _ => writesE _ _) h
  | fmul d a c => exact onUnit_effect (hasEffect_whenAdmitted fun _ _ => writesE _ _) h
  | fpow d a c => exact onUnit_effect (hasEffect_whenAdmitted fun _ _ => writesE _ _) h
  | finv d a =>
    refine onUnit_effect (hasEffect_whenAdmitted fun hf _ => ?_) h
    split
    · exact hasEffect_raise _ hf nofun
    · exact writesE _ _
  | mvex e k => exact onUnit_effect (hasEffect_whenAdmitted fun hf _ => hasEffect_withStateIndex k hf fun _ => writesE _ _) h
  | mvxe e k => exact onUnit_effect (hasEffect_whenAdmitted fun hf _ => hasEffect_withStateIndex k hf fun _ => writesX _) h
  | mix m => exact onUnit_effect (hasEffect_whenAdmitted fun hf _ => hasEffect_withMatrix m hf fun _ => writesX _) h
  | arc r => exact onUnit_effect (hasEffect_whenAdmitted fun hf _ => hasEffect_withRound r hf fun _ => writesX _) h
  | sboxF => exact onUnit_effect (hasEffect_whenAdmitted fun _ _ => writesX _) h
  | sboxP => exact onUnit_effect (hasEffect_whenAdmitted fun _ _ => writesX _) h
  | sboxiF => exact onUnit_effect (hasEffect_whenAdmitted fun _ _ => writesX _) h
  | sboxiP => exact onUnit_effect (hasEffect_whenAdmitted fun _ _ => writesX _) h
  | rnd r => exact onUnit_effect (hasEffect_whenAdmitted fun hf _ => hasEffect_withRound r hf fun _ => writesX _) h
  | rndi r => exact onUnit_effect (hasEffect_whenAdmitted fun hf _ => hasEffect_withRound r hf fun _ => writesX _) h
  | eval rs re =>
    exact onUnit_effect (hasEffect_whenAdmitted fun hf _ => hasEffect_withRange rs re hf fun _ _ _ => writesX _) h
  | evali rs re =>
    exact onUnit_effect (hasEffect_whenAdmitted fun hf _ => hasEffect_withRange rs re hf fun _ _ _ => writesX _) h
  | evalT rs re =>
    refine onUnit_effect (hasEffect_whenAdmitted fun hf _ => hasEffect_withRange rs re hf fun p q hq => ?_) h
    have := forwardTail_length_le (u := s.unit) p q s.unit.x
    exact hasEffect_next (.traces _ rfl (by simp only [List.length_cons]; omega))
  | evaliT rs re =>
    refine onUnit_effect (hasEffect_whenAdmitted fun hf _ => hasEffect_withRange rs re hf fun p q hq => ?_) h
    have := inverseTail_length_le (u := s.unit) p q s.unit.x
    exact hasEffect_next (.traces _ rfl (by simp only [List.length_cons]; omega))
  | commit =>
    refine onUnit_effect (hasEffect_whenAdmitted fun hf hp => ?_) h
    split
    · exact hasEffect_raise _ hf (commitFault_ne_none ‹_›)
    · exact hasEffect_next (.commits (phase_of_phaseFault_config hp) ‹_›)
  | clrf => exact onUnit_effect (f := fun u => .next u.clearFault) (hasEffect_next .clears) h
  | srst => exact onUnit_effect (f := fun _ => .next (.reset s.build)) (hasEffect_next .resets) h

/-! ### Everything a step can do -/

/-- Everything a word that is no command can do (R61, R192). -/
theorem illegalWord_cases (u : UnitState b) (e : DecodeError) (w : Word) :
    illegalWord u e w = u ∨ illegalWord u e w = u.raise (decodeCause e) w := by
  cases hf : u.fault
  · exact .inr (illegalWord_clear hf)
  · exact .inl (illegalWord_latched hf)

/-- What a host action can make of the unit. -/
inductive ActionEffect (u : UnitState b) : HostAction → UnitState b → Prop
  | reads (i : WordIndex) : ActionEffect u (.read i) u
  | resets : ActionEffect u .reset (.reset b)
  | commands {w : Word} {i : Instr} {v : UnitState b} (hd : decode w = .ok i) (h : CommandEffect u i v) :
      ActionEffect u (.write cmdIndex w) v
  /-- a word that is no command (R61) -/
  | rejects {w : Word} {e : DecodeError} (hd : decode w = .error e) :
      ActionEffect u (.write cmdIndex w) (illegalWord u e w)
  /-- a write to the window (R42) -/
  | writes {i : WordIndex} (w : Word) (hi : i ≠ cmdIndex) : ActionEffect u (.write i w) (hostWrite u i w)

theorem command_effect {w : Word} {s t : State} (h : command w s = .next t) :
    ∃ v, ActionEffect s.unit (.write cmdIndex w) v ∧ t = { s with unit := v } := by
  cases hd : decode w with
  | ok i =>
    obtain ⟨v, hv, rfl⟩ := exec_effect (command_of_decode hd ▸ h)
    exact ⟨v, .commands hd hv, rfl⟩
  | error e =>
    rw [command_of_error hd] at h
    exact ⟨_, .rejects hd, (Host.Outcome.next.inj h).symm⟩

theorem perform_effect {a : HostAction} {s t : State} (h : perform a s = .next t) :
    ∃ v l, ActionEffect s.unit a v ∧ t = { s with unit := v, replies := l } := by
  cases a with
  | read i =>
    obtain rfl := Host.Outcome.next.inj h
    exact ⟨_, _, .reads i, rfl⟩
  | reset =>
    obtain rfl := Host.Outcome.next.inj h
    exact ⟨_, _, .resets, rfl⟩
  | write i w =>
    by_cases hi : i = cmdIndex
    · subst hi
      obtain ⟨v, hv, rfl⟩ := command_effect (perform_command w s ▸ h)
      exact ⟨v, _, hv, rfl⟩
    · rw [perform_write hi] at h
      obtain rfl := Host.Outcome.next.inj h
      exact ⟨_, _, .writes w hi, rfl⟩

/-- A step that answers a next state is idle, or the effect of the host's next action. -/
theorem step_effect {s t : State} (h : step s = .next t) :
    (s.pending = [] ∧ t = s) ∨
    ∃ a rest v l, s.pending = a :: rest ∧ ActionEffect s.unit a v ∧
      t = { s with
        unit := v, pending := rest, replies := l, wentWrong := s.wentWrong || s.unit.fault || v.fault } := by
  cases hs : s.pending with
  | nil => exact .inl ⟨rfl, (Host.Outcome.next.inj ((step_idle hs).symm.trans h)).symm⟩
  | cons a rest =>
    rw [step_pending hs] at h
    obtain ⟨t', ht', rfl⟩ := noteFault_next.mp h
    obtain ⟨v, l, hv, rfl⟩ := perform_effect ht'
    exact .inr ⟨a, rest, v, l, rfl, hv, rfl⟩

/-! ### The configuration in `READY` -/

/-- The phase and the configuration are kept: only `E`, `X`, the latch and the trace may differ (R47, R155). -/
def KeepsConfiguration (u v : UnitState b) : Prop :=
  v = { u with
    e := v.e, x := v.x, fault := v.fault, cause := v.cause, errinfo := v.errinfo, trace := v.trace
    traceLen := v.traceLen }

theorem storeLoc_keepsConfiguration {l : Loc b} (h : locAccess l = .free) (w : Word) :
    KeepsConfiguration u (storeLoc u l w) := by
  cases l with
  | elem l k =>
    cases l with
    | e q => rfl
    | x q => rfl
    | alpha | alphaInv | polyr | m | rc | trace => cases h
  | id0 | id1 | status | err | errinfo | cmd | cfgRounds | cfgCtrl | traceLen | unmapped => cases h

theorem hostWrite_keepsConfiguration (hp : u.phase = .ready) (i : WordIndex) (w : Word) :
    KeepsConfiguration u (hostWrite u i w) := by
  obtain e | ⟨hfree | ⟨-, hp'⟩, e⟩ | ⟨-, -, -, e⟩ := hostWrite_cases u i w
  · rw [e]; rfl
  · exact e ▸ storeLoc_keepsConfiguration hfree w
  · cases hp.symm.trans hp'
  · rw [e]; rfl

theorem CommandEffect.keepsConfiguration {i : Instr} (h : CommandEffect u i v) (hp : u.phase = .ready)
    (hi : i ≠ .srst) : KeepsConfiguration u v := by
  cases h with
  | commits hp' => cases hp.symm.trans hp'
  | resets => exact absurd rfl hi
  | ignored | faulted | writesE | writesX | traces | clears => rfl

/-- A decoded word has its row's fixed bits and is that row's command (R68). -/
theorem exists_row_of_decode {w : Word} {i : Instr} (h : decode w = .ok i) :
    ∃ row ∈ opcodeTable, w &&& row.mask = row.pattern ∧ row.make w = i := by
  unfold decode at h
  split at h
  · cases h
  · next row hrow =>
    split at h
    · exact ⟨row, List.mem_of_find?_eq_some hrow, ‹_›, Except.ok.inj h⟩
    · cases h

theorem row_of_make_srst : ∀ row ∈ opcodeTable, ∀ w, row.make w = .srst →
    row.mask = 0xFFFFFFFF ∧ row.pattern = 0xFF000000 := by
  simp [opcodeTable, fieldRows, engineRows, systemRows, ite_eq_iff]

/-- The word of `SRST` is the only one that decodes to it (R150). -/
theorem eq_of_decode_srst {w : Word} (h : decode w = .ok .srst) : w = 0xFF000000 := by
  obtain ⟨row, hrow, hbits, hmake⟩ := exists_row_of_decode h
  obtain ⟨hmask, hpattern⟩ := row_of_make_srst row hrow w hmake
  have hones : w &&& 0xFFFFFFFF = w := BitVec.and_allOnes
  rw [← hpattern, ← hbits, hmask, hones]

theorem ActionEffect.keepsConfiguration {a : HostAction} (h : ActionEffect u a v) (hp : u.phase = .ready)
    (hreset : a ≠ .reset) (hsrst : a ≠ .write cmdIndex 0xFF000000) : KeepsConfiguration u v := by
  cases h with
  | reads => rfl
  | resets => exact absurd rfl hreset
  | commands hd h =>
    refine h.keepsConfiguration hp ?_
    rintro rfl
    exact hsrst (by rw [eq_of_decode_srst hd])
  | rejects =>
    obtain e | e := illegalWord_cases u _ _
    · rw [e]; rfl
    · rw [e]; rfl
  | writes w => exact hostWrite_keepsConfiguration hp _ w

/-! ### The trace -/

theorem hostWrite_trace (u : UnitState b) (i : WordIndex) (w : Word) :
    (hostWrite u i w).trace = u.trace ∧ (hostWrite u i w).traceLen = u.traceLen := by
  obtain e | ⟨-, e⟩ | ⟨-, -, -, e⟩ := hostWrite_cases u i w <;> simp [e]

theorem CommandEffect.keepsTrace {i : Instr} (h : CommandEffect u i v) (hi : writesTrace i = false) :
    v.trace = u.trace ∧ v.traceLen = u.traceLen := by
  cases h with
  | traces x hi' => cases hi.symm.trans hi'
  | resets => cases hi
  | ignored | faulted | writesE | writesX | commits | clears => exact ⟨rfl, rfl⟩

theorem ActionEffect.keepsTrace {a : HostAction} (h : ActionEffect u a v) (hreset : a ≠ .reset)
    (hcommand : ∀ w i, a = .write cmdIndex w → decode w = .ok i → writesTrace i = false) :
    v.trace = u.trace ∧ v.traceLen = u.traceLen := by
  cases h with
  | reads => exact ⟨rfl, rfl⟩
  | resets => exact absurd rfl hreset
  | commands hd h => exact h.keepsTrace (hcommand _ _ rfl hd)
  | rejects =>
    obtain e | e := illegalWord_cases u _ _
    · rw [e]; exact ⟨rfl, rfl⟩
    · rw [e]; exact ⟨rfl, rfl⟩
  | writes w => exact hostWrite_trace u _ w

/-! ### What an accepted `COMMIT` establishes -/

@[simp] theorem isInversePair_iff {p q : Fin 6} : u.isInversePair p q = true ↔ PairIsIdentity u p q := decide_eq_true_iff

/-- `COMMIT` accepts exactly the configurations that pass its five checks (R145). -/
theorem commitFault_eq_none_iff :
    u.commitFault = none ↔
      (u.rfb.toNat ≤ u.rf.toNat ∧ u.rounds ≤ b.rmax) ∧ Nat.gcd u.alpha.toNat b.ord1 = 1 ∧
      PairIsIdentity u 0 1 ∧ PairIsIdentity u 2 3 ∧ PairIsIdentity u 4 5 := by
  simp only [← isInversePair_iff, ← Nat.not_lt, ← not_or]
  unfold UnitState.commitFault
  split_ifs <;> simp_all

/-- The inverse exponent that `COMMIT` writes: the value of R145, in the range R29 gives it. -/
theorem computedAlphaInv_spec (h : Nat.gcd u.alpha.toNat b.ord1 = 1) :
    u.alpha.toNat * u.computedAlphaInv.toNat % b.ord1 = 1 ∧ 1 ≤ u.computedAlphaInv.toNat ∧
      u.computedAlphaInv.toNat < b.ord1 := by
  have hpow : 2 ^ 3 ≤ 2 ^ b.n := Nat.pow_le_pow_right (by decide) b.three_le_n
  have hord : 1 < b.ord1 := by unfold Build.ord1; omega
  have hlt : b.ord1 < 2 ^ b.n := by unfold Build.ord1; omega
  have hspec := modInv_spec hord h
  have htoNat : u.computedAlphaInv.toNat = modInv u.alpha.toNat b.ord1 := by
    rw [UnitState.computedAlphaInv, BitVec.toNat_ofNat, Nat.mod_eq_of_lt (hspec.2.2.trans hlt)]
  rwa [htoNat]

theorem optimizedRc_eq_zero {r : Fin b.rmax} {i : Fin b.t} (hr : u.rfb.toNat ≤ r.val)
    (hr' : r.val < u.rfb.toNat + u.rp.toNat) (hi : 1 ≤ i.val) : u.optimizedRc[r][i] = 0 := by
  simp [UnitState.optimizedRc, UnitState.isOptimizedAway, hr, hr', hi]

/-- The facts of R158 hold of the configuration an accepted `COMMIT` leaves. -/
theorem instanceValid_enterReady (hc : u.commitFault = none) :
    InstanceValid (u.enterReady u.computedAlphaInv (if u.opt then u.optimizedRc else u.rc)) := by
  obtain ⟨⟨hrfb, hrounds⟩, hgcd, hminit, hmf, hmp⟩ := commitFault_eq_none_iff.mp hc
  obtain ⟨hmul, hpos, hlt⟩ := computedAlphaInv_spec hgcd
  refine ⟨hrfb, hrounds, hgcd, hpos, Nat.le_sub_one_of_lt hlt, hmul, hminit, hmf, hmp, fun hopt r i hr hr' hi => ?_⟩
  have hopt : u.opt = true := hopt
  rw [UnitState.enterReady_rc, if_pos hopt]
  exact optimizedRc_eq_zero (u := u) hr hr' hi

/-! ### The invariant -/

theorem LatchConsistent.of_eq (h : LatchConsistent u) (hf : v.fault = u.fault) (hc : v.cause = u.cause)
    (he : v.errinfo = u.errinfo) : LatchConsistent v := by
  obtain ⟨hcause, herrinfo, hset⟩ := h
  exact ⟨hf ▸ hc ▸ hcause, hf ▸ he ▸ herrinfo, hf ▸ hc ▸ hset⟩

theorem latchConsistent_raise {c : Cause} (hc : c ≠ .none) (w : Word) : LatchConsistent (u.raise c w) :=
  ⟨nofun, nofun, fun _ => hc⟩

theorem InstanceValid.of_keeps (hu : InstanceValid u) (h : KeepsConfiguration u v) : InstanceValid v := by
  unfold KeepsConfiguration at h
  rw [h]
  obtain ⟨hrfb, hrounds, hgcd, hpos, hle, hmul, hminit, hmf, hmp, hopt⟩ := hu
  exact ⟨hrfb, hrounds, hgcd, hpos, hle, hmul, hminit, hmf, hmp, hopt⟩

/-- A unit that keeps the configuration keeps the invariant, when its latch and its trace length do. -/
theorem UnitInv.of_keeps (hu : UnitInv u) (h : KeepsConfiguration u v) (hl : LatchConsistent v)
    (ht : v.traceLen.toNat ≤ b.rmax + 2) : UnitInv v where
  latch := hl
  ready_valid hp := (hu.ready_valid ((congrArg UnitState.phase h).symm.trans hp)).of_keeps h
  config_alphaInv hp :=
    (congrArg UnitState.alphaInv h).trans (hu.config_alphaInv ((congrArg UnitState.phase h).symm.trans hp))
  traceLen_le := ht

theorem UnitInv.raise (hu : UnitInv u) {c : Cause} (hc : c ≠ .none) (w : Word) : UnitInv (u.raise c w) :=
  hu.of_keeps rfl (latchConsistent_raise hc w) hu.traceLen_le

theorem unitInv_reset (b : Build) : UnitInv (.reset b) where
  latch := ⟨fun _ => rfl, fun _ => rfl, nofun⟩
  ready_valid := nofun
  config_alphaInv _ := rfl
  traceLen_le := Nat.zero_le _

/-- A store to the window keeps the invariant: one to configuration state takes effect in `CONFIG` only, and none reaches
`ALPHA_INV` (R47, R48). -/
theorem unitInv_hostWrite (hu : UnitInv u) (i : WordIndex) (w : Word) : UnitInv (hostWrite u i w) := by
  obtain e | ⟨hright, e⟩ | ⟨-, -, -, e⟩ := hostWrite_cases u i w
  · rw [e]
    exact hu
  · have hl : LatchConsistent (storeLoc u (locate b i) w) :=
      hu.latch.of_eq (storeLoc_fault u _ w) (storeLoc_cause u _ w) (storeLoc_errinfo u _ w)
    have ht : (storeLoc u (locate b i) w).traceLen.toNat ≤ b.rmax + 2 := storeLoc_traceLen u _ w ▸ hu.traceLen_le
    rw [e]
    obtain hfree | ⟨-, hp⟩ := hright
    · exact hu.of_keeps (storeLoc_keepsConfiguration hfree w) hl ht
    · exact ⟨hl, by simp [hp], by simpa using hu.config_alphaInv, ht⟩
  · rw [e]
    exact hu.raise (c := .phaseLocked) nofun _

theorem CommandEffect.unitInv {i : Instr} (h : CommandEffect u i v) (hu : UnitInv u) : UnitInv v := by
  cases h with
  | ignored => exact hu
  | faulted _ _ hc => exact hu.raise hc _
  | writesE => exact hu.of_keeps rfl (hu.latch.of_eq rfl rfl rfl) hu.traceLen_le
  | writesX => exact hu.of_keeps rfl (hu.latch.of_eq rfl rfl rfl) hu.traceLen_le
  | traces x hi hlen =>
    refine hu.of_keeps rfl (hu.latch.of_eq rfl rfl rfl) ?_
    rw [UnitState.storeTrace_traceLen, BitVec.toNat_ofNat]
    exact (Nat.mod_le _ _).trans hlen
  | commits hp hc => exact ⟨hu.latch.of_eq rfl rfl rfl, fun _ => instanceValid_enterReady hc, nofun, hu.traceLen_le⟩
  | clears => exact hu.of_keeps rfl ⟨fun _ => rfl, fun _ => rfl, nofun⟩ hu.traceLen_le
  | resets => exact unitInv_reset b

theorem decodeCause_ne_none (e : DecodeError) : decodeCause e ≠ .none := by
  cases e <;> exact nofun

theorem ActionEffect.unitInv {a : HostAction} (h : ActionEffect u a v) (hu : UnitInv u) : UnitInv v := by
  cases h with
  | reads => exact hu
  | resets => exact unitInv_reset b
  | commands hd h => exact h.unitInv hu
  | rejects =>
    obtain e | e := illegalWord_cases u _ _
    · rw [e]; exact hu
    · rw [e]; exact hu.raise (decodeCause_ne_none _) _
  | writes w => exact unitInv_hostWrite hu _ w

end Sys2Proof.Machine

namespace Sys2Proof.Proofs

open Sys2Proof Sys2Proof.Machine Sys2Proof.Claims

/-- Settles O53: no effect of an action but a reset touches the configuration of a `READY` unit. -/
theorem configurationIsReadOnlyInReady : Obligations.ConfigurationIsReadOnlyInReady := by
  intro s t hp hreset h
  obtain ⟨-, rfl⟩ | ⟨a, rest, v, l, hs, ha, rfl⟩ := step_effect h
  · exact ⟨t.unit, rfl, hp, rfl, rfl, rfl, rfl, rfl, rfl, rfl, rfl⟩
  · have hv : KeepsConfiguration s.unit v := ha.keepsConfiguration hp
      (fun e => hreset ⟨rest, .inl (e ▸ hs)⟩) (fun e => hreset ⟨rest, .inr (e ▸ hs)⟩)
    unfold KeepsConfiguration at hv
    refine ⟨v, rfl, ?_⟩
    rw [hv]
    exact ⟨hp, rfl, rfl, rfl, rfl, rfl, rfl, rfl, rfl⟩

/-- Settles O54, from every effect an action can have. -/
theorem traceChangesOnlyByTracedEvaluation : Obligations.TraceChangesOnlyByTracedEvaluation := by
  intro s t h hreset hcommand
  obtain ⟨-, rfl⟩ | ⟨a, rest, v, l, hs, ha, rfl⟩ := step_effect h
  · exact ⟨t.unit, rfl, rfl, rfl⟩
  · exact ⟨v, rfl, ha.keepsTrace (fun e => hreset rest (e ▸ hs)) fun w i e => hcommand w rest i (e ▸ hs)⟩

/-- Settles O56: every effect an action can have keeps the unit's invariant, and the step notes a latched fault. -/
theorem stepKeepsTheInvariant : Obligations.StepKeepsTheInvariant := by
  intro s t hs h
  obtain ⟨-, rfl⟩ | ⟨a, rest, v, l, -, ha, rfl⟩ := step_effect h
  · exact hs
  · exact ⟨ha.unitInv hs.unit_inv, fun hf => by simp [show v.fault = true from hf]⟩

/-- Settles O57: nothing is latched, and a unit after reset is in `CONFIG`. -/
theorem resetMeetsTheInvariant : Obligations.ResetMeetsTheInvariant := fun b => ⟨unitInv_reset b, nofun⟩

end Sys2Proof.Proofs
end

section
/-! PROOF. The reset state (10_state.md R36, R205, R150): every item is zero, and the identification words and `POLYR` still
read the build's parameters (R30, R31, R44). -/

namespace Sys2Proof.Machine

open Sys2Proof.Claims

variable {b : Build}

theorem allZero_unitReset (b : Build) : AllZero (UnitState.reset b) := by
  refine ⟨fun i => ?_, fun i => ?_, rfl, rfl, rfl, rfl, rfl, rfl, rfl, rfl, rfl, rfl, fun k i j => ?_, fun r i => ?_,
    fun k i => ?_, rfl⟩
  all_goals simp [UnitState.reset, zeroMat, zeroVec]

/-! ### The window's map at an offset -/

/-- The number of two fields side by side: the high one counts in units of 2^n. -/
theorem toNat_append_eq_add {m n : Nat} (x : BitVec m) (y : BitVec n) : (x ++ y).toNat = 2 ^ n * x.toNat + y.toNat := by
  rw [BitVec.toNat_append, ← Nat.shiftLeft_add_eq_or_of_lt y.isLt, Nat.shiftLeft_eq, Nat.mul_comm]

/-- An aligned offset inside the window is its word's (R40). -/
theorem offsetOf_wordAt {off : Nat} (h : off < 2 ^ 20) (h4 : off % 4 = 0) :
    (offsetOf (wordAt (BitVec.ofNat 20 off))).toNat = off := by
  rw [offsetOf, toNat_append_eq_add, wordAt, BitVec.extractLsb'_toNat, BitVec.toNat_ofNat, Nat.shiftRight_eq_div_pow]
  simp only [BitVec.toNat_ofNat]
  omega

theorem locate_wordAt {off : Nat} (h : off < 2 ^ 20) (h4 : off % 4 = 0) :
    locate b (wordAt (BitVec.ofNat 20 off)) = locateOffset b off := by
  rw [locate, offsetOf_wordAt h h4]

theorem ew_le (b : Build) : b.ew ≤ 8 := by
  have := b.n_le
  unfold Build.ew
  omega

/-- Word k of element q of a region stands at ES·q + 4·k from the region's base (R44). -/
theorem regionLoc_of_word {q k : Nat} {elemAt : Nat → Option (ElemLoc b)} {l : ElemLoc b} (hk : k < b.ew)
    (hl : elemAt q = some l) : regionLoc b (b.es * q + 4 * k) elemAt = .elem l k := by
  have hes : 4 * k < b.es := by unfold Build.es; omega
  have hq : (b.es * q + 4 * k) / b.es = q := by
    rw [Nat.mul_add_div (by omega), Nat.div_eq_of_lt hes, Nat.add_zero]
  simp [regionLoc, hq, hl, Nat.mod_eq_of_lt hes]

theorem locateOffset_polyr {k : Nat} (hk : k < b.ew) : locateOffset b (0x300 + 4 * b.ew * 2 + 4 * k) = .elem .polyr k := by
  have hew := ew_le b
  have hrel : 0x300 + 4 * b.ew * 2 + 4 * k - 0x300 = b.es * 2 + 4 * k := by unfold Build.es; omega
  unfold locateOffset
  rw [if_neg (by omega), if_neg (by omega), if_pos (by omega), hrel]
  exact regionLoc_of_word hk rfl

/-! ### The words that read the parameters -/

theorem id0Word_toNat (b : Build) : (id0Word b).toNat = b.n + 2 ^ 16 * b.t + 2 ^ 24 * 1 := by
  have hn := b.n_le
  have ht := b.t_le
  simp only [id0Word, toNat_append_eq_add, BitVec.toNat_ofNat]
  omega

theorem id1Word_toNat (b : Build) : (id1Word b).toNat = b.rmax + 2 ^ 8 * b.ew := by
  have hr := b.rmax_le
  have hew := ew_le b
  simp only [id1Word, toNat_append_eq_add, BitVec.toNat_ofNat]
  omega

/-- `POLYR` reads the parameter, whatever the state (R30). -/
theorem hostRead_polyr (u : UnitState b) {k : Nat} (hk : k < b.ew) :
    hostRead u (wordAt (BitVec.ofNat 20 (0x300 + 4 * b.ew * 2 + 4 * k))) = b.poly.extractLsb' (32 * k) 32 := by
  have hew := ew_le b
  exact hostRead_elem u ((locate_wordAt (by omega) (by omega)).trans (locateOffset_polyr hk))

theorem step_reset {s : State} {rest : List HostAction} (h : s.pending = .reset :: rest) :
    step s = .next { s with unit := .reset s.build, pending := rest, wentWrong := s.wentWrong || s.unit.fault } := by
  simp [step_pending h, perform_reset, UnitState.reset]

end Sys2Proof.Machine

namespace Sys2Proof.Proofs

open Sys2Proof Sys2Proof.Machine Sys2Proof.Claims

/-- Settles O1: every reset leaves the all-zero unit, and the words that read the parameters depend on the build alone. -/
theorem resetStateIsAllZero : Obligations.ResetStateIsAllZero :=
  ⟨fun b => allZero_unitReset b,
    fun s _ h => ⟨.reset s.build, allZero_unitReset _, step_reset h⟩,
    fun s => ⟨.reset s.build, allZero_unitReset _, rfl⟩,
    fun b u _ => ⟨id0Word_toNat b, id1Word_toNat b, fun _ hk => hostRead_polyr u hk⟩⟩

end Sys2Proof.Proofs
end

section
/-! PROOF. The window's map (20_memory.md R44, R48): every element's words stand at their offsets and nowhere else, and what is
no word of an element or a register is unmapped. -/

namespace Sys2Proof.Machine

variable {b : Build}

/-! ### Element indices of a matrix, of `RC` and of `TRACE` -/

theorem rowMajor_lt {i m : Nat} (hi : i < m) (j : Fin b.t) : i * b.t + j.val < 32 * m := by
  have hj := j.isLt
  calc i * b.t + j.val < (i + 1) * b.t := by rw [Nat.succ_mul]; omega
    _ ≤ m * 32 := Nat.mul_le_mul hi b.t_le
    _ = 32 * m := Nat.mul_comm m 32

theorem rowMajor_div (i : Nat) (j : Fin b.t) : (i * b.t + j.val) / b.t = i := by
  rw [Nat.mul_comm, Nat.mul_add_div j.pos, Nat.div_eq_of_lt j.isLt, Nat.add_zero]

/-! ### The regions -/

theorem locateOffset_register {off : Nat} (h : off < 0x100) : locateOffset b off = registerLoc b off := if_pos h

theorem locateOffset_regionE {rel : Nat} (h : rel < 0x200) : locateOffset b (0x100 + rel) = regionLoc b rel (eElem b) := by
  unfold locateOffset
  rw [if_neg (by omega), if_pos (by omega), Nat.add_sub_cancel_left]

theorem locateOffset_regionParam {rel : Nat} (h : rel < 0x100) :
    locateOffset b (0x300 + rel) = regionLoc b rel (paramElem b) := by
  unfold locateOffset
  rw [if_neg (by omega), if_neg (by omega), if_pos (by omega), Nat.add_sub_cancel_left]

theorem locateOffset_regionX {rel : Nat} (h : rel < 0xFC00) :
    locateOffset b (0x400 + rel) = regionLoc b rel (xElem b) := by
  unfold locateOffset
  rw [if_neg (by omega), if_neg (by omega), if_neg (by omega), if_pos (by omega), Nat.add_sub_cancel_left]

theorem locateOffset_regionMat {k rel : Nat} (hk : k < 6) (h : rel < 0x8000) :
    locateOffset b (0x10000 + 0x8000 * k + rel) = regionLoc b rel (matElem b k) := by
  have hmod : (0x10000 + 0x8000 * k + rel - 0x10000) % 0x8000 = rel := by omega
  have hdiv : (0x10000 + 0x8000 * k + rel - 0x10000) / 0x8000 = k := by omega
  unfold locateOffset
  rw [if_neg (by omega), if_neg (by omega), if_neg (by omega), if_neg (by omega), if_pos (by omega), hmod, hdiv]

theorem locateOffset_regionRc {rel : Nat} (h : rel < 0x40000) :
    locateOffset b (0x40000 + rel) = regionLoc b rel (rcElem b) := by
  unfold locateOffset
  rw [if_neg (by omega), if_neg (by omega), if_neg (by omega), if_neg (by omega), if_neg (by omega), if_pos (by omega),
    Nat.add_sub_cancel_left]

theorem locateOffset_regionTrace (rel : Nat) : locateOffset b (0x80000 + rel) = regionLoc b rel (traceElem b) := by
  unfold locateOffset
  rw [if_neg (by omega), if_neg (by omega), if_neg (by omega), if_neg (by omega), if_neg (by omega), if_neg (by omega),
    Nat.add_sub_cancel_left]

/-! ### An element's words are found at its offset -/

/-- The bytes between an element's region and the next one (R44). -/
def regionSize : ElemLoc b → Nat
  | .e _ => 0x200
  | .alpha | .alphaInv | .polyr => 0x100
  | .x _ => 0xFC00
  | .m _ _ _ => 0x8000
  | .rc _ _ => 0x40000
  | .trace _ _ => 0x80000

/-- The words of the first `m` elements of a region take at most 32·m bytes. -/
theorem wordOffset_lt {q k m : Nat} (hq : q < m) (hk : k < b.ew) : b.es * q + 4 * k < 32 * m := by
  have hew := ew_le b
  calc b.es * q + 4 * k < b.es * (q + 1) := by rw [Nat.mul_succ]; unfold Build.es; omega
    _ ≤ 32 * m := Nat.mul_le_mul (by unfold Build.es; omega) hq

theorem wordOffset_lt_regionSize (l : ElemLoc b) {k : Nat} (hk : k < b.ew) :
    b.es * (elemPlace b l).2 + 4 * k < regionSize l := by
  have ht := b.t_le
  have hr := b.rmax_le
  cases l with
  | e q => exact wordOffset_lt q.isLt hk
  | alpha => exact wordOffset_lt (q := 0) (m := 8) (by decide) hk
  | alphaInv => exact wordOffset_lt (q := 1) (m := 8) (by decide) hk
  | polyr => exact wordOffset_lt (q := 2) (m := 8) (by decide) hk
  | x q => exact Nat.lt_of_lt_of_le (wordOffset_lt q.isLt hk) (by simp only [regionSize]; omega)
  | m a i j => exact Nat.lt_of_lt_of_le (wordOffset_lt (rowMajor_lt i.isLt j) hk) (by simp only [regionSize]; omega)
  | rc r i => exact Nat.lt_of_lt_of_le (wordOffset_lt (rowMajor_lt r.isLt i) hk) (by simp only [regionSize]; omega)
  | trace r i => exact Nat.lt_of_lt_of_le (wordOffset_lt (rowMajor_lt r.isLt i) hk) (by simp only [regionSize]; omega)

theorem locateOffset_elemOffset (l : ElemLoc b) {k : Nat} (hk : k < b.ew) :
    locateOffset b (elemOffset b l k) = .elem l k := by
  have hfit := wordOffset_lt_regionSize l hk
  rw [elemOffset, Nat.add_assoc]
  cases l with
  | e q => exact (locateOffset_regionE hfit).trans (regionLoc_of_word hk (dif_pos q.isLt))
  | alpha => exact (locateOffset_regionParam hfit).trans (regionLoc_of_word hk rfl)
  | alphaInv => exact (locateOffset_regionParam hfit).trans (regionLoc_of_word hk rfl)
  | polyr => exact (locateOffset_regionParam hfit).trans (regionLoc_of_word hk rfl)
  | x q => exact (locateOffset_regionX hfit).trans (regionLoc_of_word hk (dif_pos q.isLt))
  | m a i j =>
    refine (locateOffset_regionMat a.isLt hfit).trans (regionLoc_of_word hk ?_)
    simp [elemPlace, matElem, rowMajor_div, Nat.mod_eq_of_lt j.isLt]
  | rc r i =>
    refine (locateOffset_regionRc hfit).trans (regionLoc_of_word hk ?_)
    simp [elemPlace, rcElem, rowMajor_div, Nat.mod_eq_of_lt i.isLt]
  | trace r i =>
    refine (locateOffset_regionTrace _).trans (regionLoc_of_word hk ?_)
    simp [elemPlace, traceElem, rowMajor_div, Nat.mod_eq_of_lt i.isLt]

theorem elemOffset_lt_window (l : ElemLoc b) {k : Nat} (hk : k < b.ew) : elemOffset b l k < 0x100000 := by
  have hfit := wordOffset_lt_regionSize l hk
  rw [elemOffset, Nat.add_assoc]
  cases l <;> (simp only [elemPlace, regionSize] at hfit ⊢; omega)

theorem elemOffset_mod_four (l : ElemLoc b) (k : Nat) : elemOffset b l k % 4 = 0 := by
  have hbase : (elemPlace b l).1 % 4 = 0 := by
    cases l with
    | m a i j => simp only [elemPlace]; omega
    | _ => simp only [elemPlace]
  rw [elemOffset, Build.es, Nat.mul_assoc]
  omega

theorem elemOffset_alphaInv (b : Build) (k : Nat) : elemOffset b .alphaInv k = 0x300 + 4 * b.ew + 4 * k := by
  simp [elemOffset, elemPlace, Build.es]

/-! ### An element's words are found nowhere else -/

theorem elemPlace_of_eElem {q : Nat} {l : ElemLoc b} (h : eElem b q = some l) : elemPlace b l = (0x100, q) := by
  unfold eElem at h
  split at h
  · cases h; rfl
  · cases h

theorem elemPlace_of_paramElem {q : Nat} {l : ElemLoc b} (h : paramElem b q = some l) : elemPlace b l = (0x300, q) := by
  unfold paramElem at h
  split at h
  · cases h; rfl
  · cases h; rfl
  · cases h; rfl
  · cases h

theorem elemPlace_of_xElem {q : Nat} {l : ElemLoc b} (h : xElem b q = some l) : elemPlace b l = (0x400, q) := by
  unfold xElem at h
  split at h
  · cases h; rfl
  · cases h

theorem elemPlace_of_matElem {k q : Nat} {l : ElemLoc b} (h : matElem b k q = some l) :
    elemPlace b l = (0x10000 + 0x8000 * k, q) := by
  unfold matElem at h
  split at h
  · cases h; simp [elemPlace, Nat.div_add_mod']
  · cases h

theorem elemPlace_of_rcElem {q : Nat} {l : ElemLoc b} (h : rcElem b q = some l) : elemPlace b l = (0x40000, q) := by
  unfold rcElem at h
  split at h
  · cases h; simp [elemPlace, Nat.div_add_mod']
  · cases h

theorem elemPlace_of_traceElem {q : Nat} {l : ElemLoc b} (h : traceElem b q = some l) : elemPlace b l = (0x80000, q) := by
  unfold traceElem at h
  split at h
  · cases h; simp [elemPlace, Nat.div_add_mod']
  · cases h

/-- Above the register words every offset lies in the region of some elements, which stand there by their index (R44). -/
theorem exists_region {off : Nat} (h : 0x100 ≤ off) :
    ∃ base rel elemAt, off = base + rel ∧ base % 4 = 0 ∧ locateOffset b off = regionLoc b rel elemAt ∧
      ∀ q l, elemAt q = some l → elemPlace b l = (base, q) := by
  by_cases hE : off < 0x300
  · obtain ⟨rel, rfl⟩ := Nat.exists_eq_add_of_le h
    exact ⟨_, rel, _, rfl, rfl, locateOffset_regionE (by omega), fun _ _ => elemPlace_of_eElem⟩
  by_cases hParam : off < 0x400
  · obtain ⟨rel, rfl⟩ := Nat.exists_eq_add_of_le (Nat.le_of_not_lt hE)
    exact ⟨_, rel, _, rfl, rfl, locateOffset_regionParam (by omega), fun _ _ => elemPlace_of_paramElem⟩
  by_cases hX : off < 0x10000
  · obtain ⟨rel, rfl⟩ := Nat.exists_eq_add_of_le (Nat.le_of_not_lt hParam)
    exact ⟨_, rel, _, rfl, rfl, locateOffset_regionX (by omega), fun _ _ => elemPlace_of_xElem⟩
  by_cases hMat : off < 0x40000
  · obtain ⟨k, rel, hk, hrel, rfl⟩ : ∃ k rel, k < 6 ∧ rel < 0x8000 ∧ off = 0x10000 + 0x8000 * k + rel :=
      ⟨(off - 0x10000) / 0x8000, (off - 0x10000) % 0x8000, by omega, by omega, by omega⟩
    exact ⟨_, rel, _, rfl, by omega, locateOffset_regionMat hk hrel, fun _ _ => elemPlace_of_matElem⟩
  by_cases hRc : off < 0x80000
  · obtain ⟨rel, rfl⟩ := Nat.exists_eq_add_of_le (Nat.le_of_not_lt hMat)
    exact ⟨_, rel, _, rfl, rfl, locateOffset_regionRc (by omega), fun _ _ => elemPlace_of_rcElem⟩
  · obtain ⟨rel, rfl⟩ := Nat.exists_eq_add_of_le (Nat.le_of_not_lt hRc)
    exact ⟨_, rel, _, rfl, rfl, locateOffset_regionTrace rel, fun _ _ => elemPlace_of_traceElem⟩

theorem es_pos (b : Build) : 0 < b.es := by
  have := b.three_le_n
  unfold Build.es Build.ew
  omega

/-- Above the register words an aligned offset is a word of an element, at that element's offset, or it is unmapped. -/
theorem locateOffset_cases {off : Nat} (h : 0x100 ≤ off) (h4 : off % 4 = 0) :
    locateOffset b off = .unmapped ∨
    ∃ l k, locateOffset b off = .elem l k ∧ k < b.ew ∧ off = elemOffset b l k := by
  obtain ⟨base, rel, elemAt, hoff, hbase, hloc, hplace⟩ := exists_region (b := b) h
  rw [hloc, regionLoc]
  cases hl : elemAt (rel / b.es) with
  | none => exact .inl rfl
  | some l =>
    have hk := Nat.mod_lt rel (es_pos b)
    have hrel := Nat.div_add_mod rel b.es
    have hrel4 : rel % b.es % 4 = 0 := by rw [Build.es, Nat.mod_mul_right_mod]; omega
    refine .inr ⟨l, _, rfl, by unfold Build.es at *; omega, ?_⟩
    rw [elemOffset, hplace _ _ hl]
    dsimp only
    omega

theorem registerLoc_ne_elem (off : Nat) (l : ElemLoc b) (k : Nat) : registerLoc b off ≠ .elem l k := by
  unfold registerLoc
  split <;> nofun

theorem locateOffset_eq_elem {off : Nat} {l : ElemLoc b} {k : Nat} (h4 : off % 4 = 0)
    (h : locateOffset b off = .elem l k) : k < b.ew ∧ off = elemOffset b l k := by
  rcases Nat.lt_or_ge off 0x100 with hlo | hhi
  · exact absurd ((locateOffset_register hlo).symm.trans h) (registerLoc_ne_elem off l k)
  · obtain hun | ⟨l', k', hl, hk, hoff⟩ := locateOffset_cases hhi h4
    · cases hun.symm.trans h
    · cases hl.symm.trans h
      exact ⟨hk, hoff⟩

end Sys2Proof.Machine

namespace Sys2Proof.Proofs

open Sys2Proof Sys2Proof.Machine Sys2Proof.Claims

/-- Settles O43: each clause is the map at the offset of one kind of element. -/
theorem windowMapIsExact : Obligations.WindowMapIsExact := fun b =>
  ⟨fun _ hk =>
    ⟨fun q => locateOffset_elemOffset (.e q) hk,
      locateOffset_elemOffset .alpha hk,
      elemOffset_alphaInv b _ ▸ locateOffset_elemOffset .alphaInv hk,
      locateOffset_elemOffset .polyr hk,
      fun q => locateOffset_elemOffset (.x q) hk,
      fun m i j => locateOffset_elemOffset (.m m i j) hk,
      fun r i => locateOffset_elemOffset (.rc r i) hk,
      fun r i => locateOffset_elemOffset (.trace r i) hk⟩,
    fun l k hk => ⟨elemOffset_lt_window l hk, elemOffset_mod_four l k⟩,
    fun _ _ _ h4 h => locateOffset_eq_elem h4 h⟩

end Sys2Proof.Proofs
end

section
/-! PROOF. The words of the window (20_memory.md R41 to R48, 10_state.md R31): what each reads, what a store to an element leaves
as it was, and which write takes effect. -/

namespace Sys2Proof.Machine

variable {b : Build}

/-! ### The bits of an element's word (R45) -/

theorem elemWord_getLsbD {n : Nat} (v : BitVec n) (k j : Nat) :
    (elemWord v k).getLsbD j = (decide (j < 32) && v.getLsbD (32 * k + j)) := by
  rw [elemWord, BitVec.getLsbD_extractLsb']

theorem withElemWord_getLsbD {n : Nat} (v : BitVec n) (k : Nat) (w : Word) (j : Nat) :
    (withElemWord v k w).getLsbD j =
      if 32 * k ≤ j ∧ j < 32 * k + 32 ∧ j < n then w.getLsbD (j - 32 * k) else v.getLsbD j := by
  simp only [withElemWord, BitVec.getLsbD_or, BitVec.getLsbD_and, BitVec.getLsbD_not, BitVec.getLsbD_shiftLeft,
    BitVec.getLsbD_setWidth, BitVec.getLsbD_allOnes]
  by_cases hn : j < n
  · by_cases hlo : j < 32 * k
    · simp [hn, hlo, Nat.not_le.mpr hlo]
    · by_cases hhi : j < 32 * k + 32
      · have hn' : j - 32 * k < n := by omega
        have h32 : j - 32 * k < 32 := by omega
        simp [hn, hlo, hhi, hn', h32]
      · have h32 : 32 ≤ j - 32 * k := by omega
        simp [hn, hlo, hhi, h32, Nat.not_lt.mpr h32]
  · simp [hn, BitVec.getLsbD_of_ge v j (Nat.le_of_not_lt hn)]

/-! ### What the words read -/

/-- A read at the offset of word k of an element returns that word (R44, R45). -/
theorem hostRead_elemOffset (u : UnitState b) (l : ElemLoc b) {k : Nat} (hk : k < b.ew) :
    hostRead u (wordAt (BitVec.ofNat 20 (elemOffset b l k))) = (u.elemAt l).extractLsb' (32 * k) 32 :=
  hostRead_elem u ((locate_wordAt (elemOffset_lt_window l hk) (elemOffset_mod_four l k)).trans
    (locateOffset_elemOffset l hk))

theorem statusWord_toNat (u : UnitState b) :
    (statusWord u).toNat = (if u.phase = .ready then 1 else 0) + 2 * u.fault.toNat := by
  rw [statusWord, toNat_append_eq_add, toNat_append_eq_add, BitVec.toNat_ofBool]
  cases hp : u.phase <;> simp [phaseBit, Nat.add_comm]

theorem errWord_toNat (u : UnitState b) : (errWord u).toNat = (causeCode u.cause).toNat := by
  simp only [errWord, toNat_append_eq_add, BitVec.toNat_ofNat]
  omega

theorem cfgRoundsWord_toNat (u : UnitState b) :
    (cfgRoundsWord u).toNat = u.rf.toNat + 2 ^ 8 * u.rfb.toNat + 2 ^ 16 * u.rp.toNat := by
  simp only [cfgRoundsWord, toNat_append_eq_add, BitVec.toNat_ofNat]
  omega

theorem cfgCtrlWord_toNat (u : UnitState b) : (cfgCtrlWord u).toNat = u.opt.toNat := by
  simp only [cfgCtrlWord, toNat_append_eq_add, BitVec.toNat_ofNat, BitVec.toNat_ofBool]
  omega

theorem traceLenWord_toNat (u : UnitState b) : (traceLenWord u).toNat = u.traceLen.toNat := by
  simp only [traceLenWord, toNat_append_eq_add, BitVec.toNat_ofNat]
  omega

/-! ### Reading after a store to an element -/

theorem UnitState.elemAt_setElem_self (u : UnitState b) {l : ElemLoc b} (v : b.Elem) (h : elemAccess l ≠ .ignored) :
    (u.setElem l v).elemAt l = v := by
  cases l with
  | e q => simp [setElem, elemAt]
  | alpha => rfl
  | alphaInv => exact absurd rfl h
  | polyr => exact absurd rfl h
  | x q => simp [setElem, elemAt]
  | m k i j => simp [setElem, elemAt, setEntry]
  | rc r i => simp [setElem, elemAt]
  | trace k i => exact absurd rfl h

/-- One entry of a vector of vectors replaced, another read. -/
theorem getElem_set_set_ne {α : Type} {n k : Nat} (a : Vector (Vector α k) n) {i i' : Fin n} {j j' : Fin k} (v : α)
    (h : i' = i → j' ≠ j) : (a.set i.val (a[i].set j.val v j.isLt) i.isLt)[i'][j'] = a[i'][j'] := by
  by_cases hi : i' = i
  · subst hi
    have hj : j.val ≠ j'.val := fun e => h rfl (Fin.ext e.symm)
    simp [Vector.getElem_set_ne _ _ hj]
  · have hi' : i.val ≠ i'.val := fun e => hi (Fin.ext e.symm)
    simp [Vector.getElem_set_ne _ _ hi']

theorem UnitState.elemAt_setElem_ne (u : UnitState b) {l l' : ElemLoc b} (v : b.Elem) (h : l' ≠ l) :
    (u.setElem l v).elemAt l' = u.elemAt l' := by
  cases l with
  | e q =>
    cases l' with
    | e q' => exact u.readE_writeE_ne q q' v (by simpa using h)
    | _ => rfl
  | alpha =>
    cases l' with
    | alpha => exact absurd rfl h
    | _ => rfl
  | x q =>
    cases l' with
    | x q' => exact u.writeX_getElem_ne q q' v (by simpa using h)
    | _ => rfl
  | m k i j =>
    cases l' with
    | m k' i' j' =>
      by_cases hk : k' = k
      · subst hk
        simpa [setElem, elemAt, setEntry] using getElem_set_set_ne u.m[k'] v fun hi hj => h (by rw [hi, hj])
      · have hk' : k.val ≠ k'.val := fun e => hk (Fin.ext e.symm)
        simp [setElem, elemAt, Vector.getElem_set_ne _ _ hk']
    | _ => rfl
  | rc r i =>
    cases l' with
    | rc r' i' => exact getElem_set_set_ne u.rc v fun hr hi => h (by rw [hr, hi])
    | _ => rfl
  | alphaInv => rfl
  | polyr => rfl
  | trace k i => rfl

/-- The register words show no element. -/
theorem readLoc_setElem_of_ne_elem (u : UnitState b) (l : ElemLoc b) (v : b.Elem) {l' : Loc b}
    (h : ∀ l'' k, l' ≠ .elem l'' k) : readLoc (u.setElem l v) l' = readLoc u l' := by
  cases l' with
  | elem l'' k => exact absurd rfl (h l'' k)
  | status => simp [readLoc, statusWord]
  | err => simp [readLoc, errWord]
  | errinfo => simp [readLoc]
  | cfgRounds => simp [readLoc, cfgRoundsWord]
  | cfgCtrl => simp [readLoc, cfgCtrlWord]
  | traceLen => simp [readLoc, traceLenWord]
  | id0 => rfl
  | id1 => rfl
  | cmd => rfl
  | unmapped => rfl

/-! ### The place of a word -/

theorem offsetOf_toNat (i : WordIndex) : (offsetOf i).toNat = 4 * i.toNat := by
  rw [offsetOf, toNat_append_eq_add]
  rfl

theorem locate_eq (b : Build) (i : WordIndex) : locate b i = locateOffset b (4 * i.toNat) := by
  rw [locate, offsetOf_toNat]

theorem eq_wordAt {i : WordIndex} {off : BitVec 20} (h : 4 * i.toNat = off.toNat) : i = wordAt off := by
  apply BitVec.eq_of_toNat_eq
  rw [wordAt, BitVec.extractLsb'_toNat, Nat.shiftRight_eq_div_pow, ← h]
  omega

theorem lockInfo_toNat (i : WordIndex) : (lockInfo i).toNat = 2 ^ 31 + 4 * i.toNat := by
  rw [lockInfo, toNat_append_eq_add, toNat_append_eq_add, offsetOf_toNat]
  rfl

/-- A place that is no element's and is mapped is a register word's, below the offset 0x100 (R44). -/
theorem locateOffset_eq_register {off : Nat} {l : Loc b} (h4 : off % 4 = 0) (h : locateOffset b off = l)
    (hun : l ≠ .unmapped) (hne : ∀ l' k, l ≠ .elem l' k) : registerLoc b off = l := by
  rcases Nat.lt_or_ge off 0x100 with hlo | hhi
  · exact (locateOffset_register hlo).symm.trans h
  · obtain e | ⟨l', k, e, -, -⟩ := locateOffset_cases (b := b) hhi h4
    · exact absurd (h.symm.trans e) hun
    · exact absurd (h.symm.trans e) (hne l' k)

theorem eq_of_registerLoc_cfgRounds {off : Nat} (h : registerLoc b off = .cfgRounds) : off = 0x018 := by
  unfold registerLoc at h
  split at h <;> cases h
  rfl

theorem eq_of_registerLoc_cfgCtrl {off : Nat} (h : registerLoc b off = .cfgCtrl) : off = 0x01C := by
  unfold registerLoc at h
  split at h <;> cases h
  rfl

theorem locate_eq_cfgRounds_iff {i : WordIndex} : locate b i = .cfgRounds ↔ i = wordAt 0x018 := by
  constructor
  · intro h
    rw [locate_eq] at h
    exact eq_wordAt (eq_of_registerLoc_cfgRounds (locateOffset_eq_register (by omega) h nofun nofun))
  · rintro rfl
    rfl

theorem locate_eq_cfgCtrl_iff {i : WordIndex} : locate b i = .cfgCtrl ↔ i = wordAt 0x01C := by
  constructor
  · intro h
    rw [locate_eq] at h
    exact eq_wordAt (eq_of_registerLoc_cfgCtrl (locateOffset_eq_register (by omega) h nofun nofun))
  · rintro rfl
    rfl

theorem registerLoc_of_ge {off : Nat} (h : 0x024 ≤ off) : registerLoc b off = .unmapped := by
  simp (disch := omega) only [registerLoc]

/-- The offsets from 0x800 to 0x10000 are after the region of `X` and before the matrices: no element reaches them (R44). -/
theorem elemOffset_not_reserved (l : ElemLoc b) {k : Nat} (hk : k < b.ew) :
    elemOffset b l k < 0x800 ∨ 0x10000 ≤ elemOffset b l k := by
  have hfit := wordOffset_lt_regionSize l hk
  rw [elemOffset, Nat.add_assoc]
  cases l with
  | x q =>
    have hq := wordOffset_lt (Nat.lt_of_lt_of_le q.isLt b.t_le) hk
    left; simp only [elemPlace]; omega
  | _ => simp only [elemPlace, regionSize] at hfit ⊢; omega

theorem locateOffset_of_no_word {off : Nat} (h : 0x100 ≤ off) (h4 : off % 4 = 0)
    (hno : ∀ (l : ElemLoc b) k, k < b.ew → off ≠ elemOffset b l k) : locateOffset b off = .unmapped := by
  obtain e | ⟨l, k, -, hk, hoff⟩ := locateOffset_cases (b := b) h h4
  · exact e
  · exact absurd hoff (hno l k hk)

/-! ### Which word the host may write -/

/-- The configuration words are `CFG_ROUNDS`, `CFG_CTRL` and the words of `ALPHA`, the matrices and `RC` (R47). -/
theorem locAccess_eq_config_iff {l : Loc b} :
    locAccess l = .config ↔ l = .cfgRounds ∨ l = .cfgCtrl ∨ (∃ k, l = .elem .alpha k) ∨
      (∃ m p q k, l = .elem (.m m p q) k) ∨ (∃ r q k, l = .elem (.rc r q) k) := by
  cases l with
  | elem l k => cases l <;> simp [locAccess, elemAccess]
  | _ => simp [locAccess]

/-- A write to configuration state in `CONFIG` phase is the store at its place (R47). -/
theorem hostWrite_config_at {u : UnitState b} {i : WordIndex} {l : Loc b} (w : Word) (hp : u.phase = .config)
    (hl : locate b i = l) (h : locAccess l = .config) : hostWrite u i w = storeLoc u l w := by
  rw [hostWrite_config u w (hl ▸ h) hp, hl]

theorem hostWrite_free_at (u : UnitState b) {i : WordIndex} {l : Loc b} (w : Word)
    (hl : locate b i = l) (h : locAccess l = .free) : hostWrite u i w = storeLoc u l w := by
  rw [hostWrite_free u w (hl ▸ h), hl]

theorem hostWrite_ignored_at (u : UnitState b) {i : WordIndex} {l : Loc b} (w : Word)
    (hl : locate b i = l) (h : locAccess l = .ignored) : hostWrite u i w = u :=
  hostWrite_ignored u w (hl ▸ h)

/-- In `READY` phase a write to configuration state takes the lock's fault and does nothing else (R47, R191). -/
theorem hostWrite_raises {u : UnitState b} {i : WordIndex} (w : Word) (hp : u.phase = .ready)
    (h : locAccess (locate b i) = .config) (hf : u.fault = false) :
    hostWrite u i w = u.raise .phaseLocked (lockInfo i) := by
  simp [hostWrite_locked u w h hp, hf]

theorem hostWrite_locked_latched {u : UnitState b} {i : WordIndex} (w : Word) (hp : u.phase = .ready)
    (h : locAccess (locate b i) = .config) (hf : u.fault = true) : hostWrite u i w = u := by
  simp [hostWrite_locked u w h hp, hf]

end Sys2Proof.Machine

namespace Sys2Proof.Proofs

open Sys2Proof Sys2Proof.Machine Sys2Proof.Claims

/-- Settles O44, bit by bit. -/
theorem elementWordLayout : Obligations.ElementWordLayout := fun _ v k w j =>
  ⟨elemWord_getLsbD v k j, withElemWord_getLsbD v k w j⟩

/-- Settles O46: the fields of each register word, and the read at each kind of element's offset. -/
theorem registerWordsRead : Obligations.RegisterWordsRead :=
  ⟨fun b u => ⟨id0Word_toNat b, id1Word_toNat b, statusWord_toNat u, errWord_toNat u, rfl, rfl, cfgRoundsWord_toNat u,
      cfgCtrlWord_toNat u, traceLenWord_toNat u⟩,
    fun b u _ hk =>
      ⟨fun q => hostRead_elemOffset u (.e q) hk,
        hostRead_elemOffset u .alpha hk,
        elemOffset_alphaInv b _ ▸ hostRead_elemOffset u .alphaInv hk,
        hostRead_elemOffset u .polyr hk,
        fun q => hostRead_elemOffset u (.x q) hk,
        fun m i j => hostRead_elemOffset u (.m m i j) hk,
        fun r i => hostRead_elemOffset u (.rc r i) hk,
        fun r i => hostRead_elemOffset u (.trace r i) hk⟩,
    rfl⟩

/-- Settles O47, from what a write does at a word of each access class. -/
theorem windowWriteRights : Obligations.WindowWriteRights := fun b u i w =>
  ⟨fun _ _ hl => hostWrite_free_at u w hl rfl,
    fun _ _ hl => hostWrite_free_at u w hl rfl,
    fun hp =>
      ⟨fun hi => hostWrite_config_at w hp (locate_eq_cfgRounds_iff.mpr hi) rfl,
        fun hi => hostWrite_config_at w hp (locate_eq_cfgCtrl_iff.mpr hi) rfl,
        fun _ hl => hostWrite_config_at w hp hl rfl,
        fun _ _ _ _ hl => hostWrite_config_at w hp hl rfl,
        fun _ _ _ hl => hostWrite_config_at w hp hl rfl⟩,
    fun hp h =>
      ⟨fun hf => ⟨lockInfo i, lockInfo_toNat i, hostWrite_raises w hp h hf⟩, hostWrite_locked_latched w hp h⟩,
    by rw [locAccess_eq_config_iff, locate_eq_cfgRounds_iff, locate_eq_cfgCtrl_iff]⟩

/-- Settles O48, place by place. -/
theorem windowStoreFrame : Obligations.WindowStoreFrame := fun _ u l v h =>
  ⟨u.elemAt_setElem_self v h, fun _ hne => u.elemAt_setElem_ne v hne,
    fun _ hreg => readLoc_setElem_of_ne_elem u l v hreg, u.setElem_phase l v, u.setElem_fault l v, u.setElem_cause l v⟩

/-- Settles O49, from the map and the access class of each word. -/
theorem ignoredWordsStayAsTheyAre : Obligations.IgnoredWordsStayAsTheyAre := by
  intro b u i w
  refine ⟨fun h => ⟨hostRead_unmapped u h, hostWrite_ignored_at u w h rfl⟩,
    fun h hno => locate_eq b i ▸ locateOffset_of_no_word h (by omega) hno, ?_, ?_, ?_, ?_⟩
  · rw [locate_eq]
    rintro (⟨hlo, hhi⟩ | ⟨hlo, hhi⟩)
    · exact (locateOffset_register hhi).trans (registerLoc_of_ge hlo)
    · refine locateOffset_of_no_word (by omega) (by omega) fun l k hk e => ?_
      have := elemOffset_not_reserved l hk
      omega
  · rintro (rfl | rfl | rfl | rfl | rfl | rfl) <;> exact hostWrite_ignored_at u w rfl rfl
  · rintro k (h | h) <;> exact hostWrite_ignored_at u w h rfl
  · exact fun _ _ _ h => hostWrite_ignored_at u w h rfl

end Sys2Proof.Proofs
end

section
/-! PROOF. A word written to `CMD` (20_memory.md R53, 30_encoding.md R60, R61): the step is one `Command(w)`, decoded or not. -/

namespace Sys2Proof.Machine

/-- The history flag looks at the state before an action only for its latch and the flag itself. -/
theorem noteFault_withFetchWord (s : State) (nbits w : Nat) (o : Outcome) :
    noteFault (s.withFetchWord nbits w) o = noteFault s o := rfl

/-- With no fault latched a word that is no command raises its own fault and changes nothing else (R61, R70, R71). -/
theorem step_illegal {s : State} {w : Word} {rest : List HostAction} {e : DecodeError}
    (h : s.pending = .write cmdIndex w :: rest) (hf : s.unit.fault = false) (he : decode w = .error e) :
    step s = .next { s with unit := s.unit.raise (decodeCause e) w, pending := rest, wentWrong := true } := by
  simp [step_command h, command_of_error he, illegalWord_clear hf]

theorem decode_of_decodeTableWord {nbits w : Nat} {i : Instr} (h : decodeTableWord nbits w = some i) :
    decode (tableWord nbits w) = .ok i := by
  unfold decodeTableWord at h
  cases hd : decode (tableWord nbits w) with
  | ok j => rw [hd] at h; exact congrArg _ (Option.some.inj h)
  | error e => rw [hd] at h; cases h

end Sys2Proof.Machine

namespace Sys2Proof.Proofs

open Sys2Proof Sys2Proof.Machine Sys2Proof.Claims

/-- Settles O6: the step is one `Command(w)`, which a word that decodes turns into one execution. -/
theorem stepRunsTheDecodedInstruction : Obligations.StepRunsTheDecodedInstruction := by
  refine ⟨fun s w rest i h hd => ?_, fun s w i hd => ?_, fun s w rest h => ⟨step_command h, ?_, ?_⟩⟩
  · rw [step_command h, command_of_decode hd]
  · have h : (s.withFetchWord 32 w).pending = .write cmdIndex (tableWord 32 w) :: s.pending := rfl
    rw [step_command h, command_of_decode (decode_of_decodeTableWord hd), noteFault_withFetchWord]
    rfl
  · exact fun hf he => step_illegal h hf he
  · exact fun hf he => step_illegal h hf he

end Sys2Proof.Proofs
end

section
/-! PROOF. The command word (30_encoding.md R62 to R68): what the decoder answers for the words of a row of the table, and the
round trips between words and commands. -/

namespace Sys2Proof

/-! ### The decoder, row by row -/

/-- The twenty opcode bytes are distinct (R68), so a row is known by its byte. -/
theorem rowOf_eq_of_mem {row : OpcodeRow} {w : Word} (hrow : row ∈ opcodeTable) (hop : opcodeOf w = opcodeRowByte row) :
    rowOf w = some row := by
  have hnodup : (opcodeTable.map opcodeRowByte).Nodup := by decide
  have hsome : (rowOf w).isSome := List.find?_isSome.mpr ⟨row, hrow, by simp [hop]⟩
  obtain ⟨row', hrow'⟩ := Option.isSome_iff_exists.mp hsome
  have hbyte : opcodeRowByte row' = opcodeOf w := by simpa using List.find?_some hrow'
  rw [hrow', List.inj_on_of_nodup_map hnodup (List.mem_of_find?_eq_some hrow') hrow (hbyte.trans hop)]

theorem decode_of_mem {row : OpcodeRow} {w : Word} (hrow : row ∈ opcodeTable) (hop : opcodeOf w = opcodeRowByte row) :
    decode w = if w &&& row.mask = row.pattern then .ok (row.make w) else .error .illField := by
  simp [decode, rowOf_eq_of_mem hrow hop]

theorem decode_of_no_row {w : Word} (h : ∀ row ∈ opcodeTable, opcodeOf w ≠ opcodeRowByte row) :
    decode w = .error .illOpcode := by
  have hnone : rowOf w = none := List.find?_eq_none.mpr fun row hrow => by simpa using (h row hrow).symm
  simp [decode, hnone]

/-- A field that lies wholly inside the mask is the pattern's. -/
theorem extractLsb'_of_masked {w mask pattern : Word} (h : w &&& mask = pattern) (start len : Nat)
    (hmask : mask.extractLsb' start len = BitVec.allOnes len) :
    w.extractLsb' start len = pattern.extractLsb' start len := by
  rw [← h, BitVec.extractLsb'_and, hmask, BitVec.and_allOnes]

/-- A word with the fixed bits of a row is the command of that row: every mask holds the whole opcode byte. -/
theorem decode_of_masked {row : OpcodeRow} {w : Word} (hrow : row ∈ opcodeTable) (h : w &&& row.mask = row.pattern) :
    decode w = .ok (row.make w) := by
  have hmask : ∀ row ∈ opcodeTable, row.mask.extractLsb' 24 8 = BitVec.allOnes 8 := by decide
  rw [decode_of_mem hrow (extractLsb'_of_masked h 24 8 (hmask row hrow)), if_pos h]

/-! ### The fields of a format's word -/

theorem formatR_operands (make : EReg → EReg → EReg → Instr) (op : BitVec 8) (d a b : EReg) :
    make (fieldD (formatR op d a b)) (fieldA (formatR op d a b)) (fieldB (formatR op d a b)) = make d a b := by
  simp only [formatR, fieldD, fieldA, fieldB, regBits, BitVec.extractLsb'_append_eq_of_le,
    BitVec.extractLsb'_append_eq_right, Nat.reduceLeDiff, Nat.reduceSub]

theorem formatI_operands (make : EReg → BitVec 16 → Instr) (op : BitVec 8) (d : EReg) (imm : BitVec 16) :
    make (fieldD (formatI op d imm)) (fieldImm (formatI op d imm)) = make d imm := by
  simp only [formatI, fieldD, fieldImm, regBits, BitVec.extractLsb'_append_eq_of_le,
    BitVec.extractLsb'_append_eq_right, Nat.reduceLeDiff, Nat.reduceSub]

theorem formatX_operands (make : EReg → BitVec 8 → Instr) (op : BitVec 8) (e : EReg) (i : BitVec 8) :
    make (fieldD (formatX op e i)) (fieldLow (formatX op e i)) = make e i := by
  simp only [formatX, fieldD, fieldLow, regBits, BitVec.extractLsb'_append_eq_of_le,
    BitVec.extractLsb'_append_eq_right, Nat.reduceLeDiff, Nat.reduceSub]

theorem formatM_operand (op : BitVec 8) (msel : BitVec 4) : fieldMsel (formatM op msel) = msel := by
  simp only [formatM, fieldMsel, BitVec.extractLsb'_append_eq_of_le, BitVec.extractLsb'_append_eq_right,
    Nat.reduceLeDiff, Nat.reduceSub]

theorem formatV_operand (op : BitVec 8) (r : BitVec 8) : fieldLow (formatV op r) = r :=
  BitVec.extractLsb'_append_eq_right

/-- Bit 16 of format G chooses between the two commands of its row (R67). -/
theorem formatG_operands (traced untraced : BitVec 8 → BitVec 8 → Instr) (op : BitVec 8) (tr : BitVec 1)
    (rs re : BitVec 8) :
    (if fieldTR (formatG op tr rs re) then traced (fieldStart (formatG op tr rs re)) (fieldLow (formatG op tr rs re))
      else untraced (fieldStart (formatG op tr rs re)) (fieldLow (formatG op tr rs re))) =
    if tr.getLsbD 0 then traced rs re else untraced rs re := by
  simp only [formatG, fieldTR, fieldStart, fieldLow, BitVec.extractLsb'_append_eq_of_le,
    BitVec.extractLsb'_append_eq_right, BitVec.getLsbD_append, Nat.reduceLeDiff, Nat.reduceSub, Nat.reduceLT, if_true,
    if_false]

/-! ### Decoding the word of a command -/

/-- The row of a byte, a word with the row's fixed bits, and the command that its fields make. -/
theorem decode_of_byte {w : Word} {i : Instr} {row : OpcodeRow} (op : BitVec 8)
    (hrow : opcodeTable.find? (opcodeRowByte · == op) = some row) (h : w &&& row.mask = row.pattern)
    (hmake : row.make w = i) : decode w = .ok i :=
  hmake ▸ decode_of_masked (List.mem_of_find?_eq_some hrow) h

open Laws MatchesRow in
/-- The bits that both commands of a row of format G fix: the trace bit is not among them (R67, R68). -/
theorem formatG_fixed_row (op : BitVec 8) (tr : BitVec 1) (rs re : BitVec 8) :
    formatG op tr rs re &&& (0xFF#8 ++ 0x7F#7 ++ 0#1 ++ 0#8 ++ 0#8) = op ++ 0#7 ++ 0#1 ++ 0#8 ++ 0#8 :=
  and_append_of (and_append_of (and_append_of (and_append_of BitVec.and_allOnes BitVec.zero_and) BitVec.and_zero)
    BitVec.and_zero) BitVec.and_zero

open Laws in
theorem decode_encode (i : Instr) : decode (encode i) = .ok i := by
  cases i with
  | fli d imm => exact decode_of_byte 0x01 rfl (MatchesRow.fli d imm) (formatI_operands .fli _ d imm)
  | fadd d a b => exact decode_of_byte 0x02 rfl (MatchesRow.fadd d a b) (formatR_operands .fadd _ d a b)
  | fmul d a b => exact decode_of_byte 0x03 rfl (MatchesRow.fmul d a b) (formatR_operands .fmul _ d a b)
  | fpow d a b => exact decode_of_byte 0x04 rfl (MatchesRow.fpow d a b) (formatR_operands .fpow _ d a b)
  | finv d a => exact decode_of_byte 0x05 rfl (MatchesRow.finv d a) (formatR_operands (fun d a _ => .finv d a) _ d a 0)
  | mvex e i => exact decode_of_byte 0x10 rfl (MatchesRow.mvex e i) (formatX_operands .mvex _ e i)
  | mvxe e i => exact decode_of_byte 0x11 rfl (MatchesRow.mvxe e i) (formatX_operands .mvxe _ e i)
  | mix msel => exact decode_of_byte 0x20 rfl (MatchesRow.mix msel) (congrArg Instr.mix (formatM_operand _ msel))
  | arc r => exact decode_of_byte 0x28 rfl (MatchesRow.arc r) (congrArg Instr.arc (formatV_operand _ r))
  | sboxF => exact decode_of_byte 0x30 rfl MatchesRow.sboxF rfl
  | sboxP => exact decode_of_byte 0x31 rfl MatchesRow.sboxP rfl
  | sboxiF => exact decode_of_byte 0x32 rfl MatchesRow.sboxiF rfl
  | sboxiP => exact decode_of_byte 0x33 rfl MatchesRow.sboxiP rfl
  | rnd r => exact decode_of_byte 0x40 rfl (MatchesRow.rnd r) (congrArg Instr.rnd (formatV_operand _ r))
  | rndi r => exact decode_of_byte 0x41 rfl (MatchesRow.rndi r) (congrArg Instr.rndi (formatV_operand _ r))
  | eval rs re =>
    exact decode_of_byte 0x48 rfl (formatG_fixed_row 0x48 0 rs re) (formatG_operands .evalT .eval _ 0 rs re)
  | evalT rs re =>
    exact decode_of_byte 0x48 rfl (formatG_fixed_row 0x48 1 rs re) (formatG_operands .evalT .eval _ 1 rs re)
  | evali rs re =>
    exact decode_of_byte 0x49 rfl (formatG_fixed_row 0x49 0 rs re) (formatG_operands .evaliT .evali _ 0 rs re)
  | evaliT rs re =>
    exact decode_of_byte 0x49 rfl (formatG_fixed_row 0x49 1 rs re) (formatG_operands .evaliT .evali _ 1 rs re)
  | commit => exact decode_of_byte 0xF0 rfl MatchesRow.commit rfl
  | clrf => exact decode_of_byte 0xF1 rfl MatchesRow.clrf rfl
  | srst => exact decode_of_byte 0xFF rfl MatchesRow.srst rfl

/-! ### Encoding the command that a word makes -/

/-- A word with a row's fixed bits holds the row's opcode byte. -/
theorem extractLsb'_opcode_of_masked {op : BitVec 8} {w mask : Word} (h : w &&& mask = op ++ 0#24)
    (hmask : mask.extractLsb' 24 8 = 0xFF#8) : w.extractLsb' 24 8 = op :=
  (extractLsb'_of_masked h 24 8 hmask).trans BitVec.extractLsb'_append_eq_left

/-- A must-be-zero field of a word with a row's fixed bits is zero. -/
theorem extractLsb'_eq_zero_of_masked {op : BitVec 8} {w mask : Word} (h : w &&& mask = op ++ 0#24) (start len : Nat)
    (hlow : start + len ≤ 24) (hmask : mask.extractLsb' start len = BitVec.allOnes len) :
    w.extractLsb' start len = 0#len := by
  rw [extractLsb'_of_masked h start len hmask, BitVec.extractLsb'_append_eq_of_add_le hlow, BitVec.extractLsb'_zero]

theorem formatR_of_masked {op : BitVec 8} {w : Word} (h : w &&& 0xFF000FFF = op ++ 0#24) :
    formatR op (fieldD w) (fieldA w) (fieldB w) = w :=
  calc op ++ w.extractLsb' 20 4 ++ w.extractLsb' 16 4 ++ w.extractLsb' 12 4 ++ 0#12
    _ = w.extractLsb' 24 8 ++ w.extractLsb' 20 4 ++ w.extractLsb' 16 4 ++ w.extractLsb' 12 4 ++ w.extractLsb' 0 12 := by
        rw [extractLsb'_opcode_of_masked h rfl, extractLsb'_eq_zero_of_masked h 0 12 (by decide) rfl]
    _ = w := by
        simp only [BitVec.extractLsb'_append_extractLsb'_eq_extractLsb']
        exact BitVec.extractLsb'_eq_self

theorem formatR_noB_of_masked {op : BitVec 8} {w : Word} (h : w &&& 0xFF00FFFF = op ++ 0#24) :
    formatR op (fieldD w) (fieldA w) 0 = w :=
  calc op ++ w.extractLsb' 20 4 ++ w.extractLsb' 16 4 ++ 0#4 ++ 0#12
    _ = w.extractLsb' 24 8 ++ w.extractLsb' 20 4 ++ w.extractLsb' 16 4 ++ w.extractLsb' 12 4 ++ w.extractLsb' 0 12 := by
        rw [extractLsb'_opcode_of_masked h rfl, extractLsb'_eq_zero_of_masked h 12 4 (by decide) rfl,
          extractLsb'_eq_zero_of_masked h 0 12 (by decide) rfl]
    _ = w := by
        simp only [BitVec.extractLsb'_append_extractLsb'_eq_extractLsb']
        exact BitVec.extractLsb'_eq_self

theorem formatI_of_masked {op : BitVec 8} {w : Word} (h : w &&& 0xFF0F0000 = op ++ 0#24) :
    formatI op (fieldD w) (fieldImm w) = w :=
  calc op ++ w.extractLsb' 20 4 ++ 0#4 ++ w.extractLsb' 0 16
    _ = w.extractLsb' 24 8 ++ w.extractLsb' 20 4 ++ w.extractLsb' 16 4 ++ w.extractLsb' 0 16 := by
        rw [extractLsb'_opcode_of_masked h rfl, extractLsb'_eq_zero_of_masked h 16 4 (by decide) rfl]
    _ = w := by
        simp only [BitVec.extractLsb'_append_extractLsb'_eq_extractLsb']
        exact BitVec.extractLsb'_eq_self

theorem formatX_of_masked {op : BitVec 8} {w : Word} (h : w &&& 0xFF0FFF00 = op ++ 0#24) :
    formatX op (fieldD w) (fieldLow w) = w :=
  calc op ++ w.extractLsb' 20 4 ++ 0#12 ++ w.extractLsb' 0 8
    _ = w.extractLsb' 24 8 ++ w.extractLsb' 20 4 ++ w.extractLsb' 8 12 ++ w.extractLsb' 0 8 := by
        rw [extractLsb'_opcode_of_masked h rfl, extractLsb'_eq_zero_of_masked h 8 12 (by decide) rfl]
    _ = w := by
        simp only [BitVec.extractLsb'_append_extractLsb'_eq_extractLsb']
        exact BitVec.extractLsb'_eq_self

theorem formatM_of_masked {op : BitVec 8} {w : Word} (h : w &&& 0xFF0FFFFF = op ++ 0#24) : formatM op (fieldMsel w) = w :=
  calc op ++ w.extractLsb' 20 4 ++ 0#20
    _ = w.extractLsb' 24 8 ++ w.extractLsb' 20 4 ++ w.extractLsb' 0 20 := by
        rw [extractLsb'_opcode_of_masked h rfl, extractLsb'_eq_zero_of_masked h 0 20 (by decide) rfl]
    _ = w := by
        simp only [BitVec.extractLsb'_append_extractLsb'_eq_extractLsb']
        exact BitVec.extractLsb'_eq_self

theorem formatV_of_masked {op : BitVec 8} {w : Word} (h : w &&& 0xFFFFFF00 = op ++ 0#24) : formatV op (fieldLow w) = w :=
  calc op ++ 0#16 ++ w.extractLsb' 0 8
    _ = w.extractLsb' 24 8 ++ w.extractLsb' 8 16 ++ w.extractLsb' 0 8 := by
        rw [extractLsb'_opcode_of_masked h rfl, extractLsb'_eq_zero_of_masked h 8 16 (by decide) rfl]
    _ = w := by
        simp only [BitVec.extractLsb'_append_extractLsb'_eq_extractLsb']
        exact BitVec.extractLsb'_eq_self

theorem formatZ_of_masked {op : BitVec 8} {w : Word} (h : w &&& 0xFFFFFFFF = op ++ 0#24) : formatZ op = w :=
  h.symm.trans BitVec.and_allOnes

theorem extractLsb'_eq_ofBool_fieldTR (w : Word) : w.extractLsb' 16 1 = BitVec.ofBool (fieldTR w) := by
  apply BitVec.eq_of_getLsbD_eq
  simp [fieldTR]

theorem formatG_of_masked {op : BitVec 8} {w : Word} (h : w &&& 0xFFFE0000 = op ++ 0#24) :
    formatG op (BitVec.ofBool (fieldTR w)) (fieldStart w) (fieldLow w) = w :=
  calc op ++ 0#7 ++ BitVec.ofBool (fieldTR w) ++ w.extractLsb' 8 8 ++ w.extractLsb' 0 8
    _ = w.extractLsb' 24 8 ++ w.extractLsb' 17 7 ++ w.extractLsb' 16 1 ++ w.extractLsb' 8 8 ++ w.extractLsb' 0 8 := by
        rw [extractLsb'_opcode_of_masked h rfl, extractLsb'_eq_zero_of_masked h 17 7 (by decide) rfl,
          extractLsb'_eq_ofBool_fieldTR]
    _ = w := by
        simp only [BitVec.extractLsb'_append_extractLsb'_eq_extractLsb']
        exact BitVec.extractLsb'_eq_self

theorem encode_eval_row (tr : Bool) (rs re : BitVec 8) :
    encode (if tr then .evalT rs re else .eval rs re) = formatG 0x48 (BitVec.ofBool tr) rs re := by
  cases tr <;> rfl

theorem encode_evali_row (tr : Bool) (rs re : BitVec 8) :
    encode (if tr then .evaliT rs re else .evali rs re) = formatG 0x49 (BitVec.ofBool tr) rs re := by
  cases tr <;> rfl

/-- The command that a row makes of a word with the row's fixed bits has that word. -/
theorem encode_make : ∀ row ∈ opcodeTable, ∀ w, w &&& row.mask = row.pattern → encode (row.make w) = w := by
  simp only [opcodeTable, fieldRows, engineRows, systemRows, List.cons_append, List.nil_append, List.forall_mem_cons]
  exact ⟨fun w h => formatI_of_masked h, fun w h => formatR_of_masked h, fun w h => formatR_of_masked h,
    fun w h => formatR_of_masked h, fun w h => formatR_noB_of_masked h, fun w h => formatX_of_masked h,
    fun w h => formatX_of_masked h, fun w h => formatM_of_masked h, fun w h => formatV_of_masked h,
    fun w h => formatZ_of_masked h, fun w h => formatZ_of_masked h, fun w h => formatZ_of_masked h,
    fun w h => formatZ_of_masked h, fun w h => formatV_of_masked h, fun w h => formatV_of_masked h,
    fun w h => (encode_eval_row _ _ _).trans (formatG_of_masked h),
    fun w h => (encode_evali_row _ _ _).trans (formatG_of_masked h),
    fun w h => formatZ_of_masked h, fun w h => formatZ_of_masked h, fun w h => formatZ_of_masked h, nofun⟩

theorem encode_of_decode {w : Word} {i : Instr} (h : decode w = .ok i) : encode i = w := by
  obtain ⟨row, hrow, hbits, rfl⟩ := Machine.exists_row_of_decode h
  exact encode_make row hrow w hbits

/-! ### The table of opcode bytes and must-be-zero bits -/

open Claims

/-- Each row of the decoder's table is an opcode byte with the bits of its mask below the byte (R68). -/
theorem opcodeBytes_eq :
    opcodeBytes = opcodeTable.map fun row => (opcodeRowByte row, row.mask &&& 0x00FFFFFF) := by decide

/-- The top byte of a word, in place. -/
theorem and_opcodeMask (w : Word) : w &&& 0xFF000000 = opcodeOf w ++ 0#24 := by
  have hsplit : opcodeOf w ++ w.extractLsb' 0 24 = w :=
    (BitVec.extractLsb'_append_extractLsb'_eq_extractLsb' (by decide)).trans BitVec.extractLsb'_eq_self
  calc w &&& 0xFF000000
    _ = (opcodeOf w ++ w.extractLsb' 0 24) &&& (0xFF#8 ++ 0#24) := by rw [hsplit]; rfl
    _ = opcodeOf w ++ 0#24 := Laws.MatchesRow.and_append_of BitVec.and_allOnes BitVec.and_zero

/-- With a row's opcode byte, a word has the row's fixed bits exactly when its must-be-zero bits are zero. -/
theorem masked_iff {row : OpcodeRow} {w : Word} (hrow : row ∈ opcodeTable) (hop : opcodeOf w = opcodeRowByte row) :
    w &&& row.mask = row.pattern ↔ w &&& (row.mask &&& 0x00FFFFFF) = 0 := by
  have hrows : ∀ row ∈ opcodeTable, row.mask = 0xFF000000 ||| (row.mask &&& 0x00FFFFFF) ∧
      row.pattern = opcodeRowByte row ++ 0#24 ∧ row.pattern &&& 0x00FFFFFF = 0 := by decide
  obtain ⟨hmask, hpattern, hlow⟩ := hrows row hrow
  constructor
  · intro h
    rw [← BitVec.and_assoc, h, hlow]
  · intro h
    calc w &&& row.mask
      _ = (w &&& 0xFF000000) ||| (w &&& (row.mask &&& 0x00FFFFFF)) := by rw [← BitVec.and_or_distrib_left, ← hmask]
      _ = row.pattern := by
          rw [h, and_opcodeMask, hop, hpattern]
          exact BitVec.or_zero

theorem decode_of_no_opcode {w : Word} (h : ∀ row ∈ opcodeBytes, w.extractLsb' 24 8 ≠ row.1) :
    decode w = .error .illOpcode := by
  rw [opcodeBytes_eq, List.forall_mem_map] at h
  exact decode_of_no_row h

/-- The rows of the two tables correspond (R68). -/
theorem exists_row_of_opcode {w : Word} {entry : BitVec 8 × Word} (hentry : entry ∈ opcodeBytes)
    (hop : w.extractLsb' 24 8 = entry.1) :
    ∃ row ∈ opcodeTable, opcodeRowByte row = entry.1 ∧ opcodeOf w = opcodeRowByte row ∧
      (w &&& row.mask = row.pattern ↔ w &&& entry.2 = 0) := by
  rw [opcodeBytes_eq] at hentry
  obtain ⟨row, hrow, rfl⟩ := List.mem_map.mp hentry
  exact ⟨row, hrow, rfl, hop, masked_iff hrow hop⟩

theorem decode_of_field_clear {w : Word} {entry : BitVec 8 × Word} (hentry : entry ∈ opcodeBytes)
    (hop : w.extractLsb' 24 8 = entry.1) (hfield : w &&& entry.2 = 0) :
    ∃ row ∈ opcodeTable, opcodeRowByte row = entry.1 ∧ decode w = .ok (row.make w) := by
  obtain ⟨row, hrow, hbyte, -, hbits⟩ := exists_row_of_opcode hentry hop
  exact ⟨row, hrow, hbyte, decode_of_masked hrow (hbits.mpr hfield)⟩

theorem decode_of_field_set {w : Word} {entry : BitVec 8 × Word} (hentry : entry ∈ opcodeBytes)
    (hop : w.extractLsb' 24 8 = entry.1) (hfield : w &&& entry.2 ≠ 0) : decode w = .error .illField := by
  obtain ⟨row, hrow, -, hop', hbits⟩ := exists_row_of_opcode hentry hop
  rw [decode_of_mem hrow hop', if_neg (mt hbits.mp hfield)]

/-- The three things a word can be: no opcode, a command, or an opcode with a must-be-zero bit set (R61). -/
theorem decode_cases (w : Word) :
    ((∀ entry ∈ opcodeBytes, w.extractLsb' 24 8 ≠ entry.1) ∧ decode w = .error .illOpcode) ∨
    (∃ entry ∈ opcodeBytes, w.extractLsb' 24 8 = entry.1 ∧ w &&& entry.2 = 0 ∧ ∃ i, decode w = .ok i) ∨
    (∃ entry ∈ opcodeBytes, w.extractLsb' 24 8 = entry.1 ∧ w &&& entry.2 ≠ 0 ∧ decode w = .error .illField) := by
  by_cases h : ∃ entry ∈ opcodeBytes, w.extractLsb' 24 8 = entry.1
  · obtain ⟨entry, hentry, hop⟩ := h
    by_cases hfield : w &&& entry.2 = 0
    · obtain ⟨row, -, -, hd⟩ := decode_of_field_clear hentry hop hfield
      exact .inr (.inl ⟨entry, hentry, hop, hfield, _, hd⟩)
    · exact .inr (.inr ⟨entry, hentry, hop, hfield, decode_of_field_set hentry hop hfield⟩)
  · have hno : ∀ entry ∈ opcodeBytes, w.extractLsb' 24 8 ≠ entry.1 := by
      simpa only [not_exists, not_and] using h
    exact .inl ⟨hno, decode_of_no_opcode hno⟩

end Sys2Proof

namespace Sys2Proof.Proofs

open Sys2Proof Sys2Proof.Machine Sys2Proof.Claims

/-- Settles O3, format by format: a command's word has its row's fixed bits, and the row reads the operands back. -/
theorem decodeAfterEncode : Obligations.DecodeAfterEncode := decode_encode

/-- Settles O4, row by row: the fixed bits and the fields that a row reads make up the whole word. -/
theorem encodeAfterDecode : Obligations.EncodeAfterDecode := fun _ _ => encode_of_decode

/-- Settles O5: the three things a word can be exclude each other. -/
theorem opcodeTableIsExact : Obligations.OpcodeTableIsExact := by
  intro w
  refine ⟨⟨fun ⟨i, hi⟩ => ?_, fun ⟨entry, hentry, hop, hfield⟩ => ?_⟩, ⟨fun he => ?_, decode_of_no_opcode⟩,
    fun he => ?_, fun ⟨entry, hentry, hop, hfield⟩ => decode_of_field_set hentry hop hfield⟩
  · obtain ⟨-, hd⟩ | ⟨entry, hentry, hop, hfield, -⟩ | ⟨-, -, -, -, hd⟩ := decode_cases w
    · cases hi.symm.trans hd
    · exact ⟨entry, hentry, hop, hfield⟩
    · cases hi.symm.trans hd
  · obtain ⟨row, -, -, hd⟩ := decode_of_field_clear hentry hop hfield
    exact ⟨_, hd⟩
  · obtain ⟨hno, -⟩ | ⟨-, -, -, -, i, hd⟩ | ⟨-, -, -, -, hd⟩ := decode_cases w
    · exact hno
    · cases he.symm.trans hd
    · cases he.symm.trans hd
  · obtain ⟨-, hd⟩ | ⟨-, -, -, -, i, hd⟩ | ⟨entry, hentry, hop, hfield, -⟩ := decode_cases w
    · cases he.symm.trans hd
    · cases he.symm.trans hd
    · exact ⟨entry, hentry, hop, hfield⟩

end Sys2Proof.Proofs
end

section
/-! PROOF. The order in which a command word is processed (30_encoding.md R61, R69, R70, R71): the phases of a command, and
what a latched fault or the wrong phase makes of it. -/

namespace Sys2Proof.Machine

open Sys2Proof.Claims

/-- Which phases a command may run in (the column of R68). -/
def admission : Instr → Admission
  | .fli _ _ | .fadd _ _ _ | .fmul _ _ _ | .fpow _ _ _ | .finv _ _ | .mvex _ _ | .mvxe _ _ => .any
  | .mix _ | .arc _ | .sboxF | .sboxP | .sboxiF | .sboxiP | .rnd _ | .rndi _ => .ready
  | .eval _ _ | .evalT _ _ | .evali _ _ | .evaliT _ _ => .ready
  | .commit => .config
  | .clrf | .srst => .any

/-- Every command but `CLRF` and `SRST` goes through the admission of its phase, with its own word (R61, R149, R150). -/
theorem exec_eq_whenAdmitted {i : Instr} (hclrf : i ≠ .clrf) (hsrst : i ≠ .srst) (s : State) :
    ∃ body : UnitState s.build → UnitOutcome s.build,
      exec i s = onUnit s fun u => whenAdmitted (admission i) (encode i) u (body u) := by
  unfold exec
  cases i with
  | clrf => exact absurd rfl hclrf
  | srst => exact absurd rfl hsrst
  | _ => exact ⟨_, rfl⟩

/-- While a fault is latched only `CLRF` and `SRST` execute (R192). -/
theorem exec_latched {i : Instr} {s : State} (hclrf : i ≠ .clrf) (hsrst : i ≠ .srst) (hf : s.unit.fault = true) :
    exec i s = .next s := by
  obtain ⟨body, h⟩ := exec_eq_whenAdmitted hclrf hsrst s
  exact h.trans (onUnit_eq_of_next (whenAdmitted_latched hf))

theorem whenAdmitted_phaseFault {b : Build} {adm : Admission} {w : Word} {u : UnitState b} {body : UnitOutcome b}
    {c : Cause} (hf : u.fault = false) (hp : phaseFault adm u.phase = some c) :
    whenAdmitted adm w u body = .next (u.raise c w) := by
  simp [whenAdmitted, hf, hp, refuseWith]

/-- In the wrong phase a command raises the phase's fault, with its own word, and does nothing else (R69). -/
theorem exec_phaseFault {i : Instr} {s : State} {c : Cause} (hf : s.unit.fault = false)
    (hp : phaseFault (admission i) s.unit.phase = some c) : exec i s = .next (faulted s c (encode i)) := by
  obtain ⟨body, h⟩ := exec_eq_whenAdmitted (i := i) (by rintro rfl; cases hp) (by rintro rfl; cases hp) s
  exact h.trans (onUnit_eq_of_next (whenAdmitted_phaseFault hf hp))

theorem admission_make_of_readyOpcode : ∀ row ∈ opcodeTable, opcodeRowByte row ∈ readyOpcodes →
    ∀ w, admission (row.make w) = .ready := by
  simp only [opcodeTable, fieldRows, engineRows, systemRows, List.cons_append, List.nil_append, List.forall_mem_cons,
    apply_ite admission]
  simp [opcodeRowByte, opcodeOf, readyOpcodes, admission]

theorem make_eq_commit : ∀ row ∈ opcodeTable, opcodeRowByte row = 0xF0 → ∀ w, row.make w = .commit := by
  simp [opcodeTable, fieldRows, engineRows, systemRows, opcodeRowByte, opcodeOf]

/-! ### A command word, case by case -/

theorem command_latched {w : Word} {s : State} (hf : s.unit.fault = true) (hclrf : w ≠ 0xF1000000)
    (hsrst : w ≠ 0xFF000000) : command w s = .next s := by
  cases hd : decode w with
  | error e => rw [command_of_error hd, illegalWord_latched hf]
  | ok i =>
    rw [command_of_decode hd]
    refine exec_latched ?_ ?_ hf
    · rintro rfl
      exact hclrf (encode_of_decode hd).symm
    · rintro rfl
      exact hsrst (encode_of_decode hd).symm

/-- A word that is no command raises its fault and changes nothing else (R61, R70, R71). -/
theorem command_illegal {w : Word} {s : State} {e : DecodeError} (hf : s.unit.fault = false) (hd : decode w = .error e) :
    command w s = .next (faulted s (decodeCause e) w) := by
  rw [command_of_error hd, illegalWord_clear hf]
  rfl

end Sys2Proof.Machine

namespace Sys2Proof.Proofs

open Sys2Proof Sys2Proof.Machine Sys2Proof.Claims

/-- Settles O8, check by check: the latch, the opcode, the must-be-zero bits, the phase, the command itself. -/
theorem commandProcessingOrder : Obligations.CommandProcessingOrder := by
  intro s w
  refine ⟨fun hf => ?_, fun hf hno => command_illegal hf (decode_of_no_opcode hno), fun hf entry hentry hop =>
    ⟨fun hfield => command_illegal hf (decode_of_field_set hentry hop hfield), fun hfield hready hp => ?_,
      fun hfield hbyte hp => ?_, fun hfield => ?_⟩⟩
  · split_ifs with hclrf hsrst
    · exact hclrf ▸ command_of_decode (decode_encode .clrf)
    · exact hsrst ▸ command_of_decode (decode_encode .srst)
    · exact command_latched hf hclrf hsrst
  · obtain ⟨row, hrow, hrowByte, hd⟩ := decode_of_field_clear hentry hop hfield
    have hadm := admission_make_of_readyOpcode row hrow (hrowByte ▸ hready) w
    rw [command_of_decode hd, exec_phaseFault (c := .phaseNotReady) hf (by rw [hadm, hp]; rfl), encode_of_decode hd]
  · obtain ⟨row, hrow, hrowByte, hd⟩ := decode_of_field_clear hentry hop hfield
    rw [make_eq_commit row hrow (hrowByte.trans hbyte) w] at hd
    rw [command_of_decode hd, exec_phaseFault (c := .phaseLocked) hf (by rw [hp]; rfl), encode_of_decode hd]
  · obtain ⟨row, -, -, hd⟩ := decode_of_field_clear hentry hop hfield
    exact ⟨_, hd, command_of_decode hd⟩

end Sys2Proof.Proofs
end

section
/-! PROOF. `SET` (30_encoding.md R76): the EW window writes of an element's words are one store of the element. -/

namespace Sys2Proof.Machine

open Sys2Proof.Claims

variable {b : Build}

theorem locate_elemOffset (l : ElemLoc b) {k : Nat} (hk : k < b.ew) :
    locate b (wordAt (BitVec.ofNat 20 (elemOffset b l k))) = .elem l k :=
  (locate_wordAt (elemOffset_lt_window l hk) (elemOffset_mod_four l k)).trans (locateOffset_elemOffset l hk)

/-! ### Stores to one element -/

theorem UnitState.setElem_elemAt (u : UnitState b) (l : ElemLoc b) : u.setElem l (u.elemAt l) = u := by
  cases l <;> simp [setElem, elemAt, setEntry]

theorem UnitState.setElem_setElem (u : UnitState b) (l : ElemLoc b) (v w : b.Elem) :
    (u.setElem l v).setElem l w = u.setElem l w := by
  cases l <;> simp [setElem, setEntry]

theorem elemAccess_ne_ignored_of_writable {u : UnitState b} {l : ElemLoc b} (h : Writable u l) : elemAccess l ≠ .ignored := by
  obtain h | ⟨h, -⟩ := h <;> simp [h]

/-- A store to an element changes neither the phase nor the access classes (R47). -/
theorem writable_setElem {u : UnitState b} {l : ElemLoc b} (h : Writable u l) (v : b.Elem) : Writable (u.setElem l v) l :=
  h.imp_right fun ⟨hl, hp⟩ => ⟨hl, (u.setElem_phase l v).trans hp⟩

/-- A write to word k of an element the host may write stores the element with that word replaced (R45, R47). -/
theorem hostWrite_elemOffset {u : UnitState b} {l : ElemLoc b} (h : Writable u l) {k : Nat} (hk : k < b.ew) (w : Word) :
    hostWrite u (wordAt (BitVec.ofNat 20 (elemOffset b l k))) w = u.setElem l (withElemWord (u.elemAt l) k w) := by
  obtain hfree | ⟨hconfig, hp⟩ := h
  · exact hostWrite_free_at u w (locate_elemOffset l hk) hfree
  · exact hostWrite_config_at w hp (locate_elemOffset l hk) hconfig

/-! ### Writing an element word by word -/

/-- Replacing word k by the literal's extends the agreement with the literal by one word. -/
theorem withElemWord_elemWord_agrees {n k : Nat} {x v : BitVec n} (h : ∀ j < 32 * k, x.getLsbD j = v.getLsbD j) :
    ∀ j < 32 * (k + 1), (withElemWord x k (elemWord v k)).getLsbD j = v.getLsbD j := by
  intro j hj
  rw [withElemWord_getLsbD]
  split_ifs with hword
  · obtain ⟨hlo, hhi, -⟩ := hword
    have hbit : j - 32 * k < 32 := by omega
    rw [elemWord_getLsbD, Nat.add_sub_cancel' hlo, decide_eq_true hbit, Bool.true_and]
  · rcases Nat.lt_or_ge j (32 * k) with hlo | hhi
    · exact h j hlo
    · rw [BitVec.getLsbD_of_ge x j (by omega), BitVec.getLsbD_of_ge v j (by omega)]

/-- After the first m word writes the unit differs from the start in that element alone, whose low m words are the
literal's. -/
theorem exists_foldl_hostWrite_eq_setElem {u : UnitState b} {l : ElemLoc b} (h : Writable u l) (v : b.Elem) {m : Nat} (hm : m ≤ b.ew) :
    ∃ x : b.Elem, (∀ j < 32 * m, x.getLsbD j = v.getLsbD j) ∧
      (List.range m).foldl
        (fun u k => hostWrite u (wordAt (BitVec.ofNat 20 (elemOffset b l k))) (elemWord v k)) u = u.setElem l x := by
  induction m with
  | zero => exact ⟨u.elemAt l, nofun, (u.setElem_elemAt l).symm⟩
  | succ m ih =>
    obtain ⟨x, hx, hfold⟩ := ih (Nat.le_of_succ_le hm)
    refine ⟨withElemWord x m (elemWord v m), withElemWord_elemWord_agrees hx, ?_⟩
    rw [List.range_succ, List.foldl_append, hfold, List.foldl_cons, List.foldl_nil,
      hostWrite_elemOffset (writable_setElem h x) hm,
      u.elemAt_setElem_self x (elemAccess_ne_ignored_of_writable h), u.setElem_setElem]

theorem storeWords_eq_setElem {u : UnitState b} {l : ElemLoc b} (h : Writable u l) (v : b.Elem) :
    storeWords u l v = u.setElem l v := by
  obtain ⟨x, hx, hfold⟩ := exists_foldl_hostWrite_eq_setElem h v (Nat.le_refl b.ew)
  have hcover : b.n ≤ 32 * b.ew := by unfold Build.ew; omega
  obtain rfl : x = v := BitVec.eq_of_getLsbD_eq fun j hj => hx j (Nat.lt_of_lt_of_le hj hcover)
  exact hfold

end Sys2Proof.Machine

namespace Sys2Proof.Proofs

open Sys2Proof Sys2Proof.Machine Sys2Proof.Claims

/-- Settles O45, by induction on the words written. -/
theorem setStoresTheElement : Obligations.SetStoresTheElement := fun _ u _ v h =>
  have hstore := storeWords_eq_setElem h v
  ⟨hstore, hstore ▸ u.elemAt_setElem_self v (elemAccess_ne_ignored_of_writable h)⟩

end Sys2Proof.Proofs
end

section
/-! PROOF. Field arithmetic as arithmetic modulo f (40_field_arithmetic.md section 1): the bits of `clmul`, `reduce` as the
remainder of the division by f, and the ring of residues GF(2)[X]/(f), in which `gfMul` and `gfPow` are product and power. -/

namespace Sys2Proof.Proofs

open Sys2Proof Sys2Proof.Machine Sys2Proof.Claims
open Polynomial

/-! ### The bits of the carry-less product -/

/-- Bit k of the first operand shifted left by i, in the width of a product: no bit is lost at the top. -/
theorem getLsbD_setWidth_shiftLeft {n : Nat} (x : BitVec n) {i : Nat} (hi : i < n) (k : Nat) :
    (x.setWidth (2 * n - 1) <<< i).getLsbD k = (decide (i ≤ k) && x.getLsbD (k - i)) := by
  rw [BitVec.getLsbD_shiftLeft, BitVec.getLsbD_setWidth]
  rcases Nat.lt_or_ge (k - i) n with hlt | hge
  · have hk : k < 2 * n - 1 := by omega
    have hki : k - i < 2 * n - 1 := by omega
    by_cases hik : i ≤ k <;> simp [hk, hki, hik, Nat.lt_of_not_le]
  · simp [BitVec.getLsbD_of_ge x (k - i) hge]

/-- The contributions of bits 0 to m − 1 of the second operand, summed on top of any bit. -/
theorem foldr_xor_eq_clmulUpTo {n : Nat} (x y : BitVec n) (k : Nat) {m : Nat} (hm : m ≤ n) (c : Bool) :
    (List.range m).foldr (fun i acc => Bool.xor (y.getLsbD i && decide (i ≤ k) && x.getLsbD (k - i)) acc) c =
      Bool.xor ((clmulUpTo x y m).getLsbD k) c := by
  induction m generalizing c with
  | zero => simp
  | succ m ih =>
    have hterm : (if y.getLsbD m then x.setWidth (2 * n - 1) <<< m else 0).getLsbD k =
        (y.getLsbD m && decide (m ≤ k) && x.getLsbD (k - m)) := by
      cases y.getLsbD m
      · simp
      · simpa using getLsbD_setWidth_shiftLeft x hm k
    rw [List.range_succ, List.foldr_append, ih (Nat.le_of_succ_le hm), clmulUpTo_succ, BitVec.getLsbD_xor, hterm,
      Bool.xor_assoc]
    rfl

/-- Settles O31, by induction on the bits of the second operand. -/
theorem clmulIsCarrylessProduct : Obligations.ClmulIsCarrylessProduct := fun n x y k => by
  rw [foldr_xor_eq_clmulUpTo x y k (Nat.le_refl n), Bool.xor_false]
  rfl

/-! ### `reduce` is the remainder of the division by f -/

theorem toPoly_shiftLeft {n : Nat} {v : BitVec n} {k : Nat} (hv : ∀ j, n ≤ j + k → v.getLsbD j = false) :
    toPoly (v <<< k) = toPoly v * X ^ k := by
  ext j
  rw [toPoly_coeff, coeff_mul_X_pow', BitVec.getLsbD_shiftLeft]
  by_cases hk : k ≤ j
  · rw [if_pos hk, toPoly_coeff]
    rcases Nat.lt_or_ge j n with hj | hj
    · simp [hj, Nat.not_lt.mpr hk]
    · simp [hv (j - k) (by omega)]
  · simp [hk, Nat.lt_of_not_le hk, bitCoeff]

theorem toPoly_setWidth {n m : Nat} {v : BitVec n} (hv : ∀ j, m ≤ j → v.getLsbD j = false) :
    toPoly (v.setWidth m) = toPoly v := by
  refine toPoly_eq_iff.mpr fun j => ?_
  rw [BitVec.getLsbD_setWidth]
  rcases Nat.lt_or_ge j m with hj | hj
  · simp [hj]
  · simp [hv j hj]

variable {b : Build}

theorem toPoly_modulus_shiftLeft {k : Nat} (hk : k + 1 < b.n) : toPoly (modulus b <<< k) = fieldPoly b * X ^ k := by
  rw [toPoly_shiftLeft fun j hj => ?_, toPoly_modulus]
  rw [modulus_getLsbD, if_neg (by omega), BitVec.getLsbD_of_ge _ _ (by omega)]

/-- One step of `reduce` (R82) clears the highest bit left, and leaves the bits above it clear. -/
theorem getLsbD_reduceStep {c : BitVec (2 * b.n - 1)} {k : Nat} (hk : k + 1 < b.n)
    (hc : ∀ j, b.n + (k + 1) ≤ j → c.getLsbD j = false) {j : Nat} (hj : b.n + k ≤ j) :
    (if c.getLsbD (b.n + k) then c ^^^ (modulus b <<< k) else c).getLsbD j = false := by
  rcases Nat.eq_or_lt_of_le hj with rfl | hlt
  · have hwidth : b.n + k < 2 * b.n - 1 := by omega
    have hmod : (modulus b <<< k).getLsbD (b.n + k) = true := by
      rw [BitVec.getLsbD_shiftLeft, Nat.add_sub_cancel, modulus_getLsbD]
      simp [hwidth]
    cases htop : c.getLsbD (b.n + k)
    · exact htop
    · rw [if_pos rfl, BitVec.getLsbD_xor, htop, hmod]
      rfl
  · have hmod : (modulus b <<< k).getLsbD j = false := by
      have hne : j - k ≠ b.n := by omega
      simp [modulus_getLsbD, hne, BitVec.getLsbD_of_ge b.poly (j - k) (by omega)]
    split <;> simp [hc j hlt, hmod]

theorem getLsbD_reduceFrom {k : Nat} (hk : k < b.n) {c : BitVec (2 * b.n - 1)}
    (hc : ∀ j, b.n + k ≤ j → c.getLsbD j = false) : ∀ j, b.n ≤ j → (reduceFrom b k c).getLsbD j = false := by
  induction k generalizing c with
  | zero => exact hc
  | succ k ih => exact ih (Nat.lt_of_succ_lt hk) fun j hj => getLsbD_reduceStep hk hc hj

/-- Each step of `reduce` adds a multiple of f or nothing. -/
theorem toPoly_reduceFrom_modByMonic {k : Nat} (hk : k < b.n) (c : BitVec (2 * b.n - 1)) :
    toPoly (reduceFrom b k c) %ₘ fieldPoly b = toPoly c %ₘ fieldPoly b := by
  induction k generalizing c with
  | zero => rfl
  | succ k ih =>
    rw [reduceFrom_succ, ih (Nat.lt_of_succ_lt hk)]
    split
    · rw [toPoly_xor, toPoly_modulus_shiftLeft hk, add_modByMonic,
        (modByMonic_eq_zero_iff_dvd (monic_fieldPoly b)).mpr (dvd_mul_right _ _), add_zero]
    · rfl

theorem natDegree_toPoly_lt {n : Nat} (hn : 0 < n) (v : BitVec n) : (toPoly v).natDegree < n := by
  rcases eq_or_ne (toPoly v) 0 with h0 | h0
  · rwa [h0, natDegree_zero]
  · exact (natDegree_lt_iff_degree_lt h0).mpr (degree_toPoly_lt v)

theorem degree_toPoly_lt_fieldPoly (v : b.Elem) : (toPoly v).degree < (fieldPoly b).degree := by
  rw [degree_eq_natDegree (monic_fieldPoly b).ne_zero, natDegree_fieldPoly]
  exact degree_toPoly_lt v

/-- `reduce(c)` is the remainder of c modulo f (R82). -/
theorem toPoly_reduce (c : BitVec (2 * b.n - 1)) : toPoly (reduce b c) = toPoly c %ₘ fieldPoly b := by
  have hn := b.three_le_n
  have hclear := getLsbD_reduceFrom (k := b.n - 1) (by omega) (c := c) fun j hj => BitVec.getLsbD_of_ge c j (by omega)
  calc toPoly (reduce b c)
    _ = toPoly (reduce b c) %ₘ fieldPoly b :=
        ((modByMonic_eq_self_iff (monic_fieldPoly b)).mpr (degree_toPoly_lt_fieldPoly _)).symm
    _ = toPoly (reduceFrom b (b.n - 1) c) %ₘ fieldPoly b := by rw [reduce, toPoly_setWidth hclear]
    _ = toPoly c %ₘ fieldPoly b := toPoly_reduceFrom_modByMonic (by omega) c

/-- R82's equation on values is the division equation c = q·f + r on polynomials. -/
theorem eq_quotient_remainder_iff {c : BitVec (2 * b.n - 1)} {q r : b.Elem} (hq : q.toNat < 2 ^ (b.n - 1)) :
    c = (q.setWidth (2 * b.n - 1) <<< b.n) ^^^ clmul q b.poly ^^^ r.setWidth (2 * b.n - 1) ↔
      toPoly c = toPoly q * fieldPoly b + toPoly r := by
  have hn := b.three_le_n
  have htop (j : Nat) (hj : b.n - 1 ≤ j) : q.getLsbD j = false :=
    Nat.testBit_lt_two_pow (Nat.lt_of_lt_of_le hq (Nat.pow_le_pow_right (by decide) hj))
  have hwide (v : b.Elem) : toPoly (v.setWidth (2 * b.n - 1)) = toPoly v :=
    toPoly_setWidth fun j hj => BitVec.getLsbD_of_ge v j (by omega)
  have hshift : toPoly (q.setWidth (2 * b.n - 1) <<< b.n) = toPoly q * X ^ b.n := by
    rw [toPoly_shiftLeft fun j hj => ?_, hwide]
    rw [BitVec.getLsbD_setWidth, htop j (by omega), Bool.and_false]
  rw [← toPoly_injective.eq_iff, toPoly_xor, toPoly_xor, hshift, toPoly_clmul, hwide, fieldPoly, mul_add]

/-- The quotient of a (2N−1)-bit value by f has degree at most N − 2. -/
theorem exists_toPoly_eq_quotient (c : BitVec (2 * b.n - 1)) :
    ∃ q : b.Elem, q.toNat < 2 ^ (b.n - 1) ∧ toPoly q = toPoly c /ₘ fieldPoly b := by
  have hn := b.three_le_n
  have hc : (toPoly c).natDegree < 2 * b.n - 1 := natDegree_toPoly_lt (by omega) c
  have hquotient : (toPoly c /ₘ fieldPoly b).natDegree < b.n - 1 := by
    rw [natDegree_divByMonic _ (monic_fieldPoly b), natDegree_fieldPoly]
    omega
  obtain ⟨v, hv⟩ := exists_toPoly_eq hquotient
  refine ⟨v.setWidth b.n, ?_, ?_⟩
  · rw [BitVec.toNat_setWidth_of_le (by omega)]
    exact v.isLt
  · rw [toPoly_setWidth fun j hj => BitVec.getLsbD_of_ge v j (by omega), hv]

/-- Settles O32: `reduce` is the remainder of the division by the monic f, and division has one quotient and remainder. -/
theorem reduceIsTheResidue : Obligations.ReduceIsTheResidue := fun b c => by
  refine ⟨?_, fun q r hq h => ?_⟩
  · obtain ⟨q, hq, hdiv⟩ := exists_toPoly_eq_quotient c
    refine ⟨q, hq, (eq_quotient_remainder_iff hq).mpr ?_⟩
    rw [hdiv, toPoly_reduce, mul_comm (_ /ₘ _), add_comm, modByMonic_add_div]
  · rw [eq_quotient_remainder_iff hq] at h
    have hdivision : toPoly r + fieldPoly b * toPoly q = toPoly c := by rw [h, add_comm, mul_comm]
    obtain ⟨-, hr⟩ := div_modByMonic_unique _ _ (monic_fieldPoly b) ⟨hdivision, degree_toPoly_lt_fieldPoly r⟩
    exact toPoly_injective (hr.symm.trans (toPoly_reduce c).symm)

/-! ### Elements as residues modulo f -/

/-- The class of an element in GF(2)[X]/(f). -/
noncomputable def residue (v : b.Elem) : AdjoinRoot (fieldPoly b) := AdjoinRoot.mk (fieldPoly b) (toPoly v)

theorem mk_modByMonic_fieldPoly (p : (ZMod 2)[X]) :
    AdjoinRoot.mk (fieldPoly b) (p %ₘ fieldPoly b) = AdjoinRoot.mk (fieldPoly b) p := by
  rw [← AdjoinRoot.modByMonicHom_mk (monic_fieldPoly b) p]
  exact AdjoinRoot.mk_leftInverse (monic_fieldPoly b) _

/-- Two elements differ by a value of degree below N, which f divides only if it is zero. -/
theorem residue_injective : Function.Injective (residue (b := b)) := fun v w h => by
  have hdvd : fieldPoly b ∣ toPoly (v ^^^ w) := by
    rwa [residue, residue, AdjoinRoot.mk_eq_mk, CharTwo.sub_eq_add, ← toPoly_xor] at h
  have hzero : toPoly (v ^^^ w) = toPoly 0#b.n := by
    rw [toPoly_zero, eq_zero_of_dvd_of_degree_lt hdvd (degree_toPoly_lt_fieldPoly _)]
  exact BitVec.xor_eq_zero_iff.mp (toPoly_injective hzero)

/-- Every class holds its remainder modulo f, of degree below N. -/
theorem residue_surjective : Function.Surjective (residue (b := b)) := fun z => by
  have hn := b.three_le_n
  obtain ⟨p, rfl⟩ := AdjoinRoot.mk_surjective z
  have hne : fieldPoly b ≠ 1 := ne_of_apply_ne natDegree (by rw [natDegree_fieldPoly, natDegree_one]; omega)
  have hdeg : (p %ₘ fieldPoly b).natDegree < b.n :=
    natDegree_fieldPoly b ▸ natDegree_modByMonic_lt p (monic_fieldPoly b) hne
  obtain ⟨v, hv⟩ := exists_toPoly_eq hdeg
  refine ⟨v, ?_⟩
  rw [residue, hv, mk_modByMonic_fieldPoly]

@[simp] theorem residue_zero : residue 0#b.n = 0 := by
  rw [residue, toPoly_zero, map_zero]

@[simp] theorem residue_one : residue 1#b.n = 1 := by
  have hone : toPoly 1#b.n = 1 := by
    have hn : 0 < b.n := Nat.lt_of_lt_of_le (by decide) b.three_le_n
    ext k
    rw [toPoly_coeff, coeff_one, BitVec.getLsbD_one]
    by_cases hk : k = 0 <;> simp [hk, hn, bitCoeff]
  rw [residue, hone, map_one]

@[simp] theorem residue_xor (x y : b.Elem) : residue (x ^^^ y) = residue x + residue y := by
  rw [residue, toPoly_xor, map_add]
  rfl

@[simp] theorem residue_gfAdd (x y : b.Elem) : residue (gfAdd b x y) = residue x + residue y := residue_xor x y

/-- The class of a product does not see the reduction (R83). -/
@[simp] theorem residue_gfMul (x y : b.Elem) : residue (gfMul b x y) = residue x * residue y := by
  rw [residue, gfMul, toPoly_reduce, mk_modByMonic_fieldPoly, toPoly_clmul, map_mul]
  rfl

/-- Square-and-multiply over the exponent's low i bits (R84). -/
theorem residue_powFrom (x k r : b.Elem) (i : Nat) :
    residue (powFrom b x k i r) = residue r ^ 2 ^ i * residue x ^ (k.toNat % 2 ^ i) := by
  induction i generalizing r with
  | zero => simp [Nat.mod_one]
  | succ i ih =>
    have hstep : residue (if k.getLsbD i then gfMul b (gfMul b r r) x else gfMul b r r) =
        residue r ^ 2 * residue x ^ (k.getLsbD i).toNat := by
      cases k.getLsbD i <;> simp [pow_two]
    have hbits : k.toNat % 2 ^ (i + 1) = k.toNat % 2 ^ i + 2 ^ i * (k.getLsbD i).toNat := by
      rw [Nat.mod_pow_succ, ← Nat.toNat_testBit, BitVec.testBit_toNat]
    rw [powFrom_succ, ih, hstep, hbits]
    ring

@[simp] theorem residue_gfPow (x k : b.Elem) : residue (gfPow b x k) = residue x ^ k.toNat := by
  rw [gfPow, residue_powFrom, gfOne, residue_one, one_pow, one_mul, Nat.mod_eq_of_lt k.isLt]

/-- Settles O33: in the ring of residues both are the power of the base's class. -/
theorem powIsRepeatedMultiplication : Obligations.PowIsRepeatedMultiplication := fun b x k => by
  have hprod (m : Nat) : residue ((List.replicate m x).foldr (gfMul b) 1#b.n) = residue x ^ m := by
    induction m with
    | zero => exact residue_one
    | succ m ih => rw [List.replicate_succ, List.foldr_cons, residue_gfMul, ih, pow_succ']
  exact residue_injective (by rw [residue_gfPow, hprod])

/-! ### The ring laws -/

theorem residue_add_self (x : b.Elem) : residue x + residue x = 0 := by
  rw [← residue_xor, BitVec.xor_self]
  exact residue_zero

theorem gfPow_add {x j k : b.Elem} (h : j.toNat + k.toNat < 2 ^ b.n) :
    gfPow b x (j + k) = gfMul b (gfPow b x j) (gfPow b x k) := by
  apply residue_injective
  rw [residue_gfMul, residue_gfPow, residue_gfPow, residue_gfPow, BitVec.toNat_add_of_lt h, pow_add]

theorem gfPow_mul {x j k : b.Elem} (h : j.toNat * k.toNat < 2 ^ b.n) :
    gfPow b x (j * k) = gfPow b (gfPow b x j) k := by
  apply residue_injective
  rw [residue_gfPow, residue_gfPow, residue_gfPow, BitVec.toNat_mul_of_lt h, pow_mul]

/-- The cross terms of a square cancel. -/
theorem gfMul_self_gfAdd (x y : b.Elem) :
    gfMul b (gfAdd b x y) (gfAdd b x y) = gfAdd b (gfMul b x x) (gfMul b y y) := by
  apply residue_injective
  have hcross := residue_add_self (gfMul b x y)
  simp only [residue_gfMul, residue_gfAdd] at hcross ⊢
  linear_combination hcross

/-- Settles O34: in the ring of residues each law is one of commutative rings of characteristic 2. -/
theorem ringLaws : Obligations.RingLaws := fun b x y z => by
  refine ⟨BitVec.xor_comm x y, BitVec.xor_assoc x y z, residue_injective ?_, residue_injective ?_, residue_injective ?_,
    BitVec.xor_self, BitVec.xor_zero, residue_injective ?_, residue_injective ?_, fun _ _ => gfPow_add,
    fun _ _ => gfPow_mul, gfMul_self_gfAdd x y⟩
  · simp [mul_comm]
  · simp [mul_assoc]
  · simp [mul_add]
  · simp
  · simp

/-! ### The field laws -/

theorem residue_eq_zero_iff {x : b.Elem} : residue x = 0 ↔ x = 0 := by
  rw [← residue_zero, residue_injective.eq_iff]
  rfl

/-- There are as many residues as elements. -/
theorem natCard_adjoinRoot (b : Build) : Nat.card (AdjoinRoot (fieldPoly b)) = 2 ^ b.n := by
  rw [← Nat.card_eq_of_bijective _ ⟨residue_injective, residue_surjective⟩,
    Nat.card_congr (BitVec.equivFin (m := b.n)).toEquiv, Nat.card_fin]

section Field

variable [Fact (Irreducible (fieldPoly b))]

/-- The group of non-zero residues has order 2^N − 1. -/
theorem residue_pow_ord1 {x : b.Elem} (hx : x ≠ 0) : residue x ^ (2 ^ b.n - 1) = 1 := by
  have hx' : residue x ≠ 0 := mt residue_eq_zero_iff.mp hx
  have hcard : Nat.card (AdjoinRoot (fieldPoly b))ˣ = 2 ^ b.n - 1 := by rw [Nat.card_units, natCard_adjoinRoot]
  have hunit : Units.mk0 (residue x) hx' ^ (2 ^ b.n - 1) = 1 := hcard ▸ pow_card_eq_one'
  simpa using congrArg Units.val hunit

theorem residue_pow_of_mod_eq_one (x : b.Elem) {m : Nat} (h : m % (2 ^ b.n - 1) = 1) : residue x ^ m = residue x := by
  by_cases hx : x = 0
  · have hm : m ≠ 0 := by rintro rfl; simp at h
    rw [hx]
    simp [hm]
  · rw [← Nat.div_add_mod m (2 ^ b.n - 1), h, pow_succ, pow_mul, residue_pow_ord1 hx, one_pow, one_mul]

theorem residue_mul_gfInv {x : b.Elem} (hx : x ≠ 0) : residue x * residue (gfInv b x) = 1 := by
  have hpow : 2 ≤ 2 ^ b.n := Nat.one_lt_two_pow (by have := b.three_le_n; omega)
  have hexp : 2 ^ b.n - 2 + 1 = 2 ^ b.n - 1 := by omega
  rw [gfInv, residue_gfPow, BitVec.toNat_ofNat, Nat.mod_eq_of_lt (by omega), ← pow_succ', hexp, residue_pow_ord1 hx]

end Field

/-- Settles O35: modulo an irreducible f the residues are a field of 2^N elements. -/
theorem fieldLaws : Obligations.FieldLaws := fun b hb => by
  have : Fact (Irreducible (fieldPoly b)) := ⟨irreducible_of_polyIrreducible hb⟩
  refine ⟨fun x hx => ⟨residue_injective ?_, fun y hy => ?_⟩, fun x hx => residue_injective ?_, fun x y hxy => ?_,
    fun x k l _ hkl => residue_injective ?_⟩
  · rw [residue_gfMul, residue_mul_gfInv hx, residue_one]
  · have hxy := congrArg residue hy
    rw [residue_gfMul, residue_one, ← residue_mul_gfInv hx] at hxy
    exact residue_injective (mul_left_cancel₀ (mt residue_eq_zero_iff.mp hx) hxy)
  · rw [residue_gfPow, BitVec.toNat_allOnes, residue_pow_ord1 hx, residue_one]
  · simpa [residue_eq_zero_iff] using congrArg residue hxy
  · rw [residue_gfPow, residue_gfPow, ← pow_mul, residue_pow_of_mod_eq_one x hkl]

end Sys2Proof.Proofs
end

section
/-! PROOF. The field commands (40_field_arithmetic.md section 2): their words, and what each writes. -/

namespace Sys2Proof.Proofs

open Sys2Proof Sys2Proof.Machine Sys2Proof.Claims

/-! ### The words of the field commands -/

/-- Settles O2, from the round trip: each word is the encoding of its command. -/
theorem sampleWordsDecode : Obligations.SampleWordsDecode :=
  ⟨decode_encode (.fli 3 0x57), decode_encode (.fadd 0 1 2), decode_encode (.fpow 7 1 6), decode_encode (.finv 4 1),
    decode_encode (.mvex 4 2), decode_encode (.mvxe 1 0), decode_encode (.mix 4), decode_encode (.arc 3),
    decode_encode .sboxiP, decode_encode (.rndi 0), decode_encode (.evalT 1 3), decode_encode (.evali 0 4),
    decode_encode .commit, decode_encode .clrf, decode_encode .srst⟩

/-- The must-be-zero bits of an opcode are those of its row (R61, R68, R71). -/
theorem mustBeZero_of_mem {op : BitVec 8} {mbz : Word} (h : (op, mbz) ∈ opcodeBytes) : MustBeZero op mbz :=
  fun s w hop hf =>
    have ⟨_, _, hrows⟩ := commandProcessingOrder s w
    have ⟨hset, _, _, hclear⟩ := hrows hf _ h hop
    ⟨hset, hclear⟩

theorem hasWord_of_toNat {i : Instr} {k : Nat} (h : (encode i).toNat = k) : HasWord i k :=
  ⟨h, by rw [← h, BitVec.ofNat_toNat, BitVec.setWidth_eq, decode_encode]⟩

theorem formatI_toNat (op : BitVec 8) (d : EReg) (imm : BitVec 16) :
    (formatI op d imm).toNat = 2 ^ 24 * op.toNat + 2 ^ 20 * d.val + imm.toNat := by
  simp only [formatI, toNat_append_eq_add, regBits, BitVec.toNat_ofFin, BitVec.toNat_ofNat]
  omega

theorem formatR_toNat (op : BitVec 8) (d a b : EReg) :
    (formatR op d a b).toNat = 2 ^ 24 * op.toNat + 2 ^ 20 * d.val + 2 ^ 16 * a.val + 2 ^ 12 * b.val := by
  simp only [formatR, toNat_append_eq_add, regBits, BitVec.toNat_ofFin, BitVec.toNat_ofNat]
  omega

/-! ### What a field command writes -/

section Accepted

variable {s : State} (hs : Accepting s)
include hs

theorem exec_fli (d : EReg) (imm : BitVec 16) :
    exec (.fli d imm) s = .next { s with unit := s.unit.writeE d (immediate s.build imm) } :=
  (onUnit_eq_of_next (whenAdmitted_any hs) : execFli d imm s = _)

theorem exec_fadd (d a b : EReg) :
    exec (.fadd d a b) s = .next { s with
      unit := s.unit.writeE d (gfAdd s.build (s.unit.readE a) (s.unit.readE b)) } :=
  (onUnit_eq_of_next (whenAdmitted_any hs) : execFadd d a b s = _)

theorem exec_fmul (d a b : EReg) :
    exec (.fmul d a b) s = .next { s with
      unit := s.unit.writeE d (gfMul s.build (s.unit.readE a) (s.unit.readE b)) } :=
  (onUnit_eq_of_next (whenAdmitted_any hs) : execFmul d a b s = _)

theorem exec_fpow (d a b : EReg) :
    exec (.fpow d a b) s = .next { s with
      unit := s.unit.writeE d (gfPow s.build (s.unit.readE a) (s.unit.readE b)) } :=
  (onUnit_eq_of_next (whenAdmitted_any hs) : execFpow d a b s = _)

theorem exec_finv_of_ne_zero (d : EReg) {a : EReg} (ha : s.unit.readE a ≠ 0) :
    exec (.finv d a) s = .next { s with unit := s.unit.writeE d (gfInv s.build (s.unit.readE a)) } :=
  (onUnit_eq_of_next ((whenAdmitted_any hs).trans (if_neg ha)) : execFinv d a s = _)

theorem exec_finv_of_zero (d : EReg) {a : EReg} (ha : s.unit.readE a = 0) :
    exec (.finv d a) s = .next (faulted s .domInvZero (encode (.finv d a))) :=
  (onUnit_eq_of_next ((whenAdmitted_any hs).trans (if_pos ha)) : execFinv d a s = _)

end Accepted

/-- Settles O10: the immediate's low N bits are its value modulo 2^N. -/
theorem fliLoadsImmediate : Obligations.FliLoadsImmediate := by
  refine ⟨mustBeZero_of_mem (by decide), fun d imm => hasWord_of_toNat (formatI_toNat 0x01 d imm), fun s d imm hs => ?_⟩
  rw [BitVec.ofNat_toNat]
  exact exec_fli hs d imm

/-- Settles O11, from the equation of an accepted `FADD`. -/
theorem faddAddsElements : Obligations.FaddAddsElements :=
  ⟨mustBeZero_of_mem (by decide), fun d a b => hasWord_of_toNat (formatR_toNat 0x02 d a b),
    fun _ d a b hs => exec_fadd hs d a b⟩

/-- Settles O12, from the equation of an accepted `FMUL`. -/
theorem fmulMultipliesElements : Obligations.FmulMultipliesElements :=
  ⟨mustBeZero_of_mem (by decide), fun d a b => hasWord_of_toNat (formatR_toNat 0x03 d a b),
    fun _ d a b hs => exec_fmul hs d a b⟩

/-- Settles O13, from the equation of an accepted `FPOW`: `pow` is total, so no operand is refused. -/
theorem fpowRaisesToPower : Obligations.FpowRaisesToPower :=
  ⟨mustBeZero_of_mem (by decide), fun d a b => hasWord_of_toNat (formatR_toNat 0x04 d a b),
    fun _ d a b hs => exec_fpow hs d a b⟩

/-- Settles O14, from the equations of an accepted `FINV` in the two cases of its source. -/
theorem finvInvertsOrFaults : Obligations.FinvInvertsOrFaults :=
  ⟨mustBeZero_of_mem (by decide), fun d a => hasWord_of_toNat (formatR_toNat 0x05 d a 0),
    fun _ d _ hs ha => exec_finv_of_ne_zero hs d ha, fun _ d _ hs ha => exec_finv_of_zero hs d ha⟩

end Sys2Proof.Proofs
end

section
/-! PROOF. The matrix-vector multiplier (41_matrix_vector.md): the sum of a row's products in any order, products by a stored
matrix as products over the ring of residues, and `MIX`. -/

namespace Sys2Proof.Proofs

open Sys2Proof Sys2Proof.Machine Sys2Proof.Claims
open Matrix

/-! ### `MIX` -/

theorem formatM_toNat (op : BitVec 8) (msel : BitVec 4) :
    (formatM op msel).toNat = 2 ^ 24 * op.toNat + 2 ^ 20 * msel.toNat := by
  simp only [formatM, toNat_append_eq_add, BitVec.toNat_ofNat]
  omega

section Ready

variable {s : State} (hs : Ready s)
include hs

theorem exec_mix_of_lt {msel : BitVec 4} (h : msel.toNat < 6) :
    exec (.mix msel) s = .next { s with unit := s.unit.setX (s.unit.matvec ⟨msel.toNat, h⟩ s.unit.x) } :=
  (onUnit_eq_of_next ((whenAdmitted_ready hs.1 hs.2).trans (withMatrix_of_lt h)) : execMix msel s = _)

theorem exec_mix_of_ge {msel : BitVec 4} (h : 6 ≤ msel.toNat) :
    exec (.mix msel) s = .next (faulted s .illField (encode (.mix msel))) :=
  (onUnit_eq_of_next ((whenAdmitted_ready hs.1 hs.2).trans (withMatrix_of_ge h)) : execMix msel s = _)

end Ready

/-- Settles O17, from the equations of an admitted `MIX` in the two cases of its matrix select. -/
theorem mixMultipliesState : Obligations.MixMultipliesState := by
  refine ⟨mustBeZero_of_mem (by decide), fun msel => ⟨fun s hf hp => ?_, hasWord_of_toNat (formatM_toNat 0x20 msel)⟩,
    fun s msel h hs => exec_mix_of_lt hs h, fun s msel hs h => exec_mix_of_ge hs h⟩
  exact exec_phaseFault hf (congrArg (phaseFault .ready) hp)

/-! ### Sums in any order -/

/-- Addition commutes, so a family may be summed over any ordering of its indices. -/
theorem xorSum_eq_foldl_of_perm {n k : Nat} (f : Fin k → BitVec n) {order : List (Fin k)}
    (h : order.Perm (List.finRange k)) : xorSum f = order.foldl (fun acc j => acc ^^^ f j) 0 := by
  have hcomm : LeftCommutative fun j acc => f j ^^^ acc := ⟨fun i j acc => by
    rw [← BitVec.xor_assoc, BitVec.xor_comm (f i), BitVec.xor_assoc]⟩
  calc xorSum f
    _ = (List.finRange k).foldr (fun j acc => f j ^^^ acc) 0 := Fin.foldr_eq_foldr_finRange _ _
    _ = order.reverse.foldr (fun j acc => f j ^^^ acc) 0 := (order.reverse_perm.trans h).symm.foldr_eq 0
    _ = order.foldl (fun acc j => acc ^^^ f j) 0 := by simp only [List.foldr_reverse, BitVec.xor_comm]

/-- Settles O37: word i is the sum of row i's products. -/
theorem matvecAccumulatesInAnyOrder : Obligations.MatvecAccumulatesInAnyOrder := fun b mat x i order h => by
  rw [Fin.getElem_fin, mulVec_getElem]
  exact xorSum_eq_foldl_of_perm _ h

/-! ### Vectors and matrices over the ring of residues -/

variable {b : Build}

@[simp] theorem residue_xorSum {k : Nat} (f : Fin k → b.Elem) : residue (xorSum f) = ∑ j, residue (f j) := by
  induction k with
  | zero => simp
  | succ k ih => rw [xorSum_succ, residue_xor, ih, Fin.sum_univ_succ]

/-- Settles O38: off the diagonal a term is x[j] alone; on it, x[i] cancels out of S and D[i]·x[i] is added. -/
theorem onesPlusDiagonalShortcut : Obligations.OnesPlusDiagonalShortcut := fun b d x i => by
  have hterm (j : Fin b.t) : residue (if i = j then d[i] else 1#b.n) * residue x[j] =
      residue x[j] + if i = j then residue x[i] + residue d[i] * residue x[i] else 0 := by
    split_ifs with hij
    · rw [← hij, ← add_assoc, residue_add_self, zero_add]
    · rw [residue_one, one_mul, add_zero]
  apply residue_injective
  calc residue (mulVec _ x)[i]
    _ = ∑ j : Fin b.t, residue (if i = j then d[i] else 1#b.n) * residue x[j] := by simp [dot]
    _ = ∑ j : Fin b.t, (residue x[j] + if i = j then residue x[i] + residue d[i] * residue x[i] else 0) :=
        Finset.sum_congr rfl fun j _ => hterm j
    _ = ∑ j : Fin b.t, residue x[j] + (residue x[i] + residue d[i] * residue x[i]) := by
        rw [Finset.sum_add_distrib, Finset.sum_ite_eq, if_pos (Finset.mem_univ i)]
    _ = residue ((xorSum fun j : Fin b.t => x[j]) ^^^ x[i] ^^^ gfMul b d[i] x[i]) := by
        rw [residue_xor, residue_xor, residue_xorSum, residue_gfMul, add_assoc]

/-- The classes of a vector's words, as a column. -/
noncomputable def residueVec (x : b.Vec) : Fin b.t → AdjoinRoot (fieldPoly b) := fun i => residue x[i]

/-- The classes of a matrix's entries. -/
noncomputable def residueMat (mat : b.Mat) : Matrix (Fin b.t) (Fin b.t) (AdjoinRoot (fieldPoly b)) :=
  Matrix.of fun i j => residue mat[i][j]

theorem residueVec_injective : Function.Injective (residueVec (b := b)) := fun _ _ h =>
  Vector.ext fun i hi => residue_injective (congrFun h ⟨i, hi⟩)

/-- `matvec` is the product of a matrix and a column (R100). -/
theorem residueVec_mulVec (mat : b.Mat) (x : b.Vec) : residueVec (mulVec mat x) = residueMat mat *ᵥ residueVec x := by
  ext i
  simp [residueVec, residueMat, dot, Matrix.mulVec, dotProduct]

theorem mulVec_cancel {p q : b.Mat} (h : residueMat p * residueMat q = 1) (x : b.Vec) : mulVec p (mulVec q x) = x :=
  residueVec_injective (by
    rw [residueVec_mulVec, residueVec_mulVec, Matrix.mulVec_mulVec, h, Matrix.one_mulVec])

theorem residueMat_mul_of_pair {u : UnitState b} {p q : Fin 6} (h : PairIsIdentity u p q) :
    residueMat u.m[p] * residueMat u.m[q] = 1 := by
  ext i j
  have hij := congrArg residue (h i j)
  rw [residue_xorSum] at hij
  simpa [residueMat, Matrix.mul_apply, Matrix.one_apply, apply_ite residue] using hij

/-- `COMMIT` checks one order of a pair (R146); over a commutative ring a one-sided inverse of a square matrix is two-sided. -/
theorem matvec_pair_cancel {u : UnitState b} {p q : Fin 6} (h : PairIsIdentity u p q) (x : b.Vec) :
    u.matvec q (u.matvec p x) = x ∧ u.matvec p (u.matvec q x) = x :=
  have hpq := residueMat_mul_of_pair h
  ⟨mulVec_cancel (mul_eq_one_comm.mp hpq) x, mulVec_cancel hpq x⟩

/-- Settles O39: each stored pair cancels in both orders. -/
theorem matrixPairsInvert : Obligations.MatrixPairsInvert := fun _ _ x hu =>
  have ⟨h10, h01⟩ := matvec_pair_cancel hu.minit_pair x
  have ⟨h32, h23⟩ := matvec_pair_cancel hu.mf_pair x
  have ⟨h54, h45⟩ := matvec_pair_cancel hu.mp_pair x
  ⟨h10, h01, h32, h23, h54, h45⟩

end Sys2Proof.Proofs
end

section
/-! PROOF. The S-box unit (42_sbox.md): the full and the partial power map, the four commands that apply it, and the power maps
of `ALPHA` and `ALPHA_INV` as inverses of each other. -/

namespace Sys2Proof.Proofs

open Sys2Proof Sys2Proof.Machine Sys2Proof.Claims

variable {b : Build}

/-! ### The full and the partial S-box (R110) -/

theorem sbox_full (x : b.Vec) (k : b.Elem) : sbox x k true = Vector.ofFn fun i => gfPow b x[i] k := rfl

theorem sbox_partial (x : b.Vec) (k : b.Elem) :
    sbox x k false = Vector.ofFn fun i => if i.val = 0 then gfPow b x[i] k else x[i] := by
  simp [sbox]

/-! ### The S-box commands -/

section Ready

variable {s : State} (hs : Ready s)
include hs

theorem exec_sboxF : exec .sboxF s = .next { s with unit := s.unit.setX (sbox s.unit.x s.unit.alpha true) } :=
  (onUnit_eq_of_next (whenAdmitted_ready hs.1 hs.2) : execSboxF s = _)

theorem exec_sboxP : exec .sboxP s = .next { s with unit := s.unit.setX (sbox s.unit.x s.unit.alpha false) } :=
  (onUnit_eq_of_next (whenAdmitted_ready hs.1 hs.2) : execSboxP s = _)

theorem exec_sboxiF : exec .sboxiF s = .next { s with unit := s.unit.setX (sbox s.unit.x s.unit.alphaInv true) } :=
  (onUnit_eq_of_next (whenAdmitted_ready hs.1 hs.2) : execSboxiF s = _)

theorem exec_sboxiP : exec .sboxiP s = .next { s with unit := s.unit.setX (sbox s.unit.x s.unit.alphaInv false) } :=
  (onUnit_eq_of_next (whenAdmitted_ready hs.1 hs.2) : execSboxiP s = _)

end Ready

/-- A command of the `READY` column of R68 is refused in `CONFIG` phase (R69). -/
theorem needsReady_of_admission {i : Instr} (h : admission i = .ready) : NeedsReady i := fun s hf hp =>
  exec_phaseFault hf (by rw [h, hp]; rfl)

/-- Settles O19, from the equation of each admitted command and what the full and the partial S-box are word by word. -/
theorem sboxCommandsApplyPowers : Obligations.SboxCommandsApplyPowers := by
  refine ⟨⟨mustBeZero_of_mem (by decide), mustBeZero_of_mem (by decide), mustBeZero_of_mem (by decide),
      mustBeZero_of_mem (by decide)⟩,
    ⟨needsReady_of_admission rfl, needsReady_of_admission rfl, needsReady_of_admission rfl, needsReady_of_admission rfl⟩,
    ⟨hasWord_of_toNat rfl, hasWord_of_toNat rfl, hasWord_of_toNat rfl, hasWord_of_toNat rfl⟩, fun s hs => ?_⟩
  simp only [← sbox_full, ← sbox_partial]
  exact ⟨exec_sboxF hs, exec_sboxP hs, exec_sboxiF hs, exec_sboxiP hs⟩

/-! ### The S-box and the inverse S-box -/

/-- The S-box law of R97 for one word, zero included; the congruence alone makes the exponents coprime to the group order. -/
theorem gfPow_gfPow_cancel (hb : PolyIrreducible b) {k l : b.Elem} (h : k.toNat * l.toNat % (2 ^ b.n - 1) = 1)
    (x : b.Elem) : gfPow b (gfPow b x k) l = x := by
  have : Fact (Irreducible (fieldPoly b)) := ⟨irreducible_of_polyIrreducible hb⟩
  apply residue_injective
  rw [residue_gfPow, residue_gfPow, ← pow_mul, residue_pow_of_mod_eq_one x h]

/-- Word by word: a word the S-box raises is raised back, and one it leaves is left again. -/
theorem sbox_sbox_cancel (hb : PolyIrreducible b) {k l : b.Elem} (h : k.toNat * l.toNat % (2 ^ b.n - 1) = 1)
    (x : b.Vec) (full : Bool) : sbox (sbox x k full) l full = x := by
  ext1 i hi
  rw [sbox_getElem, sbox_getElem]
  split_ifs
  · exact gfPow_gfPow_cancel hb h x[i]
  · rfl

/-- Settles O40: the product of `ALPHA` and `ALPHA_INV` is 1 modulo 2^N − 1 in either order. -/
theorem sboxesInvert : Obligations.SboxesInvert := fun _ _ x full hb hu =>
  have hinv := hu.alpha_mul_alphaInv
  ⟨sbox_sbox_cancel hb hinv x full, sbox_sbox_cancel hb (by rwa [Nat.mul_comm]) x full⟩

end Sys2Proof.Proofs
end

section
/-! PROOF. The rounds (43_hades_engine.md R120 to R127): round typing, the constant adder, one round forward and inverse, the
commands that run them, and the two round transforms as inverses of each other. -/

namespace Sys2Proof.Proofs

open Sys2Proof Sys2Proof.Machine Sys2Proof.Claims

variable {b : Build}

/-! ### Round typing (R120) -/

theorem isFull_iff (u : UnitState b) (r : Nat) : u.isFull r = true ↔ FullRound u r := by
  simp [UnitState.isFull, FullRound]

theorem countP_range'_of_forall {p : Nat → Bool} {start len : Nat} (h : ∀ r, start ≤ r → r < start + len → p r = true) :
    (List.range' start len).countP p = len := by
  rw [List.countP_eq_length.mpr fun r hr => h r (List.mem_range'_1.mp hr).1 (List.mem_range'_1.mp hr).2,
    List.length_range']

/-- Settles O30: the rounds are the RFB full ones, then the RP partial ones, then the RF − RFB full ones. -/
theorem roundTypesPartition : Obligations.RoundTypesPartition := fun b u h => by
  have hsplit : List.range (u.rf.toNat + u.rp.toNat) = List.range' 0 u.rfb.toNat ++
      List.range' u.rfb.toNat u.rp.toNat ++ List.range' (u.rfb.toNat + u.rp.toNat) (u.rf.toNat - u.rfb.toNat) := by
    have hsum : u.rf.toNat + u.rp.toNat = u.rfb.toNat + u.rp.toNat + (u.rf.toNat - u.rfb.toNat) := by omega
    rw [hsum, List.range_eq_range', ← List.range'_append_1, ← List.range'_append_1, Nat.zero_add, Nat.zero_add]
  have hbefore : (List.range' 0 u.rfb.toNat).countP u.isFull = u.rfb.toNat :=
    countP_range'_of_forall fun r _ hr => (isFull_iff u r).mpr (.inl (by omega))
  have hmiddle : (List.range' u.rfb.toNat u.rp.toNat).countP u.isFull = 0 := by
    rw [List.countP_eq_zero]
    intro r hr
    rw [List.mem_range'_1] at hr
    rw [isFull_iff, FullRound]
    omega
  have hafter : (List.range' (u.rfb.toNat + u.rp.toNat) (u.rf.toNat - u.rfb.toNat)).countP u.isFull =
      u.rf.toNat - u.rfb.toNat :=
    countP_range'_of_forall fun r hr _ => (isFull_iff u r).mpr (.inr hr)
  have hfull : (List.range (u.rf.toNat + u.rp.toNat)).countP u.isFull = u.rf.toNat := by
    rw [hsplit, List.countP_append, List.countP_append, hbefore, hmiddle, hafter]
    omega
  have htotal := List.length_eq_countP_add_countP u.isFull (l := List.range (u.rf.toNat + u.rp.toNat))
  refine ⟨isFull_iff u, hfull, ?_⟩
  simpa [hfull] using htotal.symm

/-! ### One round, by its type (R121, R124, R126) -/

section RoundType

variable {u : UnitState b} {r : Nat}

/-- Addition in GF(2^N) is its own inverse (R121). -/
theorem addrc_addrc (u : UnitState b) (r : Nat) (x : b.Vec) : u.addrc r (u.addrc r x) = x := by
  ext1 i hi
  simp [UnitState.addrc]

theorem roundF_of_full (h : FullRound u r) (x : b.Vec) :
    u.roundF r x = u.matvec 2 (sbox (u.addrc r x) u.alpha true) := if_pos ((isFull_iff u r).mpr h)

theorem roundF_of_partial (h : ¬FullRound u r) (x : b.Vec) :
    u.roundF r x = u.matvec 4 (sbox (u.addrc r x) u.alpha false) := if_neg (mt (isFull_iff u r).mp h)

theorem roundI_of_full (h : FullRound u r) (x : b.Vec) :
    u.roundI r x = u.addrc r (sbox (u.matvec 3 x) u.alphaInv true) := if_pos ((isFull_iff u r).mpr h)

theorem roundI_of_partial (h : ¬FullRound u r) (x : b.Vec) :
    u.roundI r x = u.addrc r (sbox (u.matvec 5 x) u.alphaInv false) := if_neg (mt (isFull_iff u r).mp h)

end RoundType

/-- Settles O41: in either round type each step is undone by its own inverse, the last one first. -/
theorem roundsInvert : Obligations.RoundsInvert := fun b u r x hb hu => by
  by_cases h : FullRound u r
  · simp only [roundF_of_full h, roundI_of_full h, (matvec_pair_cancel hu.mf_pair _).1,
      (matvec_pair_cancel hu.mf_pair _).2, (sboxesInvert b u _ true hb hu).1, (sboxesInvert b u _ true hb hu).2,
      addrc_addrc, and_self]
  · simp only [roundF_of_partial h, roundI_of_partial h, (matvec_pair_cancel hu.mp_pair _).1,
      (matvec_pair_cancel hu.mp_pair _).2, (sboxesInvert b u _ false hb hu).1, (sboxesInvert b u _ false hb hu).2,
      addrc_addrc, and_self]

/-! ### The commands that run a round -/

theorem formatV_toNat (op r : BitVec 8) : (formatV op r).toNat = 2 ^ 24 * op.toNat + r.toNat := by
  simp only [formatV, toNat_append_eq_add, BitVec.toNat_ofNat]
  omega

section Ready

variable {s : State} (hs : Ready s) {r : BitVec 8}
include hs

/-- The commands of the engine that write `X` leave the unit ready, so they can follow one another. -/
theorem ready_setX (x : s.build.Vec) : Ready { s with unit := s.unit.setX x } := hs

theorem exec_arc_of_lt (hr : r.toNat < roundsOf s) (hc : r.toNat < s.build.rmax) :
    exec (.arc r) s = .next { s with unit := s.unit.setX (s.unit.addrc r.toNat s.unit.x) } :=
  (onUnit_eq_of_next ((whenAdmitted_ready hs.1 hs.2).trans (withRound_of_lt hr hc)) : execArc r s = _)

theorem exec_rnd_of_lt (hr : r.toNat < roundsOf s) (hc : r.toNat < s.build.rmax) :
    exec (.rnd r) s = .next { s with unit := s.unit.setX (s.unit.roundF r.toNat s.unit.x) } :=
  (onUnit_eq_of_next ((whenAdmitted_ready hs.1 hs.2).trans (withRound_of_lt hr hc)) : execRnd r s = _)

theorem exec_rndi_of_lt (hr : r.toNat < roundsOf s) (hc : r.toNat < s.build.rmax) :
    exec (.rndi r) s = .next { s with unit := s.unit.setX (s.unit.roundI r.toNat s.unit.x) } :=
  (onUnit_eq_of_next ((whenAdmitted_ready hs.1 hs.2).trans (withRound_of_lt hr hc)) : execRndi r s = _)

/-- A round number of R or above raises `INP_RANGE` (R66). -/
theorem exec_round_of_ge (hr : roundsOf s ≤ r.toNat) {i : Instr} (hi : i = .arc r ∨ i = .rnd r ∨ i = .rndi r) :
    exec i s = .next (faulted s .inpRange (encode i)) := by
  have faults {w : Word} {body : UnitState s.build → Nat → UnitOutcome s.build} :
      onUnit s (fun u => whenAdmitted .ready w u (withRound r w u (body u))) = .next (faulted s .inpRange w) :=
    onUnit_eq_of_next ((whenAdmitted_ready hs.1 hs.2).trans (withRound_of_ge hr))
  unfold exec
  obtain rfl | rfl | rfl := hi
  · exact faults
  · exact faults
  · exact faults

end Ready

/-- Settles O18, from the equations of an admitted `ARC` in the two cases of its round; the second `ARC` cancels the first. -/
theorem arcAddsConstants : Obligations.ArcAddsConstants := by
  refine ⟨mustBeZero_of_mem (by decide),
    fun r => ⟨needsReady_of_admission rfl, hasWord_of_toNat (formatV_toNat 0x28 r)⟩, fun s r hc hs hr => ⟨?_, ?_⟩,
    fun s r hs hr => exec_round_of_ge hs hr (.inl rfl)⟩
  · rw [exec_arc_of_lt hs hr hc, addrc_of_lt _ _ _ hc]
    rfl
  · have hundo : s.unit.addrc r.toNat (s.unit.addrc r.toNat s.unit.x) = s.unit.x := addrc_addrc _ _ _
    have hagain := exec_arc_of_lt (ready_setX hs (s.unit.addrc r.toNat s.unit.x)) hr hc
    refine ⟨_, exec_arc_of_lt hs hr hc, hagain.trans ?_⟩
    exact congrArg (fun x => Host.Outcome.next { s with unit := s.unit.setX x }) hundo

/-- Settles O20, from the equations of an admitted `RND`; word by word the transform is the row's product with the S-box. -/
theorem rndRunsOneRound : Obligations.RndRunsOneRound := by
  refine ⟨mustBeZero_of_mem (by decide),
    fun r => ⟨needsReady_of_admission rfl, hasWord_of_toNat (formatV_toNat 0x40 r)⟩,
    fun s r hc hs hr => ⟨fun hfull => ?_, fun hpartial => ?_⟩, fun s r hs hr => exec_round_of_ge hs hr (.inr (.inl rfl))⟩
  · rw [exec_rnd_of_lt hs hr hc, roundF_of_full hfull, addrc_of_lt _ _ _ hc]
    simp [UnitState.setX, UnitState.matvec, mulVec, dot]
  · rw [exec_rnd_of_lt hs hr hc, roundF_of_partial hpartial, addrc_of_lt _ _ _ hc]
    simp [UnitState.setX, UnitState.matvec, mulVec, dot]

/-- Settles O21, from the equations of an admitted `RNDI`; word by word the transform is the S-box of the row's product. -/
theorem rndiUndoesOneRound : Obligations.RndiUndoesOneRound := by
  refine ⟨mustBeZero_of_mem (by decide),
    fun r => ⟨needsReady_of_admission rfl, hasWord_of_toNat (formatV_toNat 0x41 r)⟩,
    fun s r hc hs hr => ⟨fun hfull => ?_, fun hpartial => ?_⟩, fun s r hs hr => exec_round_of_ge hs hr (.inr (.inr rfl))⟩
  · rw [exec_rndi_of_lt hs hr hc, roundI_of_full hfull, addrc_of_lt _ _ _ hc]
    simp [UnitState.setX, UnitState.matvec, addVec, gfAdd, dot]
  · rw [exec_rndi_of_lt hs hr hc, roundI_of_partial hpartial, addrc_of_lt _ _ _ hc]
    simp [UnitState.setX, UnitState.matvec, addVec, gfAdd, dot]

/-- Settles O27: each command writes the step of the round transform it stands for. -/
theorem roundsAreThreeCommands : Obligations.RoundsAreThreeCommands := fun s r hs hr hc => by
  have after (x : s.build.Vec) : Ready { s with unit := s.unit.setX x } := ready_setX hs x
  refine ⟨fun h => ⟨?_, ?_⟩, fun h => ⟨?_, ?_⟩⟩
  · refine ⟨_, _, _, exec_arc_of_lt hs hr hc, exec_sboxF (after _), exec_mix_of_lt (after _) (by decide), ?_⟩
    rw [exec_rnd_of_lt hs hr hc, roundF_of_full h]
    rfl
  · refine ⟨_, _, _, exec_mix_of_lt hs (by decide), exec_sboxiF (after _), exec_arc_of_lt (after _) hr hc, ?_⟩
    rw [exec_rndi_of_lt hs hr hc, roundI_of_full h]
    rfl
  · refine ⟨_, _, _, exec_arc_of_lt hs hr hc, exec_sboxP (after _), exec_mix_of_lt (after _) (by decide), ?_⟩
    rw [exec_rnd_of_lt hs hr hc, roundF_of_partial h]
    rfl
  · refine ⟨_, _, _, exec_mix_of_lt hs (by decide), exec_sboxiP (after _), exec_arc_of_lt (after _) hr hc, ?_⟩
    rw [exec_rndi_of_lt hs hr hc, roundI_of_partial h]
    rfl

end Sys2Proof.Proofs
end

section
/-! PROOF. Evaluation over a round range (43_hades_engine.md R128 to R131): the states it passes through, the evaluation as a
fold over the range's rounds, what the four commands leave in `X` and `TRACE`, and how ranges compose and undo each other. -/

namespace Sys2Proof.Proofs

open Sys2Proof Sys2Proof.Machine Sys2Proof.Claims

variable {b : Build} (u : UnitState b)

/-! ### The states of an evaluation (R128, R129) -/

theorem cons_forwardRounds (r k : Nat) (x : b.Vec) :
    x :: u.forwardRounds r k x = (List.range' r k).scanl (fun y r => u.roundF r y) x := by
  induction k generalizing r x with
  | zero => rfl
  | succ k ih => rw [forwardRounds_succ, ih, List.range'_succ, List.scanl_cons]

theorem cons_inverseRounds (rs k : Nat) (x : b.Vec) :
    x :: u.inverseRounds rs k x = (List.range' rs k).reverse.scanl (fun y r => u.roundI r y) x := by
  induction k generalizing x with
  | zero => rfl
  | succ k ih => rw [inverseRounds_succ, ih, List.range'_1_concat, List.reverse_concat, List.scanl_cons]

theorem cons_forwardTail (rs re : Nat) (x : b.Vec) : x :: u.forwardTail rs re x = forwardStates u rs re x := by
  unfold UnitState.forwardTail forwardStates
  split_ifs
  · rw [cons_forwardRounds, List.range_eq_range']
  · exact cons_forwardRounds u _ _ x
  · rfl

theorem cons_inverseTail (rs re : Nat) (x : b.Vec) : x :: u.inverseTail rs re x = inverseStates u rs re x := by
  unfold UnitState.inverseTail inverseStates undoneStates
  rw [← cons_inverseRounds, List.getLastD_cons]
  by_cases hlt : rs < re
  · by_cases h0 : rs = 0
    · subst h0
      simp [hlt, lastState]
    · simp [hlt, h0]
  · simp [hlt, Nat.sub_eq_zero_of_le (Nat.le_of_not_lt hlt)]

/-! ### An evaluation as a fold over its rounds -/

/-- One round of a forward evaluation; Minit comes before round 0 and no other (R128). -/
def forwardStep (x : b.Vec) (r : Nat) : b.Vec := u.roundF r (if r = 0 then u.matvec 0 x else x)

/-- One round of an inverse evaluation; Minit⁻¹ comes after round 0 and no other (R129). -/
def inverseStep (r : Nat) (x : b.Vec) : b.Vec := if r = 0 then u.matvec 1 (u.roundI r x) else u.roundI r x

theorem lastState_forwardRounds (r k : Nat) (x : b.Vec) :
    lastState x (u.forwardRounds (r + 1) k x) = (List.range' (r + 1) k).foldl (forwardStep u) x := by
  induction k generalizing r x with
  | zero => rfl
  | succ k ih =>
    rw [forwardRounds_succ, lastState_cons, ih, List.range'_succ, List.foldl_cons]
    rfl

/-- The last round an inverse loop undoes is the first of its range. -/
theorem lastState_inverseRounds_succ (rs k : Nat) (x : b.Vec) :
    lastState x (u.inverseRounds rs (k + 1) x) = u.roundI rs (lastState x (u.inverseRounds (rs + 1) k x)) := by
  induction k generalizing x with
  | zero => rfl
  | succ k ih =>
    rw [inverseRounds_succ, lastState_cons, ih, inverseRounds_succ, lastState_cons, Nat.add_right_comm rs 1 k, Nat.add_assoc]

theorem lastState_inverseRounds (rs k : Nat) (x : b.Vec) :
    lastState x (u.inverseRounds (rs + 1) k x) = (List.range' (rs + 1) k).foldr (inverseStep u) x := by
  induction k generalizing rs with
  | zero => rfl
  | succ k ih =>
    rw [lastState_inverseRounds_succ, ih, List.range'_succ, List.foldr_cons]
    rfl

theorem evalForward_eq_foldl (rs re : Nat) (x : b.Vec) :
    u.evalForward rs re x = (List.range' rs (re - rs)).foldl (forwardStep u) x := by
  unfold UnitState.evalForward UnitState.forwardTail
  split_ifs with hlt h0
  · obtain ⟨k, rfl⟩ := Nat.exists_eq_succ_of_ne_zero (Nat.ne_zero_of_lt hlt)
    subst h0
    rw [lastState_cons, forwardRounds_succ, lastState_cons, lastState_forwardRounds]
    rfl
  · obtain ⟨q, rfl⟩ := Nat.exists_eq_succ_of_ne_zero h0
    exact lastState_forwardRounds u q _ x
  · rw [Nat.sub_eq_zero_of_le (Nat.le_of_not_lt hlt)]
    rfl

theorem evalInverse_eq_foldr (rs re : Nat) (x : b.Vec) :
    u.evalInverse rs re x = (List.range' rs (re - rs)).foldr (inverseStep u) x := by
  unfold UnitState.evalInverse UnitState.inverseTail
  split_ifs with hlt h0
  · obtain ⟨k, rfl⟩ := Nat.exists_eq_succ_of_ne_zero (Nat.ne_zero_of_lt hlt)
    subst h0
    rw [lastState_concat, lastState_inverseRounds_succ, lastState_inverseRounds]
    rfl
  · obtain ⟨q, rfl⟩ := Nat.exists_eq_succ_of_ne_zero h0
    exact lastState_inverseRounds u q _ x
  · rw [Nat.sub_eq_zero_of_le (Nat.le_of_not_lt hlt)]
    rfl

/-- An evaluation reads the configuration and its input, not `X` (R18). -/
theorem evalForward_setX (y : b.Vec) (rs re : Nat) (x : b.Vec) :
    (u.setX y).evalForward rs re x = u.evalForward rs re x := by
  rw [evalForward_eq_foldl, evalForward_eq_foldl]
  rfl

theorem evalInverse_setX (y : b.Vec) (rs re : Nat) (x : b.Vec) :
    (u.setX y).evalInverse rs re x = u.evalInverse rs re x := by
  rw [evalInverse_eq_foldr, evalInverse_eq_foldr]
  rfl

/-! ### Ranges compose -/

section Compose

variable {p q r : Nat} (hpq : p ≤ q) (hqr : q ≤ r)
include hpq hqr

theorem range'_append_of_le : List.range' p (q - p) ++ List.range' q (r - q) = List.range' p (r - p) := by
  obtain ⟨m, rfl⟩ := Nat.exists_eq_add_of_le hpq
  obtain ⟨n, rfl⟩ := Nat.exists_eq_add_of_le hqr
  rw [Nat.add_sub_cancel_left, Nat.add_sub_cancel_left, List.range'_append_1, Nat.add_assoc, Nat.add_sub_cancel_left]

theorem evalForward_trans (x : b.Vec) : u.evalForward q r (u.evalForward p q x) = u.evalForward p r x := by
  simp only [evalForward_eq_foldl, ← range'_append_of_le hpq hqr, List.foldl_append]

theorem evalInverse_trans (x : b.Vec) : u.evalInverse p q (u.evalInverse q r x) = u.evalInverse p r x := by
  simp only [evalInverse_eq_foldr, ← range'_append_of_le hpq hqr, List.foldr_append]

end Compose

/-! ### Evaluations undo each other (R131) -/

/-- Undoing in reverse order what a fold did, step by step. -/
theorem foldr_foldl_cancel {α β : Type} {f : β → α → β} {g : α → β → β} (h : ∀ a y, g a (f y a) = y) (l : List α)
    (x : β) : l.foldr g (l.foldl f x) = x := by
  induction l generalizing x with
  | nil => rfl
  | cons a l ih => rw [List.foldl_cons, List.foldr_cons, ih, h]

theorem foldl_foldr_cancel {α β : Type} {f : β → α → β} {g : α → β → β} (h : ∀ a y, f (g a y) a = y) (l : List α)
    (x : β) : l.foldl f (l.foldr g x) = x := by
  induction l with
  | nil => rfl
  | cons a l ih => rw [List.foldr_cons, List.foldl_cons, h, ih]

section Valid

variable {u : UnitState b} (hb : PolyIrreducible b) (hu : InstanceValid u)
include hb hu

theorem inverseStep_forwardStep (r : Nat) (x : b.Vec) : inverseStep u r (forwardStep u x r) = x := by
  unfold inverseStep forwardStep
  split_ifs
  · rw [(roundsInvert b u r _ hb hu).1, (matvec_pair_cancel hu.minit_pair x).1]
  · rw [(roundsInvert b u r _ hb hu).1]

theorem forwardStep_inverseStep (r : Nat) (x : b.Vec) : forwardStep u (inverseStep u r x) r = x := by
  unfold inverseStep forwardStep
  split_ifs
  · rw [(matvec_pair_cancel hu.minit_pair _).2, (roundsInvert b u r x hb hu).2]
  · rw [(roundsInvert b u r x hb hu).2]

theorem evalInverse_evalForward (rs re : Nat) (x : b.Vec) : u.evalInverse rs re (u.evalForward rs re x) = x := by
  rw [evalInverse_eq_foldr, evalForward_eq_foldl, foldr_foldl_cancel (inverseStep_forwardStep hb hu)]

theorem evalForward_evalInverse (rs re : Nat) (x : b.Vec) : u.evalForward rs re (u.evalInverse rs re x) = x := by
  rw [evalInverse_eq_foldr, evalForward_eq_foldl, foldl_foldr_cancel (forwardStep_inverseStep hb hu)]

end Valid

/-! ### The commands -/

theorem formatG_toNat (op : BitVec 8) (tr : BitVec 1) (rs re : BitVec 8) :
    (formatG op tr rs re).toNat = 2 ^ 24 * op.toNat + 2 ^ 16 * tr.toNat + 2 ^ 8 * rs.toNat + re.toNat := by
  simp only [formatG, toNat_append_eq_add, BitVec.toNat_ofNat]
  omega

/-- A pair that is no range of the R rounds raises `INP_RANGE`, and nothing is written (R67, R128, R129). -/
theorem exec_range_illegal {s : State} (hs : Ready s) {rs re : BitVec 8}
    (h : ¬(rs.toNat ≤ re.toNat ∧ re.toNat ≤ roundsOf s)) {i : Instr}
    (hi : i = .eval rs re ∨ i = .evalT rs re ∨ i = .evali rs re ∨ i = .evaliT rs re) :
    exec i s = .next (faulted s .inpRange (encode i)) := by
  have faults {w : Word} {body : UnitState s.build → Nat → Nat → UnitOutcome s.build} :
      onUnit s (fun u => whenAdmitted .ready w u (withRange rs re w u (body u))) = .next (faulted s .inpRange w) :=
    onUnit_eq_of_next ((whenAdmitted_ready hs.1 hs.2).trans (withRange_of_illegal h))
  unfold exec
  obtain rfl | rfl | rfl | rfl := hi
  · exact faults
  · exact faults
  · exact faults
  · exact faults

section Legal

variable {s : State} (hs : Ready s) {rs re : BitVec 8} (hle : rs.toNat ≤ re.toNat) (hr : re.toNat ≤ roundsOf s)
  (hc : re.toNat ≤ s.build.rmax)
include hs hle hr hc

theorem exec_eval_of_legal :
    exec (.eval rs re) s = .next { s with
      unit := s.unit.setX (s.unit.evalForward rs.toNat re.toNat s.unit.x) } :=
  (onUnit_eq_of_next ((whenAdmitted_ready hs.1 hs.2).trans (withRange_of_legal hle hr hc)) : execEval rs re s = _)

theorem exec_evalT_of_legal :
    exec (.evalT rs re) s = .next { s with
      unit := (s.unit.setX (s.unit.evalForward rs.toNat re.toNat s.unit.x)).storeTrace
        (s.unit.x :: s.unit.forwardTail rs.toNat re.toNat s.unit.x) } :=
  (onUnit_eq_of_next ((whenAdmitted_ready hs.1 hs.2).trans (withRange_of_legal hle hr hc)) : execEvalT rs re s = _)

theorem exec_evali_of_legal :
    exec (.evali rs re) s = .next { s with
      unit := s.unit.setX (s.unit.evalInverse rs.toNat re.toNat s.unit.x) } :=
  (onUnit_eq_of_next ((whenAdmitted_ready hs.1 hs.2).trans (withRange_of_legal hle hr hc)) : execEvali rs re s = _)

theorem exec_evaliT_of_legal :
    exec (.evaliT rs re) s = .next { s with
      unit := (s.unit.setX (s.unit.evalInverse rs.toNat re.toNat s.unit.x)).storeTrace
        (s.unit.x :: s.unit.inverseTail rs.toNat re.toNat s.unit.x) } :=
  (onUnit_eq_of_next ((whenAdmitted_ready hs.1 hs.2).trans (withRange_of_legal hle hr hc)) : execEvaliT rs re s = _)

/-- `EVAL` after another command of the engine has written `X`. -/
theorem exec_eval_setX (x : s.build.Vec) :
    exec (.eval rs re) { s with unit := s.unit.setX x } =
      .next { s with unit := s.unit.setX (s.unit.evalForward rs.toNat re.toNat x) } := by
  rw [exec_eval_of_legal (ready_setX hs x) hle hr hc, evalForward_setX]
  rfl

/-- `EVALI` after another command of the engine has written `X`. -/
theorem exec_evali_setX (x : s.build.Vec) :
    exec (.evali rs re) { s with unit := s.unit.setX x } =
      .next { s with unit := s.unit.setX (s.unit.evalInverse rs.toNat re.toNat x) } := by
  rw [exec_evali_of_legal (ready_setX hs x) hle hr hc, evalInverse_setX]
  rfl

end Legal

/-- Settles O22, from the equations of an admitted `EVAL` and `EVAL.T`; their trace is the list of R128. -/
theorem evalRunsForwardRange : Obligations.EvalRunsForwardRange := by
  refine ⟨mustBeZero_of_mem (by decide), fun rs re => ⟨needsReady_of_admission rfl, needsReady_of_admission rfl,
      hasWord_of_toNat (formatG_toNat 0x48 0 rs re), hasWord_of_toNat (formatG_toNat 0x48 1 rs re)⟩,
    fun s rs re hs hle hr hc => ?_,
    fun s rs re hs h => ⟨exec_range_illegal hs h (.inl rfl), exec_range_illegal hs h (.inr (.inl rfl))⟩⟩
  rw [← cons_forwardTail, List.getLastD_cons]
  exact ⟨exec_eval_of_legal hs hle hr hc, exec_evalT_of_legal hs hle hr hc⟩

/-- Settles O23, from the equations of an admitted `EVALI` and `EVALI.T`; their trace is the list of R129. -/
theorem evaliRunsInverseRange : Obligations.EvaliRunsInverseRange := by
  refine ⟨mustBeZero_of_mem (by decide), fun rs re => ⟨needsReady_of_admission rfl, needsReady_of_admission rfl,
      hasWord_of_toNat (formatG_toNat 0x49 0 rs re), hasWord_of_toNat (formatG_toNat 0x49 1 rs re)⟩,
    fun s rs re hs hle hr hc => ?_,
    fun s rs re hs h => ⟨exec_range_illegal hs h (.inr (.inr (.inl rfl))), exec_range_illegal hs h (.inr (.inr (.inr rfl)))⟩⟩
  rw [← cons_inverseTail, List.getLastD_cons]
  exact ⟨exec_evali_of_legal hs hle hr hc, exec_evaliT_of_legal hs hle hr hc⟩

/-- Settles O28: a range is its parts one after the other, Minit belonging to round 0 and not to an empty part. -/
theorem evalRangesCompose : Obligations.EvalRangesCompose := fun s a m c hs ham hmc hr hc => by
  have hmr := Nat.le_trans hmc hr
  have hmx := Nat.le_trans hmc hc
  have hac := Nat.le_trans ham hmc
  refine ⟨⟨_, _, exec_eval_of_legal hs ham hmr hmx, exec_eval_setX hs hmc hr hc _, ?_⟩,
    ⟨_, _, exec_evali_of_legal hs hmc hr hc, exec_evali_setX hs ham hmr hmx _, ?_⟩⟩
  · rw [exec_eval_of_legal hs hac hr hc, evalForward_trans _ ham hmc]
  · rw [exec_evali_of_legal hs hac hr hc, evalInverse_trans _ ham hmc]

/-- Settles O42: the invariant bounds R by RMAX, and what the second command leaves in `X` is what the first one found there. -/
theorem evaluationRoundTrip : Obligations.EvaluationRoundTrip := fun s rs re hinv hb hs hle hr => by
  have hu := hinv.unit_inv.ready_valid hs.2
  have hc := Nat.le_trans hr hu.rounds_le_rmax
  refine ⟨⟨_, exec_eval_of_legal hs hle hr hc, ?_⟩, ⟨_, exec_evali_of_legal hs hle hr hc, ?_⟩⟩
  · rw [exec_evali_setX hs hle hr hc, evalInverse_evalForward hb hu]
    rfl
  · rw [exec_eval_setX hs hle hr hc, evalForward_evalInverse hb hu]
    rfl

/-! ### The trace (R130) -/

theorem forwardTail_length (rs re : Nat) (x : b.Vec) : (u.forwardTail rs re x).length + 1 = traceCount rs re := by
  unfold UnitState.forwardTail traceCount
  split_ifs with hlt h0
  · simp [h0]
  · simp
  · rfl

theorem inverseTail_length (rs re : Nat) (x : b.Vec) : (u.inverseTail rs re x).length + 1 = traceCount rs re := by
  unfold UnitState.inverseTail traceCount
  split_ifs with hlt h0
  · simp [h0]
  · simp
  · rfl

theorem traceCount_le (rs re : Nat) : traceCount rs re ≤ re + 2 := by
  unfold traceCount
  split_ifs <;> omega

theorem storeTrace_getElem_of_some {tr : List b.Vec} {k : Fin (b.rmax + 2)} {y : b.Vec} (h : tr[k.val]? = some y) :
    (u.storeTrace tr).trace[k] = y := by
  simp [h]

theorem storeTrace_getElem_of_le {tr : List b.Vec} {k : Fin (b.rmax + 2)} (h : tr.length ≤ k.val) :
    (u.storeTrace tr).trace[k] = u.trace[k] := by
  simp [List.getElem?_eq_none h]

theorem getElem?_length_cons (x : b.Vec) (tail : List b.Vec) : (x :: tail)[tail.length]? = some (lastState x tail) := by
  induction tail generalizing x with
  | nil => rfl
  | cons y tail ih => rw [List.length_cons, List.getElem?_cons_succ, ih, lastState_cons]

/-- What a unit holds after a trace is stored: the number of its entries, the first and the last of them, and the entries kept. -/
theorem storeTrace_holds (x : b.Vec) (tail : List b.Vec) (hlen : tail.length + 1 < 2 ^ 9) :
    (u.storeTrace (x :: tail)).traceLen.toNat = tail.length + 1 ∧
    (∀ k : Fin (b.rmax + 2), k.val = 0 → (u.storeTrace (x :: tail)).trace[k] = x) ∧
    (∀ k : Fin (b.rmax + 2), k.val + 1 = tail.length + 1 → (u.storeTrace (x :: tail)).trace[k] = lastState x tail) ∧
    (∀ k : Fin (b.rmax + 2), tail.length + 1 ≤ k.val → (u.storeTrace (x :: tail)).trace[k] = u.trace[k]) := by
  refine ⟨Nat.mod_eq_of_lt hlen, fun k hk => ?_, fun k hk => ?_, fun k hk => storeTrace_getElem_of_le u hk⟩
  · exact storeTrace_getElem_of_some u (by rw [hk, List.getElem?_cons_zero])
  · exact storeTrace_getElem_of_some u (by rw [Nat.succ.inj hk, getElem?_length_cons])

/-- Settles O29: both traced forms store the input and the states that follow it, as many as the range has. -/
theorem traceHoldsTheEvaluation : Obligations.TraceHoldsTheEvaluation := fun s rs re i hi hs hle hr hc => by
  have hsize (tail : List s.build.Vec) (h : tail.length + 1 = traceCount rs.toNat re.toNat) : tail.length + 1 < 2 ^ 9 := by
    have := traceCount_le rs.toNat re.toNat
    omega
  obtain rfl | rfl := hi
  · have hlen := forwardTail_length s.unit rs.toNat re.toNat s.unit.x
    exact ⟨_, exec_evalT_of_legal hs hle hr hc, hlen ▸ storeTrace_holds _ _ _ (hsize _ hlen)⟩
  · have hlen := inverseTail_length s.unit rs.toNat re.toNat s.unit.x
    exact ⟨_, exec_evaliT_of_legal hs hle hr hc, hlen ▸ storeTrace_holds _ _ _ (hsize _ hlen)⟩

end Sys2Proof.Proofs
end

section
/-! PROOF. The moves and the system commands (44_system_and_moves.md): the state word an index names, the checks and the writes
of `COMMIT`, and the two commands that a latched fault does not stop. -/

namespace Sys2Proof.Proofs

open Sys2Proof Sys2Proof.Machine Sys2Proof.Claims

variable {b : Build}

/-! ### The checks of `COMMIT`, in their order (R145, R193) -/

section Checks

variable {u : UnitState b}

@[simp] theorem isInversePair_eq_false_iff {p q : Fin 6} : u.isInversePair p q = false ↔ ¬PairIsIdentity u p q :=
  decide_eq_false_iff_not

theorem commitFault_of_rounds (h : u.rf.toNat < u.rfb.toNat ∨ b.rmax < u.rounds) : u.commitFault = some .cfgRounds :=
  if_pos h

variable (hr : ¬(u.rf.toNat < u.rfb.toNat ∨ b.rmax < u.rounds))
include hr

theorem commitFault_of_alpha (h : Nat.gcd u.alpha.toNat b.ord1 ≠ 1) : u.commitFault = some .cfgAlpha :=
  (if_neg hr).trans (if_pos h)

/-- With the counts and `ALPHA` in order, only the pairs are left to check. -/
theorem commitFault_eq_of_alpha (h : Nat.gcd u.alpha.toNat b.ord1 = 1) :
    u.commitFault =
      if u.isInversePair 0 1 = false then some .cfgMinit
      else if u.isInversePair 2 3 = false then some .cfgMf
      else if u.isInversePair 4 5 = false then some .cfgMp
      else none :=
  (if_neg hr).trans (if_neg (not_not_intro h))

end Checks

/-! ### What a successful `COMMIT` writes -/

/-- A residue coprime to the modulus has one inverse below it. -/
theorem eq_of_mul_mod_eq_one {a m k l : Nat} (h : Nat.gcd a m = 1) (hk : a * k % m = 1) (hl : a * l % m = 1)
    (hkm : k < m) (hlm : l < m) : k = l :=
  (Nat.ModEq.cancel_left_of_coprime (Nat.gcd_comm a m ▸ h) (hk.trans hl.symm)).eq_of_lt_of_lt hkm hlm

/-- The constants `COMMIT` leaves, position by position (R147). -/
theorem committedRc_eq (u : UnitState b) :
    (if u.opt then u.optimizedRc else u.rc) = Vector.ofFn fun r => Vector.ofFn fun i =>
      if u.opt = true ∧ u.rfb.toNat ≤ r.val ∧ r.val < u.rfb.toNat + u.rp.toNat ∧ 1 ≤ i.val then 0 else u.rc[r][i] := by
  cases u.opt with
  | true => simp [UnitState.optimizedRc, UnitState.isOptimizedAway, and_assoc]
  | false =>
    ext1 r hr
    ext1 i hi
    simp

section Config

variable {s : State} (hs : Accepting s) (hp : s.unit.phase = .config)
include hs hp

theorem exec_commit_of_some {c : Cause} (hc : s.unit.commitFault = some c) :
    exec .commit s = .next (faulted s c 0xF0000000) :=
  (onUnit_eq_of_next ((whenAdmitted_config hs hp).trans (by rw [hc]; rfl)) : execCommit s = _)

theorem exec_commit_of_none (hc : s.unit.commitFault = none) :
    exec .commit s = .next { s with
      unit := s.unit.enterReady s.unit.computedAlphaInv (if s.unit.opt then s.unit.optimizedRc else s.unit.rc) } :=
  (onUnit_eq_of_next ((whenAdmitted_config hs hp).trans (by rw [hc])) : execCommit s = _)

end Config

/-- Settles O24, check by check; the inverse exponent is the only one because `ALPHA` is coprime to 2^N − 1. -/
theorem commitValidatesInOrder : Obligations.CommitValidatesInOrder := by
  refine ⟨mustBeZero_of_mem (by decide), hasWord_of_toNat rfl,
    fun s hs => exec_phaseFault hs.1 (congrArg (phaseFault .config) hs.2), fun s hs hp =>
    ⟨fun h => exec_commit_of_some hs hp (commitFault_of_rounds h), fun hrfb hrounds => ?_⟩⟩
  have hr : ¬(s.unit.rf.toNat < s.unit.rfb.toNat ∨ s.build.rmax < s.unit.rounds) :=
    not_or.mpr ⟨Nat.not_lt.mpr hrfb, Nat.not_lt.mpr hrounds⟩
  refine ⟨fun h => exec_commit_of_some hs hp (commitFault_of_alpha hr h), fun hgcd => ?_⟩
  have hpairs := commitFault_eq_of_alpha hr hgcd
  refine ⟨fun h₁ => ?_, fun h₁ h₂ => ?_, fun h₁ h₂ h₃ => ?_, fun h₁ h₂ h₃ => ?_⟩
  · exact exec_commit_of_some hs hp (by simp [hpairs, h₁])
  · exact exec_commit_of_some hs hp (by simp [hpairs, h₁, h₂])
  · exact exec_commit_of_some hs hp (by simp [hpairs, h₁, h₂, h₃])
  · obtain ⟨hmul, hpos, hlt⟩ := computedAlphaInv_spec (u := s.unit) hgcd
    refine ⟨s.unit.computedAlphaInv, ⟨hpos, Nat.le_sub_one_of_lt hlt, hmul⟩, fun k' hk' hle hmul' => ?_, ?_⟩
    · exact eq_of_mul_mod_eq_one hgcd hmul' hmul (by omega) hlt
    · rw [exec_commit_of_none hs hp (commitFault_eq_none_iff.mpr ⟨⟨hrfb, hrounds⟩, hgcd, h₁, h₂, h₃⟩), committedRc_eq]
      rfl

/-! ### The moves -/

theorem formatX_toNat (op : BitVec 8) (e : EReg) (i : BitVec 8) :
    (formatX op e i).toNat = 2 ^ 24 * op.toNat + 2 ^ 20 * e.val + i.toNat := by
  simp only [formatX, toNat_append_eq_add, regBits, BitVec.toNat_ofFin, BitVec.toNat_ofNat]
  omega

section Accepted

variable {s : State} (hs : Accepting s) (e : EReg) {i : BitVec 8}
include hs

theorem exec_mvex_of_lt (h : i.toNat < s.build.t) :
    exec (.mvex e i) s = .next { s with unit := s.unit.writeE e s.unit.x[i.toNat] } :=
  (onUnit_eq_of_next ((whenAdmitted_any hs).trans (withStateIndex_of_lt h)) : execMvex e i s = _)

theorem exec_mvex_of_ge (h : s.build.t ≤ i.toNat) :
    exec (.mvex e i) s = .next (faulted s .inpIndex (encode (.mvex e i))) :=
  (onUnit_eq_of_next ((whenAdmitted_any hs).trans (withStateIndex_of_ge h)) : execMvex e i s = _)

theorem exec_mvxe_of_lt (h : i.toNat < s.build.t) :
    exec (.mvxe e i) s = .next { s with unit := s.unit.writeX ⟨i.toNat, h⟩ (s.unit.readE e) } :=
  (onUnit_eq_of_next ((whenAdmitted_any hs).trans (withStateIndex_of_lt h)) : execMvxe e i s = _)

theorem exec_mvxe_of_ge (h : s.build.t ≤ i.toNat) :
    exec (.mvxe e i) s = .next (faulted s .inpIndex (encode (.mvxe e i))) :=
  (onUnit_eq_of_next ((whenAdmitted_any hs).trans (withStateIndex_of_ge h)) : execMvxe e i s = _)

end Accepted

/-- Settles O15, from the equations of an accepted `MVEX` in the two cases of its index. -/
theorem mvexCopiesStateWord : Obligations.MvexCopiesStateWord :=
  ⟨mustBeZero_of_mem (by decide), fun e i => hasWord_of_toNat (formatX_toNat 0x10 e i),
    fun _ e _ h hs => exec_mvex_of_lt hs e h, fun _ e _ hs h => exec_mvex_of_ge hs e h⟩

/-- Settles O16, from the equations of an accepted `MVXE` in the two cases of its index. -/
theorem mvxeCopiesElement : Obligations.MvxeCopiesElement :=
  ⟨mustBeZero_of_mem (by decide), fun e i => hasWord_of_toNat (formatX_toNat 0x11 e i),
    fun _ e _ h hs => exec_mvxe_of_lt hs e h, fun _ e _ hs h => exec_mvxe_of_ge hs e h⟩

/-! ### The commands that a latched fault does not stop (R149, R150) -/

theorem exec_clrf (s : State) : exec .clrf s = .next { s with unit := s.unit.clearFault } :=
  (onUnit_eq_of_next rfl : execClrf s = _)

theorem exec_srst (s : State) : exec .srst s = .next { s with unit := .reset s.build } :=
  (onUnit_eq_of_next rfl : execSrst s = _)

/-- Of the words that still execute under a latched fault, one has opcode 0xF1. -/
theorem onlyExactWord_clrf : OnlyExactWord 0xF1 0xF1000000 := fun _ _ hf hop hne =>
  command_latched hf hne (by rintro rfl; exact absurd hop (by decide))

/-- Of the words that still execute under a latched fault, one has opcode 0xFF. -/
theorem onlyExactWord_srst : OnlyExactWord 0xFF 0xFF000000 := fun _ _ hf hop hne =>
  command_latched hf (by rintro rfl; exact absurd hop (by decide)) hne

/-- Settles O25: `CLRF` asks for neither the phase nor the latch. -/
theorem clrfClearsLatch : Obligations.ClrfClearsLatch :=
  ⟨mustBeZero_of_mem (by decide), onlyExactWord_clrf, hasWord_of_toNat rfl, exec_clrf⟩

/-- Settles O26: `SRST` asks for neither the phase nor the latch, and leaves the all-zero unit. -/
theorem srstResetsEverything : Obligations.SrstResetsEverything :=
  ⟨mustBeZero_of_mem (by decide), onlyExactWord_srst, hasWord_of_toNat rfl,
    fun s => ⟨.reset s.build, allZero_unitReset s.build, exec_srst s⟩⟩

end Sys2Proof.Proofs
end

section
/-! PROOF. The fault latch (60_exceptions.md R190 to R192, R194) and the phase (R196): everything an action can do to either,
read off the effects of the actions. -/

namespace Sys2Proof.Machine

open Sys2Proof.Claims

variable {b : Build} {u v : UnitState b}

/-! ### While a fault stays latched (R192) -/

theorem CommandEffect.keepsLatch {i : Instr} (h : CommandEffect u i v) (hu : u.fault = true) (hv : v.fault = true) :
    v.cause = u.cause ∧ v.errinfo = u.errinfo := by
  cases h with
  | ignored | writesE | writesX | traces | commits => exact ⟨rfl, rfl⟩
  | faulted _ hf => cases hf.symm.trans hu
  | clears | resets => cases hv

/-- A window write takes no second fault (R47, R192). -/
theorem hostWrite_keepsLatch (hu : u.fault = true) (i : WordIndex) (w : Word) :
    (hostWrite u i w).fault = true ∧ (hostWrite u i w).cause = u.cause ∧ (hostWrite u i w).errinfo = u.errinfo := by
  obtain e | ⟨-, e⟩ | ⟨-, -, hf, -⟩ := hostWrite_cases u i w
  · simp [e, hu]
  · simp [e, hu]
  · cases hf.symm.trans hu

theorem ActionEffect.keepsLatch {a : HostAction} (h : ActionEffect u a v) (hu : u.fault = true) (hv : v.fault = true) :
    v.cause = u.cause ∧ v.errinfo = u.errinfo := by
  cases h with
  | reads => exact ⟨rfl, rfl⟩
  | resets => cases hv
  | commands hd h => exact h.keepsLatch hu hv
  | rejects => rw [illegalWord_latched hu]; exact ⟨rfl, rfl⟩
  | writes w => exact (hostWrite_keepsLatch hu _ w).2

/-- A step that performs an ignored command word leaves the unit as it is (R192). -/
theorem step_command_latched {s : State} {w : Word} {rest : List HostAction}
    (h : s.pending = .write cmdIndex w :: rest) (hf : s.unit.fault = true) (hclrf : w ≠ 0xF1000000)
    (hsrst : w ≠ 0xFF000000) : step s = .next { s with pending := rest, wentWrong := true } := by
  rw [step_command h, command_latched (s := { s with pending := rest }) hf hclrf hsrst, noteFault_of_next]
  simp [hf]

/-! ### Taking a fault (R190, R191) -/

theorem CommandEffect.eq_raise {i : Instr} (h : CommandEffect u i v) (hu : u.fault = false) (hv : v.fault = true) :
    ∃ c, c ≠ .none ∧ v = u.raise c (encode i) := by
  cases h with
  | faulted _ _ hc => exact ⟨_, hc, rfl⟩
  | ignored | writesE | writesX | traces | commits => cases hu.symm.trans hv
  | clears | resets => cases hv

theorem ActionEffect.eq_raise_of_command {w : Word} (h : ActionEffect u (.write cmdIndex w) v) (hu : u.fault = false)
    (hv : v.fault = true) : ∃ c, c ≠ .none ∧ v = u.raise c w := by
  cases h with
  | commands hd h => exact encode_of_decode hd ▸ h.eq_raise hu hv
  | rejects => exact ⟨_, decodeCause_ne_none _, illegalWord_clear hu⟩
  | writes _ hi => exact absurd rfl hi

/-- The only fault a window write takes is the lock's (R47). -/
theorem hostWrite_eq_raise (hu : u.fault = false) {i : WordIndex} {w : Word} (hv : (hostWrite u i w).fault = true) :
    hostWrite u i w = u.raise .phaseLocked (lockInfo i) := by
  obtain e | ⟨-, e⟩ | ⟨-, -, -, e⟩ := hostWrite_cases u i w
  · cases hu.symm.trans (e ▸ hv)
  · rw [e, storeLoc_fault] at hv
    cases hu.symm.trans hv
  · exact e

/-- `ERRINFO` of a fault that a write takes: the command word, or the place of a refused window write (R191). -/
def faultInfo (i : WordIndex) (w : Word) : Word := if i = cmdIndex then w else lockInfo i

/-- An action that takes a fault is a write, and all it does is take it. -/
theorem perform_eq_raise {a : HostAction} {s t : State} (h : perform a s = .next t) (hs : s.unit.fault = false)
    (ht : t.unit.fault = true) :
    ∃ i w c, a = .write i w ∧ c ≠ .none ∧ t = { s with unit := s.unit.raise c (faultInfo i w) } := by
  cases a with
  | read i =>
    obtain rfl := Host.Outcome.next.inj h
    cases hs.symm.trans ht
  | reset =>
    obtain rfl := Host.Outcome.next.inj h
    cases ht
  | write i w =>
    by_cases hi : i = cmdIndex
    · subst hi
      obtain ⟨v, hv, rfl⟩ := command_effect (perform_command w s ▸ h)
      obtain ⟨c, hc, rfl⟩ := hv.eq_raise_of_command hs ht
      exact ⟨_, w, c, rfl, hc, by rw [faultInfo, if_pos rfl]⟩
    · rw [perform_write hi] at h
      obtain rfl := Host.Outcome.next.inj h
      exact ⟨i, w, .phaseLocked, rfl, nofun, by rw [faultInfo, if_neg hi, hostWrite_eq_raise hs ht]⟩

/-- A step that takes a fault performs a write, and does nothing to the unit but take it. -/
theorem step_eq_raise {s t : State} {a : HostAction} {rest : List HostAction} (hp : s.pending = a :: rest)
    (h : step s = .next t) (hs : s.unit.fault = false) (ht : t.unit.fault = true) :
    ∃ i w c, a = .write i w ∧ c ≠ .none ∧
      t = { s with unit := s.unit.raise c (faultInfo i w), pending := rest, wentWrong := true } := by
  rw [step_pending hp] at h
  obtain ⟨t', hperform, rfl⟩ := noteFault_next.mp h
  obtain ⟨i, w, c, ha, hc, rfl⟩ := perform_eq_raise hperform hs ht
  exact ⟨i, w, c, ha, hc, by simp⟩

/-- `CLRF` undoes the taking of a fault from a consistent latch (R194). -/
theorem UnitState.clearFault_raise (hl : LatchConsistent u) (hf : u.fault = false) (c : Cause) (w : Word) :
    (u.raise c w).clearFault = u := by
  ext1 <;> simp [hf, hl.cause_clear hf, hl.errinfo_clear hf]

/-! ### From `CONFIG` to `READY` (R196) -/

theorem CommandEffect.eq_commit {i : Instr} (h : CommandEffect u i v) (hu : u.phase = .config) (hv : v.phase = .ready) :
    i = .commit := by
  cases h with
  | commits => rfl
  | ignored | faulted | writesE | writesX | traces | clears => cases hu.symm.trans hv
  | resets => cases hv

theorem hostWrite_phase (u : UnitState b) (i : WordIndex) (w : Word) : (hostWrite u i w).phase = u.phase := by
  obtain e | ⟨-, e⟩ | ⟨-, -, -, e⟩ := hostWrite_cases u i w <;> simp [e]

theorem illegalWord_phase (u : UnitState b) (e : DecodeError) (w : Word) : (illegalWord u e w).phase = u.phase := by
  obtain h | h := illegalWord_cases u e w <;> simp [h]

theorem ActionEffect.eq_commit {a : HostAction} (h : ActionEffect u a v) (hu : u.phase = .config)
    (hv : v.phase = .ready) : a = .write cmdIndex 0xF0000000 := by
  cases h with
  | reads => cases hu.symm.trans hv
  | resets => cases hv
  | commands hd h =>
    obtain rfl := h.eq_commit hu hv
    rw [← encode_of_decode hd]
    rfl
  | rejects => cases hu.symm.trans (illegalWord_phase u _ _ ▸ hv)
  | writes w => cases hu.symm.trans (hostWrite_phase u _ w ▸ hv)

end Sys2Proof.Machine

namespace Sys2Proof.Proofs

open Sys2Proof Sys2Proof.Machine Sys2Proof.Claims

/-- Settles O9: a latched fault stops every command word but two, no access to the window, and is not overwritten. -/
theorem latchedCommandsAreIgnored : Obligations.LatchedCommandsAreIgnored := by
  refine ⟨fun s w rest h hf => step_command_latched h hf, fun s i rest hf h => ?_, fun s i w rest hf h hi => ?_,
    fun s t hs h ht => ?_⟩
  · simp [step_read h, hf]
  · simp [step_write h hi, hf]
  · obtain ⟨-, rfl⟩ | ⟨a, rest, v, l, -, ha, rfl⟩ := step_effect h
    · exact ⟨rfl, rfl⟩
    · exact ha.keepsLatch hs ht

/-- Settles O50: the only effect that latches a fault is the taking of it. -/
theorem faultChangesOnlyTheLatch : Obligations.FaultChangesOnlyTheLatch := fun _ _ _ _ hp hs h ht =>
  step_eq_raise hp h hs ht

/-- Settles O51: a step that takes a fault does nothing else to the unit, and `CLRF` undoes that. -/
theorem recoveryRestoresTheUnit : Obligations.RecoveryRestoresTheUnit := by
  intro s t hl hs h ht
  cases hp : s.pending with
  | nil =>
    obtain rfl := Host.Outcome.next.inj ((step_idle hp).symm.trans h)
    cases hs.symm.trans ht
  | cons a rest =>
    obtain ⟨i, w, c, -, -, rfl⟩ := step_eq_raise hp h hs ht
    rw [exec_clrf]
    simp only [UnitState.clearFault_raise hl hs, List.tail_cons]

/-- Settles O52: only `COMMIT` has the effect of entering `READY`, and a latched fault would have stopped it; only a reset changes
the phase of a `READY` unit. -/
theorem phaseTransitions : Obligations.PhaseTransitions := by
  intro s t h
  refine ⟨fun hs ht => ?_, fun hs ht => ?_⟩
  · obtain ⟨-, rfl⟩ | ⟨a, rest, v, l, hp, ha, rfl⟩ := step_effect h
    · cases hs.symm.trans ht
    · obtain rfl := ha.eq_commit hs ht
      refine ⟨Bool.eq_false_iff.mpr fun hf => ?_, rest, hp⟩
      have hsame := Host.Outcome.next.inj ((step_command_latched hp hf (by decide) (by decide)).symm.trans h)
      have hphase : s.unit.phase = v.phase := congrArg (fun r => r.unit.phase) hsame
      cases hs.symm.trans (hphase.trans ht)
  · by_contra hreset
    obtain ⟨u, e, hu, -⟩ := configurationIsReadOnlyInReady s t hs hreset h
    rw [e] at ht
    cases hu.symm.trans ht

end Sys2Proof.Proofs
end

section
/-! PROOF. What runs straight after reset (70_reset_and_hazards.md R206): the unit accepts commands, in `CONFIG` phase, with every
register and `ALPHA` zero. -/

namespace Sys2Proof.Proofs

open Sys2Proof Sys2Proof.Machine Sys2Proof.Claims

theorem accepting_resetOf (b : Build) : Accepting (State.resetOf b) := rfl

theorem readE_reset (b : Build) (r : EReg) : (UnitState.reset b).readE r = 0 :=
  (allZero_unitReset b).1 r

/-- The engine's commands are the `READY` column of R68. -/
theorem admission_of_isEngineCommand {i : Instr} (h : isEngineCommand i = true) : admission i = .ready := by
  cases i with
  | fli | fadd | fmul | fpow | finv | mvex | mvxe | commit | clrf | srst => cases h
  | _ => rfl

/-- `ALPHA = 0` shares the factor 2^N − 1 with the group order, which is not 1 because N ≥ 3. -/
theorem gcd_zero_ord1_ne_one (b : Build) : Nat.gcd 0 b.ord1 ≠ 1 := by
  have hpow : 2 ^ 3 ≤ 2 ^ b.n := Nat.pow_le_pow_right (by decide) b.three_le_n
  rw [Nat.gcd_zero_left, Build.ord1]
  omega

/-- No rounds are within every capacity; the exponent is the first check to fail (R145, R193). -/
theorem commitFault_reset (b : Build) : (UnitState.reset b).commitFault = some .cfgAlpha :=
  commitFault_of_alpha (not_or.mpr ⟨Nat.lt_irrefl 0, Nat.not_lt_zero b.rmax⟩) (gcd_zero_ord1_ne_one b)

theorem immediate_one_ne_zero (b : Build) : immediate b 1 ≠ 0 := by
  have hn : 0 < b.n := Nat.lt_of_lt_of_le (by decide) b.three_le_n
  have hbit : (immediate b 1).getLsbD 0 = true := by simp [immediate, hn]
  intro h
  rw [h] at hbit
  simp at hbit

/-- After `FLI` has loaded its source with 1, `FINV` runs on an accepting unit (R88, R92). -/
theorem exec_fli_one_then_finv {s : State} (hs : Accepting s) (d a : EReg) :
    ∃ t u, exec (.fli a 1) s = .next t ∧ exec (.finv d a) t = .next u ∧ u.unit.fault = false := by
  refine ⟨_, _, exec_fli hs a 1, exec_finv_of_ne_zero ?accepting d ?source, ?_⟩
  case source =>
    rw [UnitState.readE_writeE_self]
    exact immediate_one_ne_zero s.build
  all_goals exact hs

/-- Settles O58: the phase stops the engine's commands and `ALPHA = 0` stops `COMMIT`; the field commands and the moves ask for
neither, and their effect leaves the latch alone. -/
theorem onlyTheInstanceIsMissingAfterReset : Obligations.OnlyTheInstanceIsMissingAfterReset := by
  intro b
  have hs := accepting_resetOf b
  refine ⟨fun i hi => needsReady_of_admission (admission_of_isEngineCommand hi) _ hs rfl,
    exec_commit_of_some hs rfl (commitFault_reset b), fun i d a c imm hi => ?_, fun i e k hk hi => ?_,
    fun d a => ⟨exec_finv_of_zero hs d (readE_reset b a), exec_fli_one_then_finv hs d a⟩⟩
  · obtain rfl | rfl | rfl | rfl := hi
    · exact ⟨_, exec_fli hs d imm, hs⟩
    · exact ⟨_, exec_fadd hs d a c, hs⟩
    · exact ⟨_, exec_fmul hs d a c, hs⟩
    · exact ⟨_, exec_fpow hs d a c, hs⟩
  · obtain rfl | rfl := hi
    · exact ⟨_, exec_mvex_of_lt hs e hk, hs⟩
    · exact ⟨_, exec_mvxe_of_lt hs e hk, hs⟩

end Sys2Proof.Proofs
end
